-- ==== Sys2Proof/Word.lean ====
section
/-! DEFINITION. The words of the Intcode machine and the parameter that gives their width (spec/10_state.md R22,
spec/00_scope.md R7). A word is a signed integer (R22: "Every stored value is a *word*"). The spec makes the width a parameter
that may be unbounded (`W = ∞`), does exact arithmetic on words and never masks or shifts one, so the model writes a word as
an `Int`; that it lies in the range of the width is an invariant of the state (`Machine.State.Inv`), not a fact of the type. -/

namespace Sys2Proof

/-- The parameter `W` of R7: a number of bits, or no bound at all. -/
inductive Width where
  /-- signed two's-complement words of `n` bits, range `[-2^(n-1), 2^(n-1)-1]` -/
  | bits (n : Nat)
  /-- `W = ∞`: unbounded integers -/
  | unbounded
deriving DecidableEq, Repr

end Sys2Proof
end

