-- ==== Sys2Proof/Config.lean ====
section
/-! DEFINITION. The implementation parameters of spec/00_scope.md R7 that are fixed for one machine. They are parameters of
the step, not state that a program can reach (spec/10_state.md R38); `Machine.State` carries them in one field that no step
changes, so that every statement is about every choice of them. -/

namespace Sys2Proof

/-- The parameter `OVF` of R7 (R119): what a sum or product that does not fit a word does. -/
inductive Overflow where
  /-- raise `ArithOverflow` and write nothing (the default) -/
  | fault
  /-- two's-complement wrap-around -/
  | wrap
deriving DecidableEq, Repr

/-- The parameter `WRITE_IMM` of R7 (R63): what an Immediate mode digit on a destination does. -/
inductive WriteImm where
  /-- raise `InvalidMode` when the operand is resolved (the default) -/
  | fault
  /-- use the operand as the address, as in Position mode -/
  | asPosition
deriving DecidableEq, Repr

/-- The parameters of one machine (R7). `N` and `LEN` of R7 are not here: `N` is the number of engines of the network that
was constructed and `LEN` the length of each engine's image; both are in `Machine.State`. -/
structure Config where
  /-- `W` -/
  width : Width
  /-- `OVF` -/
  ovf : Overflow
  /-- `REL`: is the relative addressing extension present? (R8) -/
  rel : Bool
  /-- `WRITE_IMM` -/
  writeImm : WriteImm
  /-- `CAP`: capacity of one channel, in words -/
  cap : Nat
  /-- `SEED`: the value sent to the first engine after its phase -/
  seed : Int
deriving DecidableEq, Repr

/-- The defaults of R7: `W = 64`, `OVF = Fault`, `REL = 0`, `WRITE_IMM = Fault`, `SEED = 0`. The spec gives `CAP` no default;
8 is the value of its test-vector conventions (DESIGN CHOICE, notes/assumptions/2.md). -/
def Config.standard : Config :=
  { width := .bits 64, ovf := .fault, rel := false, writeImm := .fault, cap := 8, seed := 0 }

end Sys2Proof
end

