-- ==== Sys2Proof/Syntax.lean ====
section
/-! DEFINITION. The instructions of spec/30_encoding.md R93 (spec/opcode_table.json: ten rows, ten constructors). -/

namespace Sys2Proof

/-- An addressing mode (spec/20_memory.md R60). -/
inductive Mode where
  /-- digit 0: the operand is the address of the value -/
  | position
  /-- digit 1: the operand is the value -/
  | immediate
  /-- digit 2, only with `REL = 1`: `rb + operand` is the address of the value -/
  | relative
deriving DecidableEq, Repr

/-- What the decoder makes of an instruction word (R92: "Output: {opcode, modes[3]}"). Every constructor carries the three
mode digits `m[0]`, `m[1]`, `m[2]`, those of parameters the opcode does not have too: the decoder produces and validates all
three for every opcode (R100). Operand words are no part of it: they are read one by one from the memory cells after the
instruction word when the instruction is executed (R150 step 6). -/
inductive Instr where
  /-- opcode 1, Add(3): source, source, destination (R120) -/
  | add (m0 m1 m2 : Mode)
  /-- opcode 2, Multiply(3): source, source, destination (R121) -/
  | mul (m0 m1 m2 : Mode)
  /-- opcode 3, Input(1): destination (R135) -/
  | inp (m0 m1 m2 : Mode)
  /-- opcode 4, Output(1): source (R136) -/
  | out (m0 m1 m2 : Mode)
  /-- opcode 5, JumpIfTrue(2): source, source (R130) -/
  | jt (m0 m1 m2 : Mode)
  /-- opcode 6, JumpIfFalse(2): source, source (R131) -/
  | jf (m0 m1 m2 : Mode)
  /-- opcode 7, LessThan(3): source, source, destination (R125) -/
  | lt (m0 m1 m2 : Mode)
  /-- opcode 8, Equals(3): source, source, destination (R126) -/
  | eq (m0 m1 m2 : Mode)
  /-- opcode 9, AdjustRelativeBase(1), only with `REL = 1`: source (R140) -/
  | arb (m0 m1 m2 : Mode)
  /-- opcode 99, Halt(0) (R132) -/
  | hlt (m0 m1 m2 : Mode)
deriving DecidableEq, Repr

/-- The three mode digits of an instruction, in the order `m[0]`, `m[1]`, `m[2]`. -/
def Instr.modes : Instr → Mode × Mode × Mode
  | .add a b c | .mul a b c | .inp a b c | .out a b c | .jt a b c
  | .jf a b c | .lt a b c | .eq a b c | .arb a b c | .hlt a b c => (a, b, c)

/-- The operand count `n(op)` of R93. -/
def Instr.operandCount : Instr → Nat
  | .add _ _ _ | .mul _ _ _ | .lt _ _ _ | .eq _ _ _ => 3
  | .jt _ _ _ | .jf _ _ _ => 2
  | .inp _ _ _ | .out _ _ _ | .arb _ _ _ => 1
  | .hlt _ _ _ => 0

/-- The length in words, `1 + n(op)` (R90, R102): the opcode alone decides it. -/
def Instr.length (i : Instr) : Nat := 1 + i.operandCount

end Sys2Proof
end

