-- ==== Sys2Proof/WellFormed.lean ====
section
/-! DEFINITION. Which instructions a profile has (spec/00_scope.md R8, spec/30_encoding.md R96): "Legal here means decodes
without fault"; an Immediate destination is legal (R96, R63). -/

namespace Sys2Proof

/-- Is the mode in the set `MODES` of R8? -/
def Mode.wf (rel : Bool) : Mode → Bool
  | .position | .immediate => true
  | .relative => rel

/-- Is the opcode in the set `OPS` of R8? Only AdjustRelativeBase depends on the profile. -/
def Instr.opcodeWf (rel : Bool) : Instr → Bool
  | .arb _ _ _ => rel
  | .add _ _ _ | .mul _ _ _ | .inp _ _ _ | .out _ _ _ | .jt _ _ _
  | .jf _ _ _ | .lt _ _ _ | .eq _ _ _ | .hlt _ _ _ => true

/-- Does the profile have the instruction: its opcode, and all three mode digits, used or not (R96, R100)? -/
def Instr.wf (rel : Bool) (i : Instr) : Bool :=
  i.opcodeWf rel && i.modes.1.wf rel && i.modes.2.1.wf rel && i.modes.2.2.wf rel

end Sys2Proof
end

