-- ==== Sys2Proof/Decode.lean ====
section
/-! DEFINITION. The decoder and, after it, the encoder (spec/30_encoding.md). The encoding is decimal: the fields of an
instruction word are decimal digits (R91). -/

namespace Sys2Proof

/-- Why a word is no instruction word (R97). -/
inductive DecodeError where
  /-- a negative word (R98), or an opcode outside `OPS` -/
  | invalidOpcode
  /-- a mode digit outside `MODES` -/
  | invalidMode
deriving DecidableEq, Repr

/-- `digit_k(v)` of R11: the decimal digit at weight `10^k`. -/
def digit (k v : Nat) : Nat := v / 10 ^ k % 10

/-- The mode of a digit in the profile `rel` (R60, R8). -/
def modeOfDigit (rel : Bool) (d : Nat) : Option Mode :=
  match d with
  | 0 => some .position
  | 1 => some .immediate
  | 2 => if rel then some .relative else none
  | _ => none

/-- The opcode map of R93, in the profile `rel`. -/
def instrOfOpcode (rel : Bool) (op : Nat) : Option (Mode → Mode → Mode → Instr) :=
  match op with
  | 1 => some .add
  | 2 => some .mul
  | 3 => some .inp
  | 4 => some .out
  | 5 => some .jt
  | 6 => some .jf
  | 7 => some .lt
  | 8 => some .eq
  | 9 => if rel then some .arb else none
  | 99 => some .hlt
  | _ => none

/-- Decode one instruction word (R92, R97, R98, R100): a negative word first, then the opcode, then the mode digits in
ascending order. Digits at weight `10^5` and above are not read (R99). -/
def decode (rel : Bool) (iw : Int) : Except DecodeError Instr :=
  if iw < 0 then .error .invalidOpcode
  else
    match instrOfOpcode rel (iw.toNat % 100) with
    | none => .error .invalidOpcode
    | some mk =>
      match modeOfDigit rel (digit 2 iw.toNat), modeOfDigit rel (digit 3 iw.toNat), modeOfDigit rel (digit 4 iw.toNat) with
      | some a, some b, some c => .ok (mk a b c)
      | _, _, _ => .error .invalidMode

/-- The digit of a mode (R60). -/
def Mode.digit : Mode → Nat
  | .position => 0
  | .immediate => 1
  | .relative => 2

/-- The opcode number of an instruction (R93). -/
def Instr.opcode : Instr → Nat
  | .add _ _ _ => 1
  | .mul _ _ _ => 2
  | .inp _ _ _ => 3
  | .out _ _ _ => 4
  | .jt _ _ _ => 5
  | .jf _ _ _ => 6
  | .lt _ _ _ => 7
  | .eq _ _ _ => 8
  | .arb _ _ _ => 9
  | .hlt _ _ _ => 99

/-- The instruction word (R101): `op + 100*m[0] + 1000*m[1] + 10000*m[2]`. -/
def encode (i : Instr) : Int :=
  ((i.opcode + 100 * i.modes.1.digit + 1000 * i.modes.2.1.digit + 10000 * i.modes.2.2.digit : Nat) : Int)

/-- The words of an instruction in memory (R90, R105): its instruction word, then its operand words as they stand (R104).
`none` where the number of operand words is not the opcode's. -/
def Instr.words (i : Instr) (operands : List Int) : Option (List Int) :=
  if operands.length = i.operandCount then some (encode i :: operands) else none

/-- The signed value of the low `n` bits of `v`. The machine has no bytes and no byte order (R51); this only serves the
opcode-table numbering of `decodeTableWord` and `Machine.State.withFetchWord` (notes/assumptions/9.md). -/
def signedOfBits (n v : Nat) : Int :=
  if v % 2 ^ n < 2 ^ (n - 1) then ((v % 2 ^ n : Nat) : Int) else ((v % 2 ^ n : Nat) : Int) - ((2 ^ n : Nat) : Int)

/-- How many bits of a table word stand for one word of a machine of this width; an unbounded word takes 64. -/
def tableWordBits : Width → Nat
  | .bits n => n
  | .unbounded => 64

/-- The `k`-th word of the instruction whose bits are `w` (numbered as spec/opcode_table.json numbers them: the first word
holds the lowest bits). Bits from `nbits` on are 0. -/
def tableWord (width : Width) (nbits w k : Nat) : Int :=
  signedOfBits (tableWordBits width) (w % 2 ^ nbits / 2 ^ (tableWordBits width * k))

/-- The instruction that the decoder of the larger profile (`REL = 1`, whose table the ten rows of spec/opcode_table.json
are) reads from the instruction word of a table word, for words of the default width 64. Operand words do not matter to it. -/
def decodeTableWord (nbits w : Nat) : Option Instr :=
  (decode true (tableWord (.bits 64) nbits w 0)).toOption

end Sys2Proof
end

