-- ==== Sys2Proof/Machine/State.lean ====
section
/-! DEFINITION. The state of the machine as plain data: engines, channels and composer (spec/10_state.md), the reasons a step
can stop, and the state after reset. -/

namespace Sys2Proof.Machine

/-! ### Status and fault record -/

/-- The status register of an engine (R26). -/
inductive Status where
  /-- code 0: the last attempted instruction completed, or none has been attempted since reset -/
  | ready
  /-- code 1: the last attempt was an Input that found its endpoint empty -/
  | blockedIn
  /-- code 2: the last attempt was an Output that found its endpoint full -/
  | blockedOut
  /-- code 3: a Halt instruction executed -/
  | halted
  /-- code 4: a fault was raised; the fault record says which -/
  | faulted
deriving DecidableEq, Repr

/-- The faults an ENGINE can raise (R200). Raising one is a next state of the machine (status `faulted`, record written: R205),
never an outcome of `Fault` below. -/
inductive Cause where
  /-- code 1 -/
  | invalidOpcode
  /-- code 2 -/
  | invalidMode
  /-- code 3 -/
  | outOfBounds
  /-- code 4 -/
  | inputClosed
  /-- code 5 -/
  | outputClosed
  /-- code 6 -/
  | arithOverflow
deriving DecidableEq, Repr

/-- What `raise Fault(kind, info)` is given (R205): the cause and, for `OutOfBounds`, the offending address, an exact integer
that need not be a word (R11, D16). -/
structure Trap where
  cause : Cause
  addr : Option Int
deriving DecidableEq, Repr

/-- The fault record `fr` (R28); `none` in a field is the spec's "none". -/
structure FaultRecord where
  cause : Option Cause
  pc : Option Int
  iw : Option Int
  addr : Option Int
deriving DecidableEq, Repr

/-- The record after reset: "all fields none" (R39). -/
def FaultRecord.empty : FaultRecord := { cause := none, pc := none, iw := none, addr := none }

/-! ### Memory, engine, channel -/

/-- One engine's memory (R30): `len` is `LEN`; `cells` lists, in strictly rising order, the cells that do not hold 0. A cell
below `len` that is not listed holds 0; a cell from `len` on does not exist. The unit is the word, since the machine has no
bytes (R51). `Memory.wf` (Machine/Ops.lean) is the canonical form. -/
structure Memory where
  len : Nat
  cells : List (Nat × Int)
deriving DecidableEq, Repr

/-- The whole state of one engine (R20). -/
structure Engine where
  /-- program counter (R23) -/
  pc : Int
  /-- the engine's own memory (R30, R31) -/
  mem : Memory
  /-- input endpoint: the index of the channel whose consumer end this is (R33) -/
  inCh : Nat
  /-- output endpoint: the index of the channel whose producer end this is (R33) -/
  outCh : Nat
  /-- status register (R26) -/
  status : Status
  /-- fault record (R28) -/
  fr : FaultRecord
  /-- relative base (R29); with `REL = 0` no instruction reads or writes it and it stays 0 -/
  rb : Int
deriving DecidableEq, Repr

/-- The state of one channel (R32). -/
structure Channel where
  /-- buffered values, oldest first -/
  q : List Int
  /-- the producer end has been permanently closed -/
  wclosed : Bool
  /-- the consumer end has been permanently closed -/
  rclosed : Bool
deriving DecidableEq, Repr

/-- A channel at creation (R40). -/
def Channel.fresh : Channel := { q := [], wclosed := false, rclosed := false }

/-- The two ends of a channel (R12 "Endpoint"). -/
inductive ChannelEnd where
  | producer
  | consumer
deriving DecidableEq, Repr

/-- What `TryRecv` answers (R68). -/
inductive RecvResult where
  | value (v : Int)
  | empty
  | closed
deriving DecidableEq, Repr

/-- What `TrySend` answers (R69). -/
inductive SendResult where
  | ok
  | full
  | closed
deriving DecidableEq, Repr

/-! ### Network -/

/-- The topologies of R170. -/
inductive Topology where
  /-- `N + 1` channels, engine `i` from `ch[i]` to `ch[i+1]` (R171) -/
  | chain
  /-- `N` channels, engine `i` from `ch[i]` to `ch[(i+1) mod N]` (R176) -/
  | ring
deriving DecidableEq, Repr

/-- Who drives the engines once the network is constructed (R9). -/
inductive Driver where
  /-- no composer: the external driver alone invokes `run`, pushes, pops and closes -/
  | external
  /-- the composer of spec/46_network.md, "cooperative, single external driver" (R170) -/
  | cooperative
  /-- the composer preloads and extracts, and engine steps interleave in any order, given by the external schedule
  (R9, R161, D31: "equally valid") -/
  | concurrent
deriving DecidableEq, Repr

/-- Where the composer is in its procedure (R172, R173, R178). The engine it visits is `State.cur`. -/
inductive Phase where
  /-- there is no composer: the external driver drives -/
  | idle
  /-- about to push the phase of engine `i`; for `i = N`, the seed (R172) -/
  | preload (i : Nat)
  /-- about to visit engine `cur`; for `cur = N`, at the end of a pass (R178) -/
  | visit
  /-- `run` was invoked on engine `cur`; its report is awaited -/
  | await
  /-- the engines are stepped concurrently (R161) -/
  | threads
  /-- about to drain the terminal channel (R174, R181) -/
  | extract
  /-- the result has been returned -/
  | done
  /-- stopped with the network fault in `State.netFault` (R185) -/
  | failed
deriving DecidableEq, Repr

/-- The faults a network can stop with (R185, R201), with what each carries. -/
inductive NetFault where
  /-- code 16: engine `i` faulted, with its fault record -/
  | engineFault (i : Nat) (fr : FaultRecord)
  /-- code 17: in a chain, engine `i` reported WouldBlock, with its blocked status -/
  | chainWouldBlock (i : Nat) (status : Status)
  /-- code 18: the terminal channel is empty at result extraction -/
  | noResult
  /-- code 19: a preload push into channel `c` did not return `Ok` -/
  | preloadRefused (c : Nat)
deriving DecidableEq, Repr

/-- What `run` reports (R153). -/
inductive Report where
  /-- `Ok(mem[0])` -/
  | ok (v : Int)
  /-- `Err(WouldBlock)` -/
  | wouldBlock
  /-- `Err(kind)`, together with the fault record -/
  | err (fr : FaultRecord)
deriving DecidableEq, Repr

/-! ### The outside world -/

/-- What a network is constructed from (R170, R234). -/
structure Net where
  topo : Topology
  driver : Driver
  /-- one image per engine -/
  images : List (List Int)
  /-- one phase per engine; none where no composer preloads -/
  phases : List Int
deriving DecidableEq, Repr

/-- What the external driver can do to the machine (R9, R10, R70 to R72, R188, R230, R234). -/
inductive HostOp where
  /-- create channels and engines, and start the driver named in the network (R234 steps 1 and 2, R231) -/
  | launch (net : Net)
  /-- `load(image)`: reset of one engine, with the endpoints it has (R230) -/
  | load (i : Nat) (image : List Int)
  /-- invoke `run` on engine `i` (R152) -/
  | run (i : Nat)
  /-- one step of engine `i` alone: the schedule of a concurrent implementation (R161, D31) -/
  | attempt (i : Nat)
  /-- `Push(c, v)` (R70) -/
  | push (c : Nat) (v : Int)
  /-- `Pop(c)` (R71) -/
  | pop (c : Nat)
  /-- `Drain(c)` (R71) -/
  | drain (c : Nat)
  /-- `Close(c, end)` (R72) -/
  | close (c : Nat) (e : ChannelEnd)
  /-- let the composer take one action before the next entry of the list -/
  | yield
deriving DecidableEq, Repr

/-- What the external driver was told by its last operation (R10, R153, R68, R69, R71). -/
inductive Reply where
  | report (r : Report)
  | sent (r : SendResult)
  | received (r : RecvResult)
  | drained (vs : List Int)
  | done
deriving DecidableEq, Repr

/-! ### The machine -/

/-- The state of the whole machine: a network of engines (R34) with the parameters it was built with. A single engine driven
from outside is a chain of one engine with driver `external`. -/
structure State where
  /-- the parameters of R7; no step changes them (R38) -/
  cfg : Config
  /-- the topology (R38); fixed at construction -/
  topo : Topology
  /-- who drives; fixed at construction -/
  driver : Driver
  /-- the engines `E[0..N-1]` (R34) -/
  engines : List Engine
  /-- the channels (R34) -/
  channels : List Channel
  /-- `halted[i]` (R34) -/
  halted : List Bool
  /-- the index of the engine the driver visits next, or is running (R34) -/
  cur : Nat
  /-- is a `run` of engine `cur` in progress (R152)? -/
  running : Bool
  /-- the composer's place in its procedure (R9, R173, R178) -/
  phase : Phase
  /-- has the external driver itself invoked an engine since the network was created (R234 step 5; notes/assumptions/11.md)? -/
  hostStarted : Bool
  /-- the phase words the composer was given (R170) -/
  phases : List Int
  /-- the network result register (R34) -/
  result : Option Int
  /-- the network fault register (R34) -/
  netFault : Option NetFault
  /-- pending operations of the external driver, first one first (an input of the machine, R9; notes/assumptions/4.md) -/
  hostOps : List HostOp
  /-- the answer to the external driver's last operation (notes/assumptions/5.md) -/
  reply : Option Reply
deriving DecidableEq, Repr

/-- The reasons the machine's step, or a meaning, stops with a fault. The faults the spec gives an engine are none of these:
they are next states (R205). -/
inductive Fault where
  /-- Raised by every meaning when asked to execute on an engine whose status is `halted` or `faulted`: R150 "It is permitted
  only when `status ∈ {Ready, BlockedIn, BlockedOut}`". `step` never asks for it. Safe: the machine has no such step. -/
  | stepNotPermitted
deriving DecidableEq, Repr

/-- The reasons the machine has no meaning for what it was asked. All are safe: the model stops. -/
inductive Refusal where
  /-- Raised by `exec` for an instruction that has no meaning yet (none in this model). Safe. -/
  | notModelled (mnemonic : String)
  /-- Raised when an operation names an engine that the network does not have (R34). Safe. -/
  | noEngine
  /-- Raised when an operation, an Input or an Output names a channel that the network does not have: endpoints not attached
  (R233). Safe. -/
  | noEndpoint
  /-- Raised by `load`, `run`, `attempt`, `push`, `pop` and `drain` of the external driver where the spec gives it no move: at
  a channel end that it does not hold (R33, R70, R71), or while a composer's preload or loop is at work (R175 "which sends
  nothing more", R178 "exactly one driver loop", R188, R230, R234). Safe (notes/assumptions/11.md). -/
  | hostOpNotAllowed
  /-- Raised by `launch`, `load` and `push` for values outside the word range or parameters outside the constraints of R7
  (D34, D35, U22: "refuse the launch"). Safe. -/
  | launchRefused
  /-- Raised when the composer is to read the report of a `run` whose engine is still `ready`: R153 "`run` never returns with
  `status = Ready`". Safe: no run of the machine reaches it. -/
  | noReport
deriving DecidableEq, Repr

/-- The state after reset (R39, R40): one engine with every register at the value of R39, attached to two new channels, and a
network at creation. The image is the empty one, `LEN = 0`, since a program comes from outside (R6, R230); that there is one
engine, wired as a chain and driven from outside, and that nothing has been asked of it yet, is the model's choice
(DESIGN CHOICE, notes/assumptions/3.md). -/
def State.reset : State :=
  { cfg := Config.standard
    topo := .chain
    driver := .external
    engines := [{ pc := 0, mem := { len := 0, cells := [] }, inCh := 0, outCh := 1, status := .ready,
                  fr := FaultRecord.empty, rb := 0 }]
    channels := [Channel.fresh, Channel.fresh]
    halted := [false]
    cur := 0
    running := false
    phase := .idle
    hostStarted := false
    phases := []
    result := none
    netFault := none
    hostOps := []
    reply := none }

end Sys2Proof.Machine
end

