-- ==== Sys2Proof/Machine/Flags.lean ====
section
/-! DEFINITION. What results an instruction computes. The machine has no flags (spec/10_state.md R35): what stands here is the
range of a word (R22), the function `arith` of R11 and R119 that decides about overflow, and the Boolean results that LessThan
and Equals write to memory (R125, R126). -/

namespace Sys2Proof.Machine

/-- Is the integer a word (R22: range `[-2^(W-1), 2^(W-1)-1]`)? -/
def fits (w : Width) (v : Int) : Bool :=
  match w with
  | .bits n => decide (-(2 ^ (n - 1) : Int) ≤ v) && decide (v ≤ 2 ^ (n - 1) - 1)
  | .unbounded => true

/-- `v` reduced modulo `2^W` into the range of a word (R11, R119). -/
def wrapTo (w : Width) (v : Int) : Int :=
  match w with
  | .bits n => (v + 2 ^ (n - 1)) % 2 ^ n - 2 ^ (n - 1)
  | .unbounded => v

/-- `arith(v)` of R11 and R119: the word stored for the exact result `v`. -/
def arith (cfg : Config) (v : Int) : Except Trap Int :=
  if fits cfg.width v then .ok v
  else
    match cfg.ovf with
    | .fault => .error { cause := .arithOverflow, addr := none }
    | .wrap => .ok (wrapTo cfg.width v)

/-- The word 1 or 0 (R125, R126: "The result is exactly 1 or 0"). -/
def boolWord (b : Bool) : Int := if b then 1 else 0

/-- The largest `LEN` of R7: `2^(W-1) - 4`; `none` where there is no bound. -/
def maxLen (w : Width) : Option Int :=
  match w with
  | .bits n => some (2 ^ (n - 1) - 4)
  | .unbounded => none

/-- May a memory have this length (R7, D34)? -/
def lenOk (w : Width) (n : Nat) : Bool :=
  match maxLen w with
  | some m => decide ((n : Int) ≤ m)
  | none => true

/-- The constraint of R7 on `W`. -/
def widthOk (w : Width) : Bool :=
  match w with
  | .bits n => decide (16 ≤ n)
  | .unbounded => true

/-- The constraints of R7 on the parameters: `W ≥ 16` or unbounded, `CAP ≥ 1`, `SEED` a word. -/
def configOk (cfg : Config) : Bool :=
  widthOk cfg.width && decide (1 ≤ cfg.cap) && fits cfg.width cfg.seed

/-- May this image be loaded (D34, D35): is every value a word, and the length within the bound? -/
def imageOk (cfg : Config) (image : List Int) : Bool :=
  lenOk cfg.width image.length && image.all (fits cfg.width)

end Sys2Proof.Machine
end

