-- ==== Sys2Proof/Machine/Ops.lean ====
section
/-! DEFINITION. The named operations over memory, channels and engines: `MemRead` and `MemWrite` (spec/20_memory.md R55, R56),
`TryRecv`, `TrySend`, `Close`, `Drain` (R68 to R72), completing, blocking, halting, and raising a fault
(spec/60_exceptions.md R205). There is no return from a fault (R206). -/

namespace Sys2Proof.Machine

/-! ### Memory -/

/-- The value of a cell in a list of the cells that do not hold 0. -/
def lookupCell : List (Nat × Int) → Nat → Int
  | [], _ => 0
  | (k, v) :: rest, a => if k = a then v else lookupCell rest a

/-- Give cell `a` the value `v`, keeping the list strictly rising and free of zeros. -/
def insertCell : List (Nat × Int) → Nat → Int → List (Nat × Int)
  | [], a, v => if v = 0 then [] else [(a, v)]
  | (k, w) :: rest, a, v =>
    if a < k then (if v = 0 then (k, w) :: rest else (a, v) :: (k, w) :: rest)
    else if a = k then (if v = 0 then rest else (a, v) :: rest)
    else (k, w) :: insertCell rest a v

/-- The canonical form of a cell list: addresses strictly rising from `lo` on and below `len`, no value 0. -/
def cellsWf (len : Nat) : Nat → List (Nat × Int) → Bool
  | _, [] => true
  | lo, (k, v) :: rest => decide (lo ≤ k) && decide (k < len) && decide (v ≠ 0) && cellsWf len (k + 1) rest

/-- The canonical form of a memory: equal memories are equal data. -/
def Memory.wf (m : Memory) : Bool := cellsWf m.len 0 m.cells

/-- The cells of an image from address `k` on. -/
def cellsFrom : Nat → List Int → List (Nat × Int)
  | _, [] => []
  | k, v :: rest => if v = 0 then cellsFrom (k + 1) rest else (k, v) :: cellsFrom (k + 1) rest

/-- `mem <- image`, and `LEN` its length (R39, R230). -/
def Memory.ofImage (image : List Int) : Memory := { len := image.length, cells := cellsFrom 0 image }

/-- Is `0 ≤ addr < LEN` (R55, R58)? -/
def Memory.inBounds (m : Memory) (addr : Int) : Bool := decide (0 ≤ addr) && decide (addr < m.len)

/-- The content of a cell, `none` where there is no such cell. -/
def Memory.read? (m : Memory) (addr : Int) : Option Int :=
  if m.inBounds addr then some (lookupCell m.cells addr.toNat) else none

/-- `mem[addr] <- v` for a cell that exists. -/
def Memory.write (m : Memory) (addr : Int) (v : Int) : Memory :=
  { m with cells := insertCell m.cells addr.toNat v }

/-- `OutOfBounds` with its address (R200). -/
def Trap.outOfBounds (addr : Int) : Trap := { cause := .outOfBounds, addr := some addr }

/-- A fault that records no address (R205). -/
def Trap.of (c : Cause) : Trap := { cause := c, addr := none }

/-- `MemRead(addr, 1)` (R55). -/
def memRead (m : Memory) (addr : Int) : Except Trap Int :=
  match m.read? addr with
  | some v => .ok v
  | none => .error (Trap.outOfBounds addr)

/-- `MemWrite(addr, 1, v)` (R56). -/
def memWrite (m : Memory) (addr : Int) (v : Int) : Except Trap Memory :=
  if m.inBounds addr then .ok (m.write addr v) else .error (Trap.outOfBounds addr)

/-! ### Channels -/

/-- `TryRecv()` (R68): the answer, and the channel after it. -/
def Channel.tryRecv (c : Channel) : RecvResult × Channel :=
  if c.rclosed then (.closed, c)
  else
    match c.q with
    | v :: rest => (.value v, { c with q := rest })
    | [] => if c.wclosed then (.closed, c) else (.empty, c)

/-- `TrySend(v)` (R69) on a channel of capacity `cap`. -/
def Channel.trySend (cap : Nat) (c : Channel) (v : Int) : SendResult × Channel :=
  if c.wclosed || c.rclosed then (.closed, c)
  else if cap ≤ c.q.length then (.full, c)
  else (.ok, { c with q := c.q ++ [v] })

/-- `Close(c, end)` (R72). -/
def Channel.close (c : Channel) (e : ChannelEnd) : Channel :=
  match e with
  | .producer => { c with wclosed := true }
  | .consumer => { c with rclosed := true }

/-- `Pop` repeated at most `n` times, until it does not return `Value` (R71). -/
def Channel.popUpTo : Nat → Channel → List Int × Channel
  | 0, c => ([], c)
  | n + 1, c =>
    match c.tryRecv with
    | (.value v, c') => (v :: (Channel.popUpTo n c').1, (Channel.popUpTo n c').2)
    | (.empty, _) => ([], c)
    | (.closed, _) => ([], c)

/-- `Drain(c)` (R71): every `Value` takes one value from the queue, so as many attempts as the queue is long are enough. -/
def Channel.drain (c : Channel) : List Int × Channel := Channel.popUpTo c.q.length c

/-! ### One engine -/

/-- May the engine attempt an instruction (R150)? -/
def Status.permitsStep : Status → Bool
  | .ready | .blockedIn | .blockedOut => true
  | .halted | .faulted => false

/-- The numeric code of a status (R26, D22). -/
def Status.code : Status → Nat
  | .ready => 0
  | .blockedIn => 1
  | .blockedOut => 2
  | .halted => 3
  | .faulted => 4

/-- The numeric code of a cause (R200, D22). -/
def Cause.code : Cause → Nat
  | .invalidOpcode => 1
  | .invalidMode => 2
  | .outOfBounds => 3
  | .inputClosed => 4
  | .outputClosed => 5
  | .arithOverflow => 6

/-- The numeric code of a network fault (R201, D22). -/
def NetFault.code : NetFault → Nat
  | .engineFault _ _ => 16
  | .chainWouldBlock _ _ => 17
  | .noResult => 18
  | .preloadRefused _ => 19

/-- Commit of a completed instruction (R150 step 9): the memory it leaves, the next `pc`, `status <- Ready`. -/
def Engine.complete (e : Engine) (mem : Memory) (pc : Int) : Engine := { e with mem := mem, pc := pc, status := .ready }

/-- `rb <- v` (R140). -/
def Engine.setRb (e : Engine) (v : Int) : Engine := { e with rb := v }

/-- `block(s)` (R156): the status takes that value and nothing else changes. -/
def Engine.block (e : Engine) (st : Status) : Engine := { e with status := st }

/-- Halt (R132): the status becomes `Halted` and nothing else changes. -/
def Engine.halt (e : Engine) : Engine := { e with status := .halted }

/-- `raise Fault(kind, info)` (R205): the record takes the cause, the `pc`, the raw instruction word `mem[pc]` (none where the
fetch itself faulted, that is where there is no such cell) and the address; the status becomes `Faulted`; nothing else
changes. -/
def Engine.raise (e : Engine) (t : Trap) : Engine :=
  { e with status := .faulted, fr := { cause := some t.cause, pc := some e.pc, iw := e.mem.read? e.pc, addr := t.addr } }

/-- `load(image)` (R230, R39): every register of the engine at its reset value, attached to the given endpoints. -/
def Engine.load (image : List Int) (inCh outCh : Nat) : Engine :=
  { pc := 0, mem := Memory.ofImage image, inCh := inCh, outCh := outCh, status := .ready, fr := FaultRecord.empty, rb := 0 }

/-- What `run` reports of an engine in this status (R153); nothing while it is `Ready`. -/
def Engine.report (e : Engine) : Option Report :=
  match e.status with
  | .ready => none
  | .blockedIn => some .wouldBlock
  | .blockedOut => some .wouldBlock
  | .halted => (e.mem.read? 0).map .ok
  | .faulted => some (.err e.fr)

/-! ### The engine that is running, within the machine -/

/-- The engine that is running or visited: `E[cur]`. -/
def State.engine? (s : State) : Option Engine := s.engines[s.cur]?

/-- Replace the engine `E[cur]`. -/
def State.setEngine (s : State) (e : Engine) : State := { s with engines := s.engines.set s.cur e }

/-- A channel by its index. -/
def State.channel? (s : State) (c : Nat) : Option Channel := s.channels[c]?

/-- Replace channel `c`. -/
def State.setChannel (s : State) (c : Nat) (ch : Channel) : State := { s with channels := s.channels.set c ch }

/-- The end of an attempt that touches no channel: the engine it leaves, or the fault it raises on `e` (R150, R205). -/
def State.commit (s : State) (e : Engine) (r : Except Trap Engine) : State :=
  match r with
  | .ok e' => s.setEngine e'
  | .error t => s.setEngine (e.raise t)

/-- Every meaning acts on the engine that is running, and only where its status permits an attempt (R150). -/
def State.onEngine (s : State) (k : Engine → Host.Outcome State Fault Refusal) : Host.Outcome State Fault Refusal :=
  match s.engine? with
  | none => .refused .noEngine
  | some e => if e.status.permitsStep then k e else .fault .stepNotPermitted

/-- Change the next state of an outcome and leave a fault or a refusal as it is. -/
def mapNext (f : State → State) (o : Host.Outcome State Fault Refusal) : Host.Outcome State Fault Refusal :=
  match o with
  | .next s => .next (f s)
  | .fault r => .fault r
  | .refused r => .refused r

end Sys2Proof.Machine
end

