-- ==== Sys2Proof/Machine/Operands.lean ====
section
/-! DEFINITION. Operand resolution in every mode (spec/20_memory.md R60 to R63), and the instruction shapes that differ only
in the result they compute. Parameters are resolved in ascending order, each completed before the next is touched
(spec/45_run_loop.md R150 step 6). -/

namespace Sys2Proof.Machine

/-- The raw operand of parameter `i`: `MemRead(pc + i, 1)` (R61). -/
def operand (e : Engine) (i : Nat) : Except Trap Int := memRead e.mem (e.pc + i)

/-- `ReadParam(i)` (R62). A Relative digit with `REL = 0` has already been rejected by the decoder (R62, R97); reached all the
same it raises the fault the decoder raises. Address arithmetic is exact (R11). -/
def readParam (cfg : Config) (e : Engine) (i : Nat) (m : Mode) : Except Trap Int := do
  let p ← operand e i
  match m with
  | .position => memRead e.mem p
  | .immediate => .ok p
  | .relative => if cfg.rel then memRead e.mem (e.rb + p) else .error (Trap.of .invalidMode)

/-- The address a destination operand `p` designates, before the bounds check (R63). -/
def targetAddr (cfg : Config) (e : Engine) (m : Mode) (p : Int) : Except Trap Int :=
  match m with
  | .position => .ok p
  | .immediate =>
    match cfg.writeImm with
    | .fault => .error (Trap.of .invalidMode)
    | .asPosition => .ok p
  | .relative => if cfg.rel then .ok (e.rb + p) else .error (Trap.of .invalidMode)

/-- `WriteTarget(i)` (R63): always an address, checked against the bounds. -/
def writeTarget (cfg : Config) (e : Engine) (i : Nat) (m : Mode) : Except Trap Int := do
  let p ← operand e i
  let t ← targetAddr cfg e m p
  if e.mem.inBounds t then .ok t else .error (Trap.outOfBounds t)

/-- Format F3 (R93): two sources, one destination, a result computed from the two values; advance 4
(R120, R121, R125, R126). -/
def storeResult (cfg : Config) (e : Engine) (m0 m1 m2 : Mode) (f : Int → Int → Except Trap Int) : Except Trap Engine := do
  let va ← readParam cfg e 1 m0
  let vb ← readParam cfg e 2 m1
  let t ← writeTarget cfg e 3 m2
  let r ← f va vb
  let mem ← memWrite e.mem t r
  .ok (e.complete mem (e.pc + 4))

/-- Format F2 (R93): a condition and a target, both resolved whether or not the jump is taken (R130, D12); the target is not
checked (D13). -/
def jumpIf (cfg : Config) (e : Engine) (m0 m1 : Mode) (taken : Int → Bool) : Except Trap Engine := do
  let va ← readParam cfg e 1 m0
  let vb ← readParam cfg e 2 m1
  .ok (e.complete e.mem (if taken va then vb else e.pc + 3))

end Sys2Proof.Machine
end

