-- ==== Sys2Proof/Machine/Arithmetic.lean ====
section
/-! DEFINITION. Add and Multiply (spec/40_arithmetic.md). -/

namespace Sys2Proof.Machine

/-- ADD (R120): `mem[c] = a + b`; advance 4. -/
def execAdd (m0 m1 m2 : Mode) (s : State) : Host.Outcome State Fault Refusal :=
  s.onEngine fun e => .next (s.commit e (storeResult s.cfg e m0 m1 m2 fun va vb => arith s.cfg (va + vb)))

/-- MUL (R121): `mem[c] = a * b`; advance 4. -/
def execMul (m0 m1 m2 : Mode) (s : State) : Host.Outcome State Fault Refusal :=
  s.onEngine fun e => .next (s.commit e (storeResult s.cfg e m0 m1 m2 fun va vb => arith s.cfg (va * vb)))

end Sys2Proof.Machine
end

