-- ==== Sys2Proof/Machine/Compare.lean ====
section
/-! DEFINITION. LessThan and Equals (spec/41_compare.md). -/

namespace Sys2Proof.Machine

/-- LT (R125): `mem[c] = (a < b) ? 1 : 0`, a signed comparison; advance 4. -/
def execLt (m0 m1 m2 : Mode) (s : State) : Host.Outcome State Fault Refusal :=
  s.onEngine fun e => .next (s.commit e (storeResult s.cfg e m0 m1 m2 fun va vb => .ok (boolWord (decide (va < vb)))))

/-- EQ (R126): `mem[c] = (a == b) ? 1 : 0`; advance 4. -/
def execEq (m0 m1 m2 : Mode) (s : State) : Host.Outcome State Fault Refusal :=
  s.onEngine fun e => .next (s.commit e (storeResult s.cfg e m0 m1 m2 fun va vb => .ok (boolWord (decide (va = vb)))))

end Sys2Proof.Machine
end

