-- ==== Sys2Proof/Machine/Control.lean ====
section
/-! DEFINITION. JumpIfTrue, JumpIfFalse and Halt (spec/42_control.md). -/

namespace Sys2Proof.Machine

/-- JT (R130): `a != 0 → pc = b`; else advance 3. -/
def execJt (m0 m1 : Mode) (s : State) : Host.Outcome State Fault Refusal :=
  s.onEngine fun e => .next (s.commit e (jumpIf s.cfg e m0 m1 fun va => decide (va ≠ 0)))

/-- JF (R131): `a == 0 → pc = b`; else advance 3. -/
def execJf (m0 m1 : Mode) (s : State) : Host.Outcome State Fault Refusal :=
  s.onEngine fun e => .next (s.commit e (jumpIf s.cfg e m0 m1 fun va => decide (va = 0)))

/-- HLT (R132): the status becomes `Halted`; `pc`, memory and channels are unchanged. -/
def execHlt (s : State) : Host.Outcome State Fault Refusal :=
  s.onEngine fun e => .next (s.setEngine e.halt)

end Sys2Proof.Machine
end

