-- ==== Sys2Proof/Machine/InOut.lean ====
section
/-! DEFINITION. Input and Output (spec/43_io.md): the only instructions that touch a channel (R134). -/

namespace Sys2Proof.Machine

/-- What an Input with destination `t` does with the outcome of its one receive on its input channel (R135). -/
def inputFrom (s : State) (e : Engine) (t : Int) (r : RecvResult × Channel) : State :=
  match r with
  | (.value v, c) =>
    match memWrite e.mem t v with
    | .ok mem => (s.setChannel e.inCh c).setEngine (e.complete mem (e.pc + 2))
    | .error tr => s.setEngine (e.raise tr)
  | (.empty, _) => s.setEngine (e.block .blockedIn)
  | (.closed, _) => s.setEngine (e.raise (Trap.of .inputClosed))

/-- IN (R135): the destination is resolved and checked before the channel is touched (D17). -/
def execIn (m0 : Mode) (s : State) : Host.Outcome State Fault Refusal :=
  s.onEngine fun e =>
    match writeTarget s.cfg e 1 m0 with
    | .error t => .next (s.setEngine (e.raise t))
    | .ok t =>
      match s.channel? e.inCh with
      | none => .refused .noEndpoint
      | some c => .next (inputFrom s e t c.tryRecv)

/-- What an Output does with the outcome of its one send on its output channel (R136). -/
def outputTo (s : State) (e : Engine) (r : SendResult × Channel) : State :=
  match r with
  | (.ok, c) => (s.setChannel e.outCh c).setEngine (e.complete e.mem (e.pc + 2))
  | (.full, _) => s.setEngine (e.block .blockedOut)
  | (.closed, _) => s.setEngine (e.raise (Trap.of .outputClosed))

/-- OUT (R136): the value is read before the channel is touched. -/
def execOut (m0 : Mode) (s : State) : Host.Outcome State Fault Refusal :=
  s.onEngine fun e =>
    match readParam s.cfg e 1 m0 with
    | .error t => .next (s.setEngine (e.raise t))
    | .ok v =>
      match s.channel? e.outCh with
      | none => .refused .noEndpoint
      | some c => .next (outputTo s e (c.trySend s.cfg.cap v))

end Sys2Proof.Machine
end

