-- ==== Sys2Proof/Machine/Relative.lean ====
section
/-! DEFINITION. AdjustRelativeBase (spec/44_relative.md). -/

namespace Sys2Proof.Machine

/-- The new relative base, and advance 2 (R140). With `REL = 0` opcode 9 raises `InvalidOpcode` (spec/44_relative.md); the
decoder has then already rejected it, and reached all the same it raises that fault. -/
def adjustBase (cfg : Config) (e : Engine) (m0 : Mode) : Except Trap Engine :=
  if cfg.rel then do
    let va ← readParam cfg e 1 m0
    let v ← arith cfg (e.rb + va)
    .ok ((e.setRb v).complete e.mem (e.pc + 2))
  else .error (Trap.of .invalidOpcode)

/-- ARB (R140): `rb <- rb + a`; advance 2. -/
def execArb (m0 : Mode) (s : State) : Host.Outcome State Fault Refusal :=
  s.onEngine fun e => .next (s.commit e (adjustBase s.cfg e m0))

end Sys2Proof.Machine
end

