-- ==== Sys2Proof/Machine/Network.lean ====
section
/-! DEFINITION. The composer (spec/46_network.md): construction of a network (spec/70_reset_and_hazards.md R234), and one
action of the composer. A `run` that the composer invokes is carried out by the steps of Machine/Step.lean. -/

namespace Sys2Proof.Machine

/-! ### Construction -/

/-- The number of channels: `N + 1` for a chain, `N` for a ring (R171, R176). -/
def channelCount (topo : Topology) (n : Nat) : Nat :=
  match topo with
  | .chain => n + 1
  | .ring => n

/-- The channel engine `i` sends into (R171, R176). The channel it receives from is `ch[i]` in both topologies. -/
def outIndex (topo : Topology) (n i : Nat) : Nat :=
  match topo with
  | .chain => i + 1
  | .ring => (i + 1) % n

/-- The terminal channel: the last one of a chain (R174), `ch[0]` of a ring (R176). -/
def terminalIndex (topo : Topology) (n : Nat) : Nat :=
  match topo with
  | .chain => n
  | .ring => 0

/-- The engines from index `i` on, each loaded with its image and attached to its two endpoints (R234 step 2). -/
def buildEngines (topo : Topology) (n : Nat) : Nat → List (List Int) → List Engine
  | _, [] => []
  | i, image :: rest => Engine.load image i (outIndex topo n i) :: buildEngines topo n (i + 1) rest

/-- May the network be launched (R7, R170, D34, D35): are the parameters within their constraints, is there an engine, is
there one phase per engine (none where no composer preloads), and is every value of an image or a phase a word? -/
def launchOk (cfg : Config) (net : Net) : Bool :=
  configOk cfg && decide (1 ≤ net.images.length) && net.images.all (imageOk cfg) &&
    decide (net.phases.length = if net.driver = .external then 0 else net.images.length) &&
    net.phases.all (fits cfg.width)

/-- A network at creation (R34, R40, R231, R234 steps 1 and 2), its driver about to begin. -/
def State.launched (s : State) (net : Net) : State :=
  { s with
    topo := net.topo
    driver := net.driver
    engines := buildEngines net.topo net.images.length 0 net.images
    channels := List.replicate (channelCount net.topo net.images.length) Channel.fresh
    halted := List.replicate net.images.length false
    cur := 0
    running := false
    phase := if net.driver = .external then .idle else .preload 0
    hostStarted := false
    phases := net.phases
    result := none
    netFault := none
    reply := some .done }

/-! ### The composer's actions -/

/-- The composer stops with a network fault (R185); all engine and channel state stays as it was (R183). -/
def State.failWith (s : State) (f : NetFault) : State := { s with phase := .failed, netFault := some f }

/-- The composer goes on to phase `p`, at engine `i`. -/
def State.goTo (s : State) (i : Nat) (p : Phase) : State := { s with cur := i, phase := p }

/-- One preload push of `v` into channel `c` (R172, R70); the composer goes on to `p` if it is accepted. -/
def preloadPush (s : State) (c : Nat) (v : Int) (p : Phase) : Host.Outcome State Fault Refusal :=
  match s.channel? c with
  | none => .refused .noEndpoint
  | some ch =>
    match ch.trySend s.cfg.cap v with
    | (.ok, ch') => .next ((s.setChannel c ch').goTo 0 p)
    | (.full, _) => .next (s.failWith (.preloadRefused c))
    | (.closed, _) => .next (s.failWith (.preloadRefused c))

/-- The phase after the preload: the cooperative composer visits engine 0 (R173, R178), a concurrent implementation lets the
engines go (R161). -/
def phaseAfterPreload (d : Driver) : Phase :=
  match d with
  | .external => .idle
  | .cooperative => .visit
  | .concurrent => .threads

/-- The preload in ascending order, then the seed to engine 0 (R172, R177). -/
def preloadStep (s : State) (i : Nat) : Host.Outcome State Fault Refusal :=
  match s.engines[i]?, s.phases[i]? with
  | some e, some v => preloadPush s e.inCh v (.preload (i + 1))
  | _, _ =>
    match s.engines[0]? with
    | none => .refused .noEngine
    | some e => preloadPush s e.inCh s.cfg.seed (phaseAfterPreload s.driver)

/-- At the end of a pass: a chain has run every engine once and extracts its result (R173); a ring does so if every engine
has halted, and else begins the next pass (R178, R180). -/
def endOfPass (s : State) : State :=
  match s.topo with
  | .chain => s.goTo s.cur .extract
  | .ring => if s.halted.all id then s.goTo s.cur .extract else s.goTo 0 .visit

/-- Visit engine `cur`: skip it if it has halted (R182), else invoke `run` on it (R173, R178). -/
def visitStep (s : State) : State :=
  match s.halted[s.cur]? with
  | none => endOfPass s
  | some true => s.goTo (s.cur + 1) .visit
  | some false => { s with running := true, phase := .await }

/-- The composer reads what `run` reported of engine `cur` (R173, R175, R178, R179, R183). -/
def awaitStep (s : State) (e : Engine) : Host.Outcome State Fault Refusal :=
  match e.status with
  | .halted => .next (({ s with halted := s.halted.set s.cur true } : State).goTo (s.cur + 1) .visit)
  | .blockedIn | .blockedOut =>
    match s.topo with
    | .chain => .next (s.failWith (.chainWouldBlock s.cur e.status))
    | .ring => .next (s.goTo (s.cur + 1) .visit)
  | .faulted => .next (s.failWith (.engineFault s.cur e.fr))
  | .ready => .refused .noReport

/-- The index and record of the first engine that has faulted, from index `i` on. -/
def firstFault : Nat → List Engine → Option NetFault
  | _, [] => none
  | i, e :: rest => if e.status = .faulted then some (.engineFault i e.fr) else firstFault (i + 1) rest

/-- The composer of a concurrent implementation: a fault of an engine ends the network (R183); when every engine has halted
the result is extracted (R181); until then it has nothing to do. DESIGN CHOICE (notes/assumptions/6.md): the spec gives a
concurrent composer no procedure, so when it sets `halted[i]` is the model's: every `halted[i]` stays false until all engines
have halted, and then all are set at once. -/
def threadsStep (s : State) : State :=
  match firstFault 0 s.engines with
  | some f => s.failWith f
  | none =>
    if s.engines.all (fun e => decide (e.status = .halted)) then
      ({ s with halted := s.engines.map fun _ => true } : State).goTo s.cur .extract
    else s

/-- Drain the terminal channel; the result is the last value drained, and there must be one (R174, R181). DESIGN CHOICE
(notes/assumptions/19.md): where the host has closed the consumer end, `Drain` (R71) gives no value although values may be
buffered; the composer then stops with `NoResult` and the values stay. -/
def extractStep (s : State) : Host.Outcome State Fault Refusal :=
  match s.channel? (terminalIndex s.topo s.engines.length) with
  | none => .refused .noEndpoint
  | some ch =>
    match ch.drain.1.getLast? with
    | none => .next (s.failWith .noResult)
    | some v =>
      .next { s.setChannel (terminalIndex s.topo s.engines.length) ch.drain.2 with result := some v, phase := .done }

/-- One action of the composer. Where there is none to take, nothing happens: the machine waits for its driver (R216; "stuck
(no step is enabled; a hang)", spec/93_implementation_defined.md). -/
def composerStep (s : State) : Host.Outcome State Fault Refusal :=
  match s.phase with
  | .preload i => preloadStep s i
  | .visit => .next (visitStep s)
  | .await =>
    match s.engine? with
    | none => .refused .noEngine
    | some e => awaitStep s e
  | .threads => .next (threadsStep s)
  | .extract => extractStep s
  | .idle | .done | .failed => .next s

end Sys2Proof.Machine
end

