-- ==== Sys2Proof/Machine/External.lean ====
section
/-! DEFINITION. The operations of the external driver (spec/00_scope.md R9, R10; spec/20_memory.md R70 to R73;
spec/46_network.md R188). Where it may act while or after a composer drives, and what is refused, is said in
notes/assumptions/11.md. -/

namespace Sys2Proof.Machine

/-- Is no composer's preload or loop at work (R188: "between the preload and the end of the loop"): there is no composer, or
its loop is over? -/
def Phase.loopOver : Phase → Bool
  | .idle | .extract | .done | .failed => true
  | .preload _ | .visit | .await | .threads => false

/-- May the external driver invoke engines: there is no composer, its loop is over, or the engines run concurrently, on the
external driver's schedule (R161)? In a cooperative network the composer is the "single external driver" (R170, R178). -/
def Phase.allowsRun : Phase → Bool
  | .idle | .threads | .extract | .done | .failed => true
  | .preload _ | .visit | .await => false

/-- Is the host the producer of channel `c`: is it the output of no engine (R33, R171)? -/
def State.hostProduces (s : State) (c : Nat) : Bool := s.engines.all fun e => decide (e.outCh ≠ c)

/-- May the host preload channel `c` (R70, R172, R177): does the host itself drive, has it invoked no engine yet (R234 step 5),
and is the channel the input of an engine? -/
def State.hostPreloads (s : State) (c : Nat) : Bool :=
  decide (s.phase = .idle) && !s.hostStarted && s.engines.any fun e => decide (e.inCh = c)

/-- May the host push into channel `c` (R9, R70)? -/
def State.hostMayPush (s : State) (c : Nat) : Bool := (s.phase.loopOver && s.hostProduces c) || s.hostPreloads c

/-- May the host take values from channel `c` (R71): is it the input of no engine, or the terminal channel of a ring all of
whose engines have halted? -/
def State.hostConsumes (s : State) (c : Nat) : Bool :=
  (s.engines.all fun e => decide (e.inCh ≠ c)) ||
    (decide (s.topo = .ring ∧ c = 0) && s.engines.all fun e => decide (e.status = .halted))

/-- Record the answer to the external driver's operation. -/
def State.answer (s : State) (r : Reply) : State := { s with reply := some r }

/-- The external driver turns to engine `i`. -/
def State.invoke (s : State) (i : Nat) : State := { s with cur := i, hostStarted := true }

/-- Construct a network: the reset of a network, "the creation of new channels followed by the construction of new engines"
(R231, R234). The network there was is given up, in whatever phase its composer is. -/
def launchOp (s : State) (net : Net) : Host.Outcome State Fault Refusal :=
  if launchOk s.cfg net then .next (s.launched net) else .refused .launchRefused

/-- `load(image)` of engine `i` (R230; of an engine that is there already: DESIGN CHOICE, notes/assumptions/11.md): the engine's
registers take their reset values, its endpoints and the channels stay (R231). While a composer's preload or loop is at work it
is refused: a composer "must not write engine memory" (R188) and "never performs one" (R230). -/
def loadOp (s : State) (i : Nat) (image : List Int) : Host.Outcome State Fault Refusal :=
  if s.phase.loopOver then
    match s.engines[i]? with
    | none => .refused .noEngine
    | some e =>
      if imageOk s.cfg image then
        .next (({ s with engines := s.engines.set i (Engine.load image e.inCh e.outCh) } : State).answer .done)
      else .refused .launchRefused
  else .refused .hostOpNotAllowed

/-- Invoke `run` on engine `i` (R152). After a composer has ended the spec is silent, and it is allowed (DESIGN CHOICE,
notes/assumptions/11.md). -/
def runOp (s : State) (i : Nat) : Host.Outcome State Fault Refusal :=
  if s.phase.allowsRun then
    match s.engines[i]? with
    | none => .refused .noEngine
    | some _ => .next { s.invoke i with running := true }
  else .refused .hostOpNotAllowed

/-- `Push(c, v)` (R70), for a channel the host produces for or preloads; a value that is no word is refused (D35). It is
allowed once a composer's loop is over (R188), into a halted engine's channel too (R132; DESIGN CHOICE,
notes/assumptions/11.md). -/
def pushOp (s : State) (c : Nat) (v : Int) : Host.Outcome State Fault Refusal :=
  match s.channel? c with
  | none => .refused .noEndpoint
  | some ch =>
    if s.hostMayPush c then
      (if fits s.cfg.width v then
        .next ((s.setChannel c (ch.trySend s.cfg.cap v).2).answer (.sent (ch.trySend s.cfg.cap v).1))
      else .refused .launchRefused)
    else .refused .hostOpNotAllowed

/-- `Pop(c)` (R71), for a channel the host consumes. -/
def popOp (s : State) (c : Nat) : Host.Outcome State Fault Refusal :=
  match s.channel? c with
  | none => .refused .noEndpoint
  | some ch =>
    if s.phase.loopOver && s.hostConsumes c then
      .next ((s.setChannel c ch.tryRecv.2).answer (.received ch.tryRecv.1))
    else .refused .hostOpNotAllowed

/-- `Drain(c)` (R71), for a channel the host consumes. -/
def drainOp (s : State) (c : Nat) : Host.Outcome State Fault Refusal :=
  match s.channel? c with
  | none => .refused .noEndpoint
  | some ch =>
    if s.phase.loopOver && s.hostConsumes c then
      .next ((s.setChannel c ch.drain.2).answer (.drained ch.drain.1))
    else .refused .hostOpNotAllowed

/-- `Close(c, end)` (R72): the caller may close any endpoint at any time between runs, "to abandon a run" (R184, U24). -/
def closeOp (s : State) (c : Nat) (e : ChannelEnd) : Host.Outcome State Fault Refusal :=
  match s.channel? c with
  | none => .refused .noEndpoint
  | some ch => .next ((s.setChannel c (ch.close e)).answer .done)

end Sys2Proof.Machine
end

