-- ==== Sys2Proof/Machine/Fetch.lean ====
section
/-! DEFINITION. Fetching and decoding the instruction at `pc` (spec/45_run_loop.md R150 steps 1 to 5), and placing an
instruction in memory for the host's table words. -/

namespace Sys2Proof.Machine

/-- The fault a decode error raises (R97, R98). -/
def trapOfDecodeError : DecodeError → Trap
  | .invalidOpcode => Trap.of .invalidOpcode
  | .invalidMode => Trap.of .invalidMode

/-- Steps 1 to 5 of R150: the instruction at `pc`, or the fault its fetch or its decoding raises. -/
def fetchDecode (cfg : Config) (e : Engine) : Except Trap Instr := do
  let iw ← memRead e.mem e.pc
  match decode cfg.rel iw with
  | .ok i => .ok i
  | .error d => .error (trapOfDecodeError d)

/-- Does the word decode only in the profile `REL = 1`? -/
def needsRel (iw : Int) : Bool := (decode false iw).toOption.isNone && (decode true iw).toOption.isSome

/-- Store the words at consecutive addresses from `addr` on, lengthening the memory where it is too short: the load of an
image that holds them there (R230). -/
def Memory.place (m : Memory) (addr : Int) : List Int → Memory
  | [] => m
  | v :: rest =>
    Memory.place (({ m with len := max m.len (addr.toNat + 1) } : Memory).write addr v) (addr + 1) rest

/-- An engine about to fetch the given words: placed at its `pc` (at 0 where that is negative), and permitted to step. -/
def Engine.aboutToRun (e : Engine) (words : List Int) : Engine :=
  { e with
    pc := max e.pc 0
    mem := e.mem.place (max e.pc 0) words
    status := if e.status.permitsStep then e.status else .ready }

end Sys2Proof.Machine
end

