-- ==== Sys2Proof/Machine/Step.lean ====
section
/-! DEFINITION. One step of the machine: one attempt at an instruction while a `run` is in progress (spec/45_run_loop.md R150,
R152), else the next operation of the external driver, else one action of the composer. -/

namespace Sys2Proof.Machine

/-- One attempt at the instruction at `pc` of engine `cur` (R150). -/
def attempt (s : State) : Host.Outcome State Fault Refusal :=
  match s.engine? with
  | none => .refused .noEngine
  | some e =>
    match fetchDecode s.cfg e with
    | .error t => .next (s.setEngine (e.raise t))
    | .ok i => exec i s

/-- The `run` in progress returns (R152); where no composer awaits it, its report goes to the external driver (R153). -/
def State.endRun (s : State) : State :=
  { s with
    running := false
    reply := if s.phase = .await then s.reply else (s.engine?.bind Engine.report).map .report }

/-- After an attempt of a run: the run goes on while the status is `Ready` (R152: "if status != Ready: return"). -/
def State.afterAttempt (s : State) : State :=
  if s.engine?.map (·.status) = some .ready then s else s.endRun

/-- One step of a `run` (R152): an engine that is halted or faulted takes no step and the run returns (R158). -/
def runStep (s : State) : Host.Outcome State Fault Refusal :=
  match s.engine? with
  | none => .refused .noEngine
  | some e => if e.status.permitsStep then mapNext State.afterAttempt (attempt s) else .next s.endRun

/-- One attempt of engine `i` alone, on the external schedule (R161); an engine that has ended takes no step (R150). -/
def attemptOp (s : State) (i : Nat) : Host.Outcome State Fault Refusal :=
  if s.phase.allowsRun then
    match s.engines[i]? with
    | none => .refused .noEngine
    | some e => if e.status.permitsStep then attempt (s.invoke i) else .next (s.invoke i)
  else .refused .hostOpNotAllowed

/-- One operation of the external driver. -/
def hostStep (op : HostOp) (s : State) : Host.Outcome State Fault Refusal :=
  match op with
  | .launch net => launchOp s net
  | .load i image => loadOp s i image
  | .run i => runOp s i
  | .attempt i => attemptOp s i
  | .push c v => pushOp s c v
  | .pop c => popOp s c
  | .drain c => drainOp s c
  | .close c e => closeOp s c e
  | .yield => composerStep s

/-- One step of the machine. The host acts only between runs (U24), and before the composer (notes/assumptions/4.md). -/
def step (s : State) : Host.Outcome State Fault Refusal :=
  if s.running then runStep s
  else
    match s.hostOps with
    | op :: rest => hostStep op { s with hostOps := rest }
    | [] => composerStep s

/-- `s` with the instruction whose bits are `w` loaded where the next step fetches: its words placed at the `pc` of engine
`cur`, a `run` of that engine in progress, its status one that permits a step, and the profile `REL = 1` selected where the
instruction word is one of that profile only. Four words, the longest instruction, are placed. It stands for the load of an
image and the invocation of `run` by the host (R10, R230, R152; notes/assumptions/9.md). A state without an engine `cur` is
left as it is. -/
def State.withFetchWord (s : State) (nbits w : Nat) : State :=
  match s.engine? with
  | none => s
  | some e =>
    { s.setEngine (e.aboutToRun ((List.range 4).map (tableWord s.cfg.width nbits w))) with
      cfg := { s.cfg with rel := s.cfg.rel || needsRel (tableWord s.cfg.width nbits w 0) }
      running := true
      hostStarted := true }

end Sys2Proof.Machine
end

