-- ==== Sys2Proof/Safety.lean ====
section
/-! DEFINITION. What is to hold of every state of a run, and what counts as a safe run, in the terms the statements use. -/

namespace Sys2Proof.Machine

/-- What holds of one engine of a machine with parameters `cfg`. -/
structure Engine.Inv (cfg : Config) (e : Engine) : Prop where
  /-- memory is in its canonical form -/
  memWf : e.mem.wf = true
  /-- `LEN` is within the bound of R7 -/
  memLen : lenOk cfg.width e.mem.len = true
  /-- every cell holds a word (R22) -/
  cells : ∀ c ∈ e.mem.cells, fits cfg.width c.2 = true
  /-- "So `pc` is always a word" (R25) -/
  pcFits : fits cfg.width e.pc = true
  /-- `rb` is a word (R29) -/
  rbFits : fits cfg.width e.rb = true
  /-- without the extension there is no relative base: it stays at its reset value (R8, R29) -/
  rbBase : cfg.rel = false → e.rb = 0
  /-- the record is written by a fault and by nothing else (R28) -/
  recordEmpty : e.status ≠ .faulted → e.fr = FaultRecord.empty
  /-- a faulted engine's record names its own `pc` and the raw instruction word there (R28, R205) -/
  recordPc : e.status = .faulted → e.fr.cause ≠ none ∧ e.fr.pc = some e.pc ∧ e.fr.iw = e.mem.read? e.pc
  /-- the record holds an address exactly for `OutOfBounds` (R28) -/
  recordAddr : e.fr.addr ≠ none ↔ e.fr.cause = some .outOfBounds

/-- What holds of one channel: bounded by `CAP` (R32), every item a word (R22). -/
structure Channel.Inv (cfg : Config) (c : Channel) : Prop where
  bounded : c.q.length ≤ cfg.cap
  items : ∀ v ∈ c.q, fits cfg.width v = true

/-- How the composer's place in its procedure goes with the rest of the state. -/
structure State.PhaseInv (s : State) : Prop where
  /-- there is a composer exactly when the driver is not external -/
  idleDriver : s.phase = .idle ↔ s.driver = .external
  /-- only the composer marks engines as halted -/
  idleHalted : s.phase = .idle → ∀ h ∈ s.halted, h = false
  /-- an engine is marked as halted only after it has halted (R173, R178); once the loop is over the host may load it again -/
  haltedEngine : s.phase ≠ .extract → s.phase ≠ .done → s.phase ≠ .failed → ∀ i : Nat, s.halted[i]? = some true → ∃ e : Engine, s.engines[i]? = some e ∧ e.status = .halted
  /-- one phase word per engine wherever a composer was started -/
  phaseCount : s.phase ≠ .idle → s.phases.length = s.engines.length
  /-- engines are run by a composer that awaits the report, or by the external driver where the composer leaves them to it -/
  runPhase : s.running = true → (s.phase = .await ∨ s.phase.allowsRun = true) ∧ s.cur < s.engines.length
  /-- a run that no composer awaits was invoked by the external driver (R152) -/
  runStarted : s.running = true → s.phase = .await ∨ s.hostStarted = true
  /-- the external driver has invoked no engine before a composer's preload is done (R172, R234) -/
  preloadFirst : ∀ i, s.phase = .preload i → s.hostStarted = false
  /-- the composer awaits a report of an engine of the network; once `run` has returned, its status is not `Ready` (R153) -/
  awaitEngine : s.phase = .await → ∃ e : Engine, s.engine? = some e ∧ (s.running = true ∨ e.status ≠ .ready)
  /-- a result is held exactly when the composer has returned one -/
  resultDone : s.result ≠ none ↔ s.phase = .done
  /-- a network fault is held exactly when the composer has stopped with one -/
  faultFailed : s.netFault ≠ none ↔ s.phase = .failed

/-- The invariant of the machine. -/
structure State.Inv (s : State) : Prop where
  config : configOk s.cfg = true
  someEngine : 1 ≤ s.engines.length
  engines : ∀ e ∈ s.engines, e.Inv s.cfg
  channels : ∀ c ∈ s.channels, c.Inv s.cfg
  /-- every channel end that exists is attached as the topology says (R33, R171, R176) -/
  channelCount : s.channels.length = Machine.channelCount s.topo s.engines.length
  inWired : s.engines.map (·.inCh) = List.range s.engines.length
  outWired : s.engines.map (·.outCh) = (List.range s.engines.length).map (outIndex s.topo s.engines.length)
  haltedCount : s.halted.length = s.engines.length
  phasesFit : ∀ v ∈ s.phases, fits s.cfg.width v = true
  resultFits : ∀ v, s.result = some v → fits s.cfg.width v = true
  phaseInv : s.PhaseInv

/-- A safe state: no engine has faulted and the network has not stopped with a fault. A statement about a run "takes 'no engine
faulted' as a premise or proves it" (R217). -/
structure State.Safe (s : State) : Prop where
  noEngineFault : ∀ e ∈ s.engines, e.status ≠ .faulted
  noNetFault : s.netFault = none

end Sys2Proof.Machine
end

