-- ==== Sys2Proof/Certificates/Slice0/Obligations.lean ====
section
/-! DEFINITION. The statements for the provers. Each is about the machine, over every state or operand that meets its
hypotheses; the witnesses that meet them stand in Sys2Proof/Tests/Slice0.lean. Where a statement rests on a decision of the
spec (spec/92_eei_decisions.md) or of the model (notes/assumptions/), its docstring names it. -/

namespace Sys2Proof.Claims

open Sys2Proof.Machine

/-- The engine after `raise Fault(kind, info)`, written out from R205. -/
def faulted (e : Engine) (t : Trap) : Engine :=
  { e with
    status := .faulted
    fr := { cause := some t.cause, pc := some e.pc, iw := e.mem.read? e.pc, addr := t.addr } }

/-- The engine `E[cur]` is `e` and may attempt an instruction (R150). -/
structure CanAttempt (s : State) (e : Engine) : Prop where
  engine : s.engine? = some e
  permits : e.status = .ready ∨ e.status = .blockedIn ∨ e.status = .blockedOut

/-- What an instruction of format F3 with opcode `op` and result `f` does (R120, R121, R125, R126): its encoding; the fault it
raises, the first of those that apply in the order of its parameters; and, where none applies, the one cell it writes. -/
def StoreRule (mk : Mode → Mode → Mode → Instr) (op : Int) (f : Config → Int → Int → Except Trap Int) : Prop :=
  ∀ (m0 m1 m2 : Mode) (s : State) (e : Engine), CanAttempt s e → e.mem.wf = true →
    (encode (mk m0 m1 m2) = op + 100 * m0.digit + 1000 * m1.digit + 10000 * m2.digit ∧ (mk m0 m1 m2).length = 4) ∧
    (∀ t, readParam s.cfg e 1 m0 = .error t → exec (mk m0 m1 m2) s = .next (s.setEngine (faulted e t))) ∧
    (∀ va t, readParam s.cfg e 1 m0 = .ok va → readParam s.cfg e 2 m1 = .error t →
      exec (mk m0 m1 m2) s = .next (s.setEngine (faulted e t))) ∧
    (∀ va vb t, readParam s.cfg e 1 m0 = .ok va → readParam s.cfg e 2 m1 = .ok vb → writeTarget s.cfg e 3 m2 = .error t →
      exec (mk m0 m1 m2) s = .next (s.setEngine (faulted e t))) ∧
    (∀ va vb a t, readParam s.cfg e 1 m0 = .ok va → readParam s.cfg e 2 m1 = .ok vb → writeTarget s.cfg e 3 m2 = .ok a →
      f s.cfg va vb = .error t → exec (mk m0 m1 m2) s = .next (s.setEngine (faulted e t))) ∧
    (∀ va vb a r, readParam s.cfg e 1 m0 = .ok va → readParam s.cfg e 2 m1 = .ok vb → writeTarget s.cfg e 3 m2 = .ok a →
      f s.cfg va vb = .ok r →
      ∃ mem', exec (mk m0 m1 m2) s = .next (s.setEngine { e with mem := mem', pc := e.pc + 4, status := .ready }) ∧
        mem'.len = e.mem.len ∧ ∀ b, mem'.read? b = if b = a then some r else e.mem.read? b)

/-- What a jump with opcode `op` that is taken on the conditions `taken` does (R130, R131). -/
def JumpRule (mk : Mode → Mode → Mode → Instr) (op : Int) (taken : Int → Prop) : Prop :=
  ∀ (m0 m1 m2 : Mode) (s : State) (e : Engine), CanAttempt s e →
    (encode (mk m0 m1 m2) = op + 100 * m0.digit + 1000 * m1.digit + 10000 * m2.digit ∧ (mk m0 m1 m2).length = 3) ∧
    (∀ t, readParam s.cfg e 1 m0 = .error t → exec (mk m0 m1 m2) s = .next (s.setEngine (faulted e t))) ∧
    (∀ va t, readParam s.cfg e 1 m0 = .ok va → readParam s.cfg e 2 m1 = .error t →
      exec (mk m0 m1 m2) s = .next (s.setEngine (faulted e t))) ∧
    (∀ va vb, readParam s.cfg e 1 m0 = .ok va → readParam s.cfg e 2 m1 = .ok vb →
      (taken va → exec (mk m0 m1 m2) s = .next (s.setEngine { e with pc := vb, status := .ready })) ∧
      (¬taken va → exec (mk m0 m1 m2) s = .next (s.setEngine { e with pc := e.pc + 3, status := .ready })))

/-- `n` attempts of engine `E[cur]` in a row, every one of which completes (R150: status `Ready`); none otherwise. -/
def completedRun : Nat → State → Option State
  | 0, s => some s
  | n + 1, s =>
    match attempt s with
    | .next s' => if s'.engine?.map (·.status) = some .ready then completedRun n s' else none
    | .fault _ => none
    | .refused _ => none

/-- `n` steps of the machine in a row, every one of which answers a next state; none otherwise. -/
def steps : Nat → State → Option State
  | 0, s => some s
  | n + 1, s =>
    match step s with
    | .next s' => steps n s'
    | .fault _ => none
    | .refused _ => none

/-- The same machine with more values waiting in channel `c`. -/
def withMore (s : State) (c : Nat) (vs : List Int) : State :=
  { s with channels := s.channels.modify c fun ch => { ch with q := ch.q ++ vs } }

/-- Does the operation reset engine `i`: a `load` of it, or the construction of a new network? -/
def resets (i : Nat) : HostOp → Prop
  | .launch _ => True
  | .load j _ => j = i
  | .run _ | .attempt _ | .push _ _ | .pop _ | .drain _ | .close _ _ | .yield => False

/-- Is the next thing the machine does an operation of the external driver with property `p`? -/
def nextHostOp (s : State) (p : HostOp → Prop) : Prop := s.running = false ∧ ∃ op, s.hostOps.head? = some op ∧ p op

/-- No composer's preload or loop is at work: there is no composer, or its loop is over (R188). -/
def LoopOver (s : State) : Prop := s.phase = .idle ∨ s.phase = .extract ∨ s.phase = .done ∨ s.phase = .failed

/-- A composer's preload or loop is at work. -/
def ComposerAtWork (s : State) : Prop :=
  (∃ i, s.phase = .preload i) ∨ s.phase = .visit ∨ s.phase = .await ∨ s.phase = .threads

/-- May the host take values from channel `c` (R71)? -/
def HostConsumes (s : State) (c : Nat) : Prop :=
  LoopOver s ∧ ((∀ e ∈ s.engines, e.inCh ≠ c) ∨ (s.topo = .ring ∧ c = 0 ∧ ∀ e ∈ s.engines, e.status = .halted))

/-- When an operation of the external driver is allowed. What the spec leaves open in it is the model's choice
(notes/assumptions/11.md). -/
def Allowed (s : State) : HostOp → Prop
  | .launch net => launchOk s.cfg net = true
  | .load i image => LoopOver s ∧ i < s.engines.length ∧ imageOk s.cfg image = true
  | .run i | .attempt i => (LoopOver s ∨ s.phase = .threads) ∧ i < s.engines.length
  | .push c v => c < s.channels.length ∧ fits s.cfg.width v = true ∧
      ((LoopOver s ∧ ∀ e ∈ s.engines, e.outCh ≠ c) ∨
        (s.phase = .idle ∧ s.hostStarted = false ∧ ∃ e ∈ s.engines, e.inCh = c))
  | .pop c | .drain c => c < s.channels.length ∧ HostConsumes s c
  | .close c _ => c < s.channels.length
  | .yield => True

/-- The machine is at rest between runs and no operation of the external driver is pending: the composer acts next. -/
structure ComposerActs (s : State) : Prop where
  notRunning : s.running = false
  noHostOp : s.hostOps = []

end Sys2Proof.Claims

open Sys2Proof Sys2Proof.Machine Sys2Proof.Claims

/-! ### Encoding -/

/-- Words written out digit by digit from the encoding table of R91 and R93 decode to the instruction they stand for. -/
def Obligations.WrittenWordsDecode : Prop :=
  decode false 1 = .ok (.add .position .position .position) ∧
  decode false 1002 = .ok (.mul .position .immediate .position) ∧
  decode false 3 = .ok (.inp .position .position .position) ∧
  decode false 104 = .ok (.out .immediate .position .position) ∧
  decode false 1105 = .ok (.jt .immediate .immediate .position) ∧
  decode false 1006 = .ok (.jf .position .immediate .position) ∧
  decode false 107 = .ok (.lt .immediate .position .position) ∧
  decode false 11108 = .ok (.eq .immediate .immediate .immediate) ∧
  decode false 10099 = .ok (.hlt .position .position .immediate) ∧
  decode true 22209 = .ok (.arb .relative .relative .relative) ∧
  decode true 1201 = .ok (.add .relative .immediate .position) ∧
  decode true 20003 = .ok (.inp .position .position .relative)

/-- Decode of encode is the identity, for every instruction a profile has, with every mode in every position, and the word is
the one the formula gives (spec/30_encoding.md, 4; the rule there is marked as derived). -/
def Obligations.EncodeThenDecodeGivesBack : Prop :=
  ∀ (rel : Bool) (i : Instr), i.wf rel = true →
    decode rel (encode i) = .ok i ∧
    encode i = i.opcode + 100 * i.modes.1.digit + 1000 * i.modes.2.1.digit + 10000 * i.modes.2.2.digit

/-- R92: the opcode and all three mode digits that decode produces are the digits of the word. -/
def Obligations.DecodeReadsDigits : Prop :=
  ∀ (rel : Bool) (iw : Int) (i : Instr), decode rel iw = .ok i →
    0 ≤ iw ∧ (i.opcode : Int) = iw % 100 ∧ (i.modes.1.digit : Int) = iw / 100 % 10 ∧
    (i.modes.2.1.digit : Int) = iw / 1000 % 10 ∧ (i.modes.2.2.digit : Int) = iw / 10000 % 10

/-- Which words are legal instruction words, and the largest one below `10^5` (spec/30_encoding.md, 2; marked as derived
there). -/
def Obligations.LegalInstructionWords : Prop :=
  ∀ (rel : Bool) (iw : Int),
    ((∃ i, decode rel iw = .ok i) ↔
      0 ≤ iw ∧ ((1 ≤ iw % 100 ∧ iw % 100 ≤ 8) ∨ (rel = true ∧ iw % 100 = 9) ∨ iw % 100 = 99) ∧
      ∀ d ∈ [iw / 100 % 10, iw / 1000 % 10, iw / 10000 % 10], d ≤ if rel then 2 else 1) ∧
    ((∃ i, decode rel iw = .ok i) → iw < 100000 → iw ≤ if rel then 22299 else 11199)

/-- Which fault a word that is no instruction word raises: a negative word `InvalidOpcode` (D7), an unknown opcode
`InvalidOpcode` whatever its mode digits, a known opcode with an unknown mode digit, used or not, `InvalidMode` (D9, D10). -/
def Obligations.InvalidWordsRejected : Prop :=
  ∀ (rel : Bool) (iw : Int),
    (iw < 0 → decode rel iw = .error .invalidOpcode) ∧
    (0 ≤ iw → instrOfOpcode rel (iw % 100).toNat = none → decode rel iw = .error .invalidOpcode) ∧
    (0 ≤ iw → instrOfOpcode rel (iw % 100).toNat ≠ none →
      (∃ d ∈ [iw / 100 % 10, iw / 1000 % 10, iw / 10000 % 10], (if rel then 2 else 1) < d) →
      decode rel iw = .error .invalidMode)

/-- Digits at weight `10^5` and above do not affect the instruction (D8). -/
def Obligations.HighDigitsIgnored : Prop :=
  ∀ (rel : Bool) (iw : Int), 0 ≤ iw → decode rel iw = decode rel (iw % 100000)

/-- R102: the opcode alone decides the length, which is the one of the opcode map. -/
def Obligations.LengthFromOpcodeAlone : Prop :=
  ∀ (rel : Bool) (iw : Int) (i : Instr), decode rel iw = .ok i →
    (i.length : Int) =
      if iw % 100 = 99 then 1
      else if iw % 100 = 3 ∨ iw % 100 = 4 ∨ iw % 100 = 9 then 2
      else if iw % 100 = 5 ∨ iw % 100 = 6 then 3
      else 4

/-! ### Memory, operands, channels -/

/-- R55, R56: both primitives check the bounds; a write changes the cell written and no other; and where `WriteTarget` has
answered an address, the write does not fault. That the canonical form is kept is about the model's representation
(notes/assumptions/7.md). -/
def Obligations.MemoryReadsBackWrites : Prop :=
  (∀ (m : Memory) (a : Int) (v : Int), ¬(0 ≤ a ∧ a < m.len) →
    memRead m a = .error { cause := .outOfBounds, addr := some a } ∧
    memWrite m a v = .error { cause := .outOfBounds, addr := some a }) ∧
  (∀ (m : Memory) (a : Int) (v : Int), m.wf = true → 0 ≤ a → a < m.len →
    ∃ m', memWrite m a v = .ok m' ∧ m'.wf = true ∧ m'.len = m.len ∧ memRead m' a = .ok v ∧
      ∀ b, b ≠ a → memRead m' b = memRead m b) ∧
  (∀ (cfg : Config) (e : Engine) (i : Nat) (md : Mode) (t : Int) (v : Int), writeTarget cfg e i md = .ok t →
    ∃ m', memWrite e.mem t v = .ok m')

/-- The canonical form is canonical: memories of one length that read the same everywhere are equal data (the model's
representation, notes/assumptions/7.md). -/
def Obligations.CanonicalMemoriesEqual : Prop :=
  ∀ (m m' : Memory), m.wf = true → m'.wf = true → m.len = m'.len → (∀ a : Int, m.read? a = m'.read? a) → m = m'

/-- What `ReadParam(i)` answers in each mode (spec/20_memory.md, 5): the fault of the operand cell, else the operand itself
(Immediate) or one dereference (Position; Relative with `REL = 1`), at an exact address (D16). -/
def Obligations.SourceParameterByMode : Prop :=
  ∀ (cfg : Config) (e : Engine) (i : Nat),
    (∀ m, e.mem.read? (e.pc + i) = none →
      readParam cfg e i m = .error { cause := .outOfBounds, addr := some (e.pc + i) }) ∧
    (∀ p, e.mem.read? (e.pc + i) = some p →
      readParam cfg e i .immediate = .ok p ∧
      (∀ v, e.mem.read? p = some v → readParam cfg e i .position = .ok v) ∧
      (e.mem.read? p = none → readParam cfg e i .position = .error { cause := .outOfBounds, addr := some p }) ∧
      (cfg.rel = true →
        (∀ v, e.mem.read? (e.rb + p) = some v → readParam cfg e i .relative = .ok v) ∧
        (e.mem.read? (e.rb + p) = none →
          readParam cfg e i .relative = .error { cause := .outOfBounds, addr := some (e.rb + p) })))

/-- What `WriteTarget(i)` answers in each mode (spec/20_memory.md, 5): an address within bounds, or the fault of the operand
cell, of an Immediate digit (D6: `InvalidMode`, or the operand where `WRITE_IMM = AsPosition`), or of the address. -/
def Obligations.DestinationByMode : Prop :=
  ∀ (cfg : Config) (e : Engine) (i : Nat),
    (∀ m, e.mem.read? (e.pc + i) = none →
      writeTarget cfg e i m = .error { cause := .outOfBounds, addr := some (e.pc + i) }) ∧
    (∀ p, e.mem.read? (e.pc + i) = some p →
      (cfg.writeImm = .fault → writeTarget cfg e i .immediate = .error { cause := .invalidMode, addr := none }) ∧
      (∀ m a, (m = .position ∧ a = p) ∨ (m = .immediate ∧ cfg.writeImm = .asPosition ∧ a = p) ∨
          (m = .relative ∧ cfg.rel = true ∧ a = e.rb + p) →
        (0 ≤ a ∧ a < e.mem.len → writeTarget cfg e i m = .ok a) ∧
        (¬(0 ≤ a ∧ a < e.mem.len) → writeTarget cfg e i m = .error { cause := .outOfBounds, addr := some a })))

/-- Which integers are words, and the word stored for an exact result (spec/10_state.md, 1; spec/40_arithmetic.md; D1, D2): the
result itself where it lies in `[-2^(W-1), 2^(W-1)-1]`; else `ArithOverflow`, or with `OVF = Wrap` the one word congruent to it
modulo `2^W`; with `W = ∞` always the result itself. -/
def Obligations.ArithFitsFaultsOrWraps : Prop :=
  ∀ (cfg : Config) (v : Int),
    (cfg.width = .unbounded → fits cfg.width v = true ∧ arith cfg v = .ok v) ∧
    (∀ n, cfg.width = .bits n → 1 ≤ n →
      (fits cfg.width v = true ↔ -(2 ^ (n - 1)) ≤ v ∧ v ≤ 2 ^ (n - 1) - 1) ∧
      (-(2 ^ (n - 1)) ≤ v ∧ v ≤ 2 ^ (n - 1) - 1 → arith cfg v = .ok v) ∧
      (v < -(2 ^ (n - 1)) ∨ 2 ^ (n - 1) - 1 < v →
        (cfg.ovf = .fault → arith cfg v = .error { cause := .arithOverflow, addr := none }) ∧
        (cfg.ovf = .wrap →
          ∃ r, arith cfg v = .ok r ∧ -(2 ^ (n - 1)) ≤ r ∧ r ≤ 2 ^ (n - 1) - 1 ∧ (2 ^ n : Int) ∣ v - r ∧
            ∀ r', -(2 ^ (n - 1)) ≤ r' → r' ≤ 2 ^ (n - 1) - 1 → (2 ^ n : Int) ∣ v - r' → r' = r)))

/-- What a receive and a send answer and change (spec/20_memory.md, 7; D19): a buffered value is delivered after the producer
end is closed; `Closed` is tested before `Full`; only `Value` and `Ok` change the channel. -/
def Obligations.ReceiveAndSendOutcomes : Prop :=
  ∀ (cap : Nat) (c : Channel) (v : Int),
    (c.rclosed = true → c.tryRecv = (.closed, c)) ∧
    (∀ w rest, c.rclosed = false → c.q = w :: rest → c.tryRecv = (.value w, { c with q := rest })) ∧
    (c.rclosed = false → c.q = [] → c.wclosed = true → c.tryRecv = (.closed, c)) ∧
    (c.rclosed = false → c.q = [] → c.wclosed = false → c.tryRecv = (.empty, c)) ∧
    (c.wclosed = true ∨ c.rclosed = true → c.trySend cap v = (.closed, c)) ∧
    (c.wclosed = false → c.rclosed = false → cap ≤ c.q.length → c.trySend cap v = (.full, c)) ∧
    (c.wclosed = false → c.rclosed = false → c.q.length < cap → c.trySend cap v = (.ok, { c with q := c.q ++ [v] }))

/-- Values leave a channel in the order they entered: sending values into an open channel with room for them and then draining
it gives what was buffered followed by the values sent, each once, and leaves it empty (spec/20_memory.md, 6 and 7). -/
def Obligations.ChannelIsFirstInFirstOut : Prop :=
  ∀ (cap : Nat) (c : Channel) (vs : List Int), c.wclosed = false → c.rclosed = false → c.q.length + vs.length ≤ cap →
    (vs.foldl (fun ch v => (Channel.trySend cap ch v).2) c).drain = (c.q ++ vs, { c with q := [] })

/-! ### The instructions -/

/-- R120. -/
def Obligations.AddRule : Prop := StoreRule .add 1 fun cfg va vb => arith cfg (va + vb)

/-- R121. -/
def Obligations.MultiplyRule : Prop := StoreRule .mul 2 fun cfg va vb => arith cfg (va * vb)

/-- R125. -/
def Obligations.LessThanRule : Prop := StoreRule .lt 7 fun _ va vb => .ok (if va < vb then 1 else 0)

/-- R126. -/
def Obligations.EqualsRule : Prop := StoreRule .eq 8 fun _ va vb => .ok (if va = vb then 1 else 0)

/-- JumpIfTrue (spec/42_control.md): the target is resolved whether or not the jump is taken (D12) and not checked (D13). -/
def Obligations.JumpIfTrueRule : Prop := JumpRule .jt 5 fun va => va ≠ 0

/-- JumpIfFalse (spec/42_control.md; D12, D13). -/
def Obligations.JumpIfFalseRule : Prop := JumpRule .jf 6 fun va => va = 0

/-- Halt (spec/42_control.md): only the status changes; `pc` stays (D14). -/
def Obligations.HaltRule : Prop :=
  ∀ (m0 m1 m2 : Mode) (s : State) (e : Engine), CanAttempt s e →
    encode (.hlt m0 m1 m2) = 99 + 100 * m0.digit + 1000 * m1.digit + 10000 * m2.digit ∧
    (Instr.hlt m0 m1 m2).length = 1 ∧
    exec (.hlt m0 m1 m2) s = .next (s.setEngine { e with status := .halted })

/-- Input (spec/43_io.md): the destination is resolved before the channel is touched (D17); then the oldest value is stored,
or the engine blocks with nothing but its status changed, or `InputClosed` is raised. -/
def Obligations.InputRule : Prop :=
  ∀ (m0 m1 m2 : Mode) (s : State) (e : Engine), CanAttempt s e → e.mem.wf = true →
    (encode (.inp m0 m1 m2) = 3 + 100 * m0.digit + 1000 * m1.digit + 10000 * m2.digit ∧ (Instr.inp m0 m1 m2).length = 2) ∧
    (∀ t, writeTarget s.cfg e 1 m0 = .error t → exec (.inp m0 m1 m2) s = .next (s.setEngine (faulted e t))) ∧
    (∀ a c, writeTarget s.cfg e 1 m0 = .ok a → s.channel? e.inCh = some c →
      (∀ v rest, c.rclosed = false → c.q = v :: rest →
        ∃ mem', exec (.inp m0 m1 m2) s =
            .next ((s.setChannel e.inCh { c with q := rest }).setEngine
              { e with mem := mem', pc := e.pc + 2, status := .ready }) ∧
          mem'.len = e.mem.len ∧ ∀ b, mem'.read? b = if b = a then some v else e.mem.read? b) ∧
      (c.rclosed = false → c.q = [] → c.wclosed = false →
        exec (.inp m0 m1 m2) s = .next (s.setEngine { e with status := .blockedIn })) ∧
      (c.rclosed = true ∨ c.q = [] ∧ c.wclosed = true →
        exec (.inp m0 m1 m2) s = .next (s.setEngine (faulted e { cause := .inputClosed, addr := none }))))

/-- R136: the value of the parameter is read before the channel is touched; `Closed` is tested before `Full`. -/
def Obligations.OutputRule : Prop :=
  ∀ (m0 m1 m2 : Mode) (s : State) (e : Engine), CanAttempt s e →
    (encode (.out m0 m1 m2) = 4 + 100 * m0.digit + 1000 * m1.digit + 10000 * m2.digit ∧ (Instr.out m0 m1 m2).length = 2) ∧
    (∀ t, readParam s.cfg e 1 m0 = .error t → exec (.out m0 m1 m2) s = .next (s.setEngine (faulted e t))) ∧
    (∀ v c, readParam s.cfg e 1 m0 = .ok v → s.channel? e.outCh = some c →
      (c.wclosed = false → c.rclosed = false → c.q.length < s.cfg.cap →
        exec (.out m0 m1 m2) s =
          .next ((s.setChannel e.outCh { c with q := c.q ++ [v] }).setEngine { e with pc := e.pc + 2, status := .ready })) ∧
      (c.wclosed = false → c.rclosed = false → s.cfg.cap ≤ c.q.length →
        exec (.out m0 m1 m2) s = .next (s.setEngine { e with status := .blockedOut })) ∧
      (c.wclosed = true ∨ c.rclosed = true →
        exec (.out m0 m1 m2) s = .next (s.setEngine (faulted e { cause := .outputClosed, addr := none }))))

/-- AdjustRelativeBase (spec/44_relative.md; D5: none of it is in the source): with `REL = 1` the value is added to `rb`; with
`REL = 0` the opcode is invalid. -/
def Obligations.AdjustRelativeBaseRule : Prop :=
  ∀ (m0 m1 m2 : Mode) (s : State) (e : Engine), CanAttempt s e →
    (encode (.arb m0 m1 m2) = 9 + 100 * m0.digit + 1000 * m1.digit + 10000 * m2.digit ∧ (Instr.arb m0 m1 m2).length = 2) ∧
    (s.cfg.rel = false →
      exec (.arb m0 m1 m2) s = .next (s.setEngine (faulted e { cause := .invalidOpcode, addr := none }))) ∧
    (s.cfg.rel = true →
      (∀ t, readParam s.cfg e 1 m0 = .error t → exec (.arb m0 m1 m2) s = .next (s.setEngine (faulted e t))) ∧
      (∀ va t, readParam s.cfg e 1 m0 = .ok va → arith s.cfg (e.rb + va) = .error t →
        exec (.arb m0 m1 m2) s = .next (s.setEngine (faulted e t))) ∧
      (∀ va r, readParam s.cfg e 1 m0 = .ok va → arith s.cfg (e.rb + va) = .ok r →
        exec (.arb m0 m1 m2) s = .next (s.setEngine { e with rb := r, pc := e.pc + 2, status := .ready })))

/-! ### Frames -/

/-- Add, Multiply, LessThan and Equals change nothing outside the engine that runs; of it, they leave `rb` and the endpoints,
and every cell but the one `WriteTarget(3)` gives; a fault leaves all of memory and `pc`, and nothing but a fault writes the
record. -/
def Obligations.StoringInstructionsFrame : Prop :=
  ∀ (mk : Mode → Mode → Mode → Instr) (m0 m1 m2 : Mode) (s s' : State) (e : Engine), mk ∈ [.add, .mul, .lt, .eq] →
    s.engine? = some e → e.mem.wf = true → exec (mk m0 m1 m2) s = .next s' →
    ∃ e', s' = s.setEngine e' ∧ e'.rb = e.rb ∧ e'.inCh = e.inCh ∧ e'.outCh = e.outCh ∧ e'.mem.len = e.mem.len ∧
      (e'.status ≠ .faulted → e'.fr = e.fr) ∧
      (e'.status = .faulted → e'.mem = e.mem ∧ e'.pc = e.pc) ∧
      (∀ a, writeTarget s.cfg e 3 m2 = .ok a → ∀ b, b ≠ a → e'.mem.read? b = e.mem.read? b) ∧
      ((∀ a, writeTarget s.cfg e 3 m2 ≠ .ok a) → e'.mem = e.mem)

/-- Output, the jumps, AdjustRelativeBase and Halt leave all of memory and the endpoints; only AdjustRelativeBase writes `rb`;
only Output changes a channel, and only its own output channel; nothing but a fault writes the record. -/
def Obligations.NonStoringInstructionsFrame : Prop :=
  ∀ (mk : Mode → Mode → Mode → Instr) (m0 m1 m2 : Mode) (s s' : State) (e : Engine),
    mk ∈ [.out, .jt, .jf, .arb, .hlt] → s.engine? = some e → exec (mk m0 m1 m2) s = .next s' →
    ∃ e' chs, s' = { s.setEngine e' with channels := chs } ∧ e'.mem = e.mem ∧ e'.inCh = e.inCh ∧ e'.outCh = e.outCh ∧
      (e'.rb = e.rb ∨ mk = .arb) ∧
      (e'.status ≠ .faulted → e'.fr = e.fr) ∧
      (e'.status = .faulted → e'.pc = e.pc ∧ e'.rb = e.rb ∧ chs = s.channels) ∧
      (mk ≠ .out → chs = s.channels) ∧
      (∀ c, c ≠ e.outCh → chs[c]? = s.channels[c]?)

/-- Input leaves `rb` and the endpoints, every cell but the one `WriteTarget(1)` gives, and every channel but its own input
channel; where it does not complete, it leaves memory, `pc` and all channels. -/
def Obligations.InputFrame : Prop :=
  ∀ (m0 m1 m2 : Mode) (s s' : State) (e : Engine), s.engine? = some e → e.mem.wf = true →
    exec (.inp m0 m1 m2) s = .next s' →
    ∃ e' chs, s' = { s.setEngine e' with channels := chs } ∧ e'.rb = e.rb ∧ e'.inCh = e.inCh ∧ e'.outCh = e.outCh ∧
      e'.mem.len = e.mem.len ∧
      (e'.status ≠ .faulted → e'.fr = e.fr) ∧
      (e'.status ≠ .ready → e'.mem = e.mem ∧ e'.pc = e.pc ∧ chs = s.channels) ∧
      (∀ a, writeTarget s.cfg e 1 m0 = .ok a → ∀ b, b ≠ a → e'.mem.read? b = e.mem.read? b) ∧
      (∀ c, c ≠ e.inCh → chs[c]? = s.channels[c]?)

/-! ### The step of an engine -/

/-- A step of a run executes the instruction that the word at `pc` decodes to, and the run goes on exactly while the status is
`Ready`; where the fetch or the decoding faults, that fault is raised and the run returns. -/
def Obligations.StepRunsDecodedInstruction : Prop :=
  ∀ (s : State) (e : Engine), s.running = true → CanAttempt s e →
    (∀ iw i, e.mem.read? e.pc = some iw → decode s.cfg.rel iw = .ok i → step s = mapNext State.afterAttempt (exec i s)) ∧
    (∀ iw, e.mem.read? e.pc = some iw → decode s.cfg.rel iw = .error .invalidOpcode →
      step s = .next (s.setEngine (faulted e { cause := .invalidOpcode, addr := none })).endRun) ∧
    (∀ iw, e.mem.read? e.pc = some iw → decode s.cfg.rel iw = .error .invalidMode →
      step s = .next (s.setEngine (faulted e { cause := .invalidMode, addr := none })).endRun) ∧
    (e.mem.read? e.pc = none →
      step s = .next (s.setEngine (faulted e { cause := .outOfBounds, addr := some e.pc })).endRun)

/-- A word given in the numbering of the opcode table and loaded where the next step fetches is the instruction that the next
step runs (the model's loading interface, notes/assumptions/9.md). -/
def Obligations.LoadedWordRunsNext : Prop :=
  ∀ (s : State) (e : Engine) (nbits w : Nat) (i : Instr), s.engine? = some e → e.mem.wf = true →
    decode (s.withFetchWord nbits w).cfg.rel (tableWord s.cfg.width nbits w 0) = .ok i →
    step (s.withFetchWord nbits w) = mapNext State.afterAttempt (exec i (s.withFetchWord nbits w))

/-- An attempt has exactly one of four outcomes (spec/45_run_loop.md, 1): completed, with `pc` past the instruction or, for a
jump, at its target; blocked, only the status changed; halted,
only the status changed; faulted, only the status and the record changed. -/
def Obligations.AttemptHasFourOutcomes : Prop :=
  ∀ (s s' : State) (e : Engine), CanAttempt s e → attempt s = .next s' →
    ∃ e', s'.engine? = some e' ∧
      ((e'.status = .ready ∧ e'.fr = e.fr ∧ (∀ j, j ≠ s.cur → s'.engines[j]? = s.engines[j]?) ∧
          ∃ i, fetchDecode s.cfg e = .ok i ∧
            (e'.pc = e.pc + i.length ∨ ∃ m0 m1 m2, (i = .jt m0 m1 m2 ∨ i = .jf m0 m1 m2) ∧
              readParam s.cfg e 2 m1 = .ok e'.pc)) ∨
        ((e'.status = .blockedIn ∨ e'.status = .blockedOut ∨ e'.status = .halted) ∧
          s' = s.setEngine { e with status := e'.status }) ∨
        (∃ t, s' = s.setEngine (faulted e t)))

/-- R156: a step that blocks changes the status and nothing else. It blocks on input only in an Input whose open channel is
empty, and on output only in an Output whose open channel is full. -/
def Obligations.BlockingChangesOnlyStatus : Prop :=
  ∀ (s s' : State) (e e' : Engine), CanAttempt s e → attempt s = .next s' → s'.engine? = some e' →
    (e'.status = .blockedIn → s' = s.setEngine { e with status := .blockedIn } ∧
      ∃ m0 m1 m2 c, fetchDecode s.cfg e = .ok (.inp m0 m1 m2) ∧ s.channel? e.inCh = some c ∧ c.q = [] ∧
        c.wclosed = false ∧ c.rclosed = false) ∧
    (e'.status = .blockedOut → s' = s.setEngine { e with status := .blockedOut } ∧
      ∃ m0 m1 m2 c, fetchDecode s.cfg e = .ok (.out m0 m1 m2) ∧ s.channel? e.outCh = some c ∧ s.cfg.cap ≤ c.q.length ∧
        c.wclosed = false ∧ c.rclosed = false)

/-- R134: only Input and Output touch a channel, can block, and can raise `InputClosed` and `OutputClosed`, each its own; an
instruction that blocks changes nothing but the status. -/
def Obligations.OnlyInputOutputTouchChannels : Prop :=
  ∀ (i : Instr) (s s' : State) (e e' : Engine), CanAttempt s e → e.fr = FaultRecord.empty → exec i s = .next s' →
    s'.engine? = some e' →
    ((∀ m0 m1 m2, i ≠ .inp m0 m1 m2) → e'.status ≠ .blockedIn ∧ e'.fr.cause ≠ some .inputClosed) ∧
    ((∀ m0 m1 m2, i ≠ .out m0 m1 m2) → e'.status ≠ .blockedOut ∧ e'.fr.cause ≠ some .outputClosed) ∧
    ((∀ m0 m1 m2, i ≠ .inp m0 m1 m2 ∧ i ≠ .out m0 m1 m2) → s'.channels = s.channels) ∧
    (e'.status = .blockedIn ∨ e'.status = .blockedOut → s' = s.setEngine { e with status := e'.status })

/-- Blocking and resuming (spec/43_io.md, "The blocking contract"): after an attempt that blocked on input, once a value is
there and the consumer end is open, the next attempt completes that same Input: it takes exactly that value and stores it in the
one cell that `WriteTarget(1)` of the Input gives; after one that blocked on output, once there is room and both ends are open,
the next attempt completes that same Output and appends exactly the value that `ReadParam(1)` of the Output gives. -/
def Obligations.BlockedInstructionCompletesWhenSatisfied : Prop :=
  ∀ (s t : State) (e f : Engine), CanAttempt s e → e.mem.wf = true → attempt s = .next t → t.engine? = some f →
    (f.status = .blockedIn → ∀ c v rest, c.q = v :: rest → c.rclosed = false →
      ∃ m0 m1 m2 a mem', fetchDecode s.cfg e = .ok (.inp m0 m1 m2) ∧ writeTarget s.cfg e 1 m0 = .ok a ∧
        mem'.len = e.mem.len ∧ (∀ b, mem'.read? b = if b = a then some v else e.mem.read? b) ∧
        attempt (t.setChannel e.inCh c) =
          .next (((t.setChannel e.inCh c).setChannel e.inCh { c with q := rest }).setEngine
            { e with mem := mem', pc := e.pc + 2, status := .ready })) ∧
    (f.status = .blockedOut → ∀ c, c.q.length < s.cfg.cap → c.wclosed = false → c.rclosed = false →
      ∃ m0 m1 m2 v, fetchDecode s.cfg e = .ok (.out m0 m1 m2) ∧ readParam s.cfg e 1 m0 = .ok v ∧
        attempt (t.setChannel e.outCh c) =
          .next (((t.setChannel e.outCh c).setChannel e.outCh { c with q := c.q ++ [v] }).setEngine
            { e with pc := e.pc + 2, status := .ready }))

/-- A fault is precise (spec/60_exceptions.md, 3; D14, D23): an attempt that ends with status `Faulted` has written the record
with the `pc` and the raw word of this instruction and its cause, with an address exactly for `OutOfBounds`, and has changed
nothing else anywhere. -/
def Obligations.FaultsArePrecise : Prop :=
  ∀ (s s' : State) (e e' : Engine), CanAttempt s e → attempt s = .next s' → s'.engine? = some e' → e'.status = .faulted →
    ∃ t : Trap, s' = s.setEngine (faulted e t) ∧ (t.addr ≠ none ↔ t.cause = .outOfBounds) ∧
      (∀ a, t.addr = some a → ¬(0 ≤ a ∧ a < e.mem.len)) ∧ (e.mem.read? e.pc = none → t.addr = some e.pc)

/-- R161: an attempt of an engine writes only that engine, the head of its input channel's queue and the tail of its output
channel's queue, and what it does depends only on the parameters, that engine and those two channels. -/
def Obligations.EngineStepIsIsolated : Prop :=
  (∀ (s s' : State) (e : Engine), s.engine? = some e → attempt s = .next s' →
    ∃ e' chs, s' = { s.setEngine e' with channels := chs } ∧ e'.inCh = e.inCh ∧ e'.outCh = e.outCh ∧
      ∀ (c : Nat) (ch : Channel), s.channels[c]? = some ch → ∃ ch', chs[c]? = some ch' ∧
        ch'.wclosed = ch.wclosed ∧ ch'.rclosed = ch.rclosed ∧
        (ch'.q = ch.q ∨ (c = e.inCh ∧ ∃ v, ch.q = v :: ch'.q) ∨ (c = e.outCh ∧ ∃ v, ch'.q = ch.q ++ [v]))) ∧
  (∀ (s t : State) (e : Engine), s.engine? = some e → t.engine? = some e → s.cfg = t.cfg →
    s.channel? e.inCh = t.channel? e.inCh → s.channel? e.outCh = t.channel? e.outCh →
    (∀ s', attempt s = .next s' → ∃ t', attempt t = .next t' ∧ s'.engine? = t'.engine? ∧
      s'.channel? e.inCh = t'.channel? e.inCh ∧ s'.channel? e.outCh = t'.channel? e.outCh) ∧
    (∀ r, attempt s = .fault r → attempt t = .fault r) ∧
    (∀ r, attempt s = .refused r → attempt t = .refused r))

/-- An engine's completed instructions do not depend on when its input arrives (spec/45_run_loop.md, 3, Determinism): a run of
completed attempts goes the same way with more values waiting behind those it received. -/
def Obligations.LaterInputChangesNothingDone : Prop :=
  ∀ (n : Nat) (s t : State) (e : Engine) (vs : List Int), s.engine? = some e → e.inCh ≠ e.outCh →
    completedRun n s = some t → completedRun n (withMore s e.inCh vs) = some (withMore t e.inCh vs)

/-- What a halted engine reports is `mem[0]`, which exists because the Halt was fetched from memory; halting changed no cell
(spec/45_run_loop.md, 2). -/
def Obligations.HaltedEngineHasResult : Prop :=
  ∀ (s s' : State) (e e' : Engine), CanAttempt s e → attempt s = .next s' → s'.engine? = some e' → e'.status = .halted →
    e'.mem = e.mem ∧ ∃ v, e.mem.read? 0 = some v ∧ e'.report = some (.ok v)

/-! ### The run operation -/

/-- R153: what `run` reports when it returns to the external driver; it returns exactly when an attempt leaves a status other
than `Ready`. The register the report stands in is the model's (notes/assumptions/5.md). -/
def Obligations.RunReportsByStatus : Prop :=
  ∀ (s t : State) (e f : Engine), s.running = true → s.phase ≠ .await → CanAttempt s e → attempt s = .next t →
    t.engine? = some f →
    (f.status = .ready → step s = .next t ∧ t.running = true) ∧
    (∀ v, f.status = .halted → f.mem.read? 0 = some v →
      step s = .next { t with running := false, reply := some (.report (.ok v)) }) ∧
    (f.status = .blockedIn ∨ f.status = .blockedOut →
      step s = .next { t with running := false, reply := some (.report .wouldBlock) }) ∧
    (f.status = .faulted → step s = .next { t with running := false, reply := some (.report (.err f.fr)) })

/-- `run` on an engine that has halted or faulted performs no step, changes no engine and no channel, and reports again what it
reported (spec/45_run_loop.md, 2; D21). -/
def Obligations.RunOnEndedEngineReportsAgain : Prop :=
  ∀ (s : State) (e : Engine), s.running = true → s.phase ≠ .await → s.engine? = some e →
    (∀ v, e.status = .halted → e.mem.read? 0 = some v →
      step s = .next { s with running := false, reply := some (.report (.ok v)) }) ∧
    (e.status = .faulted → step s = .next { s with running := false, reply := some (.report (.err e.fr)) })

/-- R206: no step changes an engine that has halted or faulted, its record among the rest, but a reset of it, which discards the
record. -/
def Obligations.EndedEnginesAreFinal : Prop :=
  ∀ (s s' : State) (i : Nat) (e : Engine), step s = .next s' → s.engines[i]? = some e →
    e.status = .halted ∨ e.status = .faulted →
    s'.engines[i]? = some e ∨
    (nextHostOp s (resets i) ∧ ∀ e', s'.engines[i]? = some e' → e'.status = .ready ∧ e'.fr = FaultRecord.empty)

/-- Executing on an engine that has halted or faulted is no step of the machine (spec/45_run_loop.md R150 "It is permitted only
when"): every instruction's meaning stops there, by the model's choice of a stop (notes/assumptions/8.md). -/
def Obligations.NoInstructionOnEndedEngine : Prop :=
  ∀ (i : Instr) (s : State) (e : Engine), s.engine? = some e → e.status = .halted ∨ e.status = .faulted →
    exec i s = .fault .stepNotPermitted

/-! ### The whole machine -/

/-- R57: no step changes the length of an engine's memory, but a reset of it; it is never extended, with `REL = 1` neither. -/
def Obligations.MemoryIsNeverExtended : Prop :=
  ∀ (s s' : State) (i : Nat) (e : Engine), step s = .next s' → s.engines[i]? = some e →
    (∃ e', s'.engines[i]? = some e' ∧ e'.mem.len = e.mem.len) ∨ nextHostOp s (resets i)

/-- Only the host closes an endpoint, and no endpoint is ever opened again (spec/20_memory.md, 7; D20): a channel's two closed
flags are changed by no step but a `Close` of that channel and the construction of a new network. -/
def Obligations.OnlyTheHostClosesEndpoints : Prop :=
  ∀ (s s' : State) (c : Nat) (ch : Channel), step s = .next s' → s.channels[c]? = some ch →
    (∃ ch', s'.channels[c]? = some ch' ∧ ch'.wclosed = ch.wclosed ∧ ch'.rclosed = ch.rclosed) ∨
    nextHostOp s (fun op => ∃ n, op = .launch n) ∨
    (nextHostOp s (fun op => op = .close c .producer) ∧ s'.channels[c]? = some { ch with wclosed := true }) ∨
    (nextHostOp s (fun op => op = .close c .consumer) ∧ s'.channels[c]? = some { ch with rclosed := true })

/-- No step changes a parameter (spec/10_state.md, 8). -/
def Obligations.ParametersNeverChange : Prop := ∀ s s' : State, step s = .next s' → s'.cfg = s.cfg

/-- The state after reset meets the invariant. -/
def Obligations.ResetMeetsInvariant : Prop := State.reset.Inv

/-- Every step keeps the invariant, from every state that meets it, whatever the external driver asks: memories canonical and
within their bound, every register, cell and channel item a word, channels bounded by `CAP`, every endpoint attached as the
topology says, fault records written by faults alone, and the composer's registers in step with its engines. The canonical form,
the range as an invariant and the composer's phases are the model's (notes/assumptions/1.md, 7.md, 12.md). -/
def Obligations.StepKeepsInvariant : Prop := ∀ s s' : State, s.Inv → step s = .next s' → s'.Inv

/-- From every state that meets the invariant the machine steps on, unless the next thing it does is an operation of the external
driver that is not allowed, which is refused. When an operation is allowed (`Allowed`), and that it is refused otherwise, is the
model's reading of the spec (notes/assumptions/11.md). -/
def Obligations.InvariantStatesStepOn : Prop :=
  ∀ s : State, s.Inv →
    (¬nextHostOp s (fun op => ¬Allowed s op) → ∃ s', step s = .next s') ∧
    (nextHostOp s (fun op => ¬Allowed s op) → ∃ r, step s = .refused r)

/-! ### Reset and construction -/

/-- The values after reset (spec/10_state.md, 9; D15, D19, D23): every register of the engine, the channels and the network at
creation. That there is one engine with the empty image, driven from outside, is the model's choice (notes/assumptions/3.md);
constructing that network gives the same state. -/
def Obligations.ResetValues : Prop :=
  (∃ e, State.reset.engines = [e] ∧ e.pc = 0 ∧ e.status = .ready ∧
    e.fr = { cause := none, pc := none, iw := none, addr := none } ∧ e.rb = 0 ∧ e.mem.len = 0 ∧ e.mem.cells = []) ∧
  State.reset.channels = [{ q := [], wclosed := false, rclosed := false }, { q := [], wclosed := false, rclosed := false }] ∧
  State.reset.halted = [false] ∧ State.reset.cur = 0 ∧ State.reset.result = none ∧ State.reset.netFault = none ∧
  { State.reset.launched { topo := .chain, driver := .external, images := [[]], phases := [] } with reply := none } =
    State.reset

/-- `load(image)`, wherever no composer's preload or loop is at work, gives every register of the engine its reset value and
memory the image cell by cell, keeps its endpoints, and touches no channel and no other engine (spec/70_reset_and_hazards.md, 1;
D15). That the external driver may load an engine again, after a composer has ended too, and that the engine then keeps the
endpoints it has, is the model's choice (notes/assumptions/11.md): the spec describes construction only. -/
def Obligations.LoadResetsOneEngine : Prop :=
  ∀ (s : State) (i : Nat) (image : List Int) (e : Engine) (rest : List HostOp), s.running = false →
    s.hostOps = .load i image :: rest → LoopOver s → s.engines[i]? = some e → imageOk s.cfg image = true →
    ∃ e', step s =
        .next { s with hostOps := rest, engines := s.engines.set i e', reply := some .done } ∧
      e'.pc = 0 ∧ e'.status = .ready ∧ e'.fr = FaultRecord.empty ∧ e'.rb = 0 ∧ e'.inCh = e.inCh ∧ e'.outCh = e.outCh ∧
      e'.mem.wf = true ∧ e'.mem.len = image.length ∧ ∀ a : Nat, e'.mem.read? a = image[a]?

/-- R171, R176: the channels of a new network, their number, which engine or the host holds each end, and which channel is the
terminal one. -/
def Obligations.NewNetworkIsWired : Prop :=
  ∀ (s : State) (net : Net) (n : Nat), n = net.images.length → 1 ≤ n →
    (s.launched net).engines.length = n ∧
    (net.topo = .chain →
      (s.launched net).channels.length = n + 1 ∧
      (∀ i e, (s.launched net).engines[i]? = some e → e.inCh = i ∧ e.outCh = i + 1) ∧
      (∀ c, c ≤ n → ((s.launched net).hostProduces c = true ↔ c = 0)) ∧
      (∀ c, c ≤ n → ((s.launched net).hostConsumes c = true ↔ c = n)) ∧ terminalIndex net.topo n = n) ∧
    (net.topo = .ring →
      (s.launched net).channels.length = n ∧
      (∀ i e, (s.launched net).engines[i]? = some e → e.inCh = i ∧ e.outCh = (i + 1) % n) ∧
      (∀ c, c < n → (s.launched net).hostProduces c = false ∧ (s.launched net).hostConsumes c = false) ∧
      terminalIndex net.topo n = 0)

/-! ### The composer -/

/-- R177, and the preload of a chain: after the preload, and before any engine has run, the input channel of engine 0 holds its
phase and then the seed, that of every other engine its phase, and the last channel of a chain nothing (`CAP ≥ 2`). The number
of steps is the model's (notes/assumptions/12.md). -/
def Obligations.PreloadFillsInputChannels : Prop :=
  ∀ (s : State) (net : Net), launchOk s.cfg net = true → net.driver ≠ .external → s.hostOps = [] → 2 ≤ s.cfg.cap →
    ∃ t, steps (net.images.length + 1) (s.launched net) = some t ∧
      t.engines = (s.launched net).engines ∧ t.running = false ∧ t.cur = 0 ∧ t.netFault = none ∧
      (t.phase = if net.driver = .cooperative then .visit else .threads) ∧
      (∀ (i : Nat) (v : Int), net.phases[i]? = some v →
        t.channels[i]? = some { q := if i = 0 then [v, s.cfg.seed] else [v], wclosed := false, rclosed := false }) ∧
      (net.topo = .chain → t.channels[net.images.length]? = some Channel.fresh)

/-- With `CAP = 1` the seed finds the first input channel full: the composer stops with `PreloadRefused` and no engine has run
(spec/46_network.md, 1; D28). The number of steps is the model's (notes/assumptions/12.md). -/
def Obligations.PreloadRefusedWithoutRoom : Prop :=
  ∀ (s : State) (net : Net), launchOk s.cfg net = true → net.driver ≠ .external → s.hostOps = [] → s.cfg.cap = 1 →
    ∃ t, steps (net.images.length + 1) (s.launched net) = some t ∧
      t.engines = (s.launched net).engines ∧ t.running = false ∧ t.phase = .failed ∧
      t.netFault = some (.preloadRefused 0)

/-- R173: the chain's composer runs engine `cur`, goes on to the next when it has halted, stops with `ChainWouldBlock` or the
engine's fault otherwise, and extracts the result after the last. How this is cut into steps is the model's
(notes/assumptions/12.md). -/
def Obligations.ChainComposerRule : Prop :=
  ∀ s : State, ComposerActs s → s.topo = .chain →
    (s.phase = .visit → s.halted[s.cur]? = some false → step s = .next { s with running := true, phase := .await }) ∧
    (s.phase = .visit → s.cur = s.halted.length → step s = .next { s with phase := .extract }) ∧
    (∀ e, s.phase = .await → s.engine? = some e →
      (e.status = .halted →
        step s = .next { s with halted := s.halted.set s.cur true, cur := s.cur + 1, phase := .visit }) ∧
      (e.status = .blockedIn ∨ e.status = .blockedOut →
        step s = .next { s with phase := .failed, netFault := some (.chainWouldBlock s.cur e.status) }) ∧
      (e.status = .faulted → step s = .next { s with phase := .failed, netFault := some (.engineFault s.cur e.fr) }))

/-- R178, R179, R182: the ring's composer visits the engines in order, skips those that have halted, runs the others, moves on
from one that reports WouldBlock, and at the end of a pass goes round again unless every engine has halted. How this is cut into
steps is the model's (notes/assumptions/12.md). -/
def Obligations.RingComposerRule : Prop :=
  ∀ s : State, ComposerActs s → s.topo = .ring →
    (s.phase = .visit → s.halted[s.cur]? = some true → step s = .next { s with cur := s.cur + 1 }) ∧
    (s.phase = .visit → s.halted[s.cur]? = some false → step s = .next { s with running := true, phase := .await }) ∧
    (s.phase = .visit → s.cur = s.halted.length →
      ((∀ h ∈ s.halted, h = true) → step s = .next { s with phase := .extract }) ∧
      ((∃ h ∈ s.halted, h = false) → step s = .next { s with cur := 0 })) ∧
    (∀ e, s.phase = .await → s.engine? = some e →
      (e.status = .halted →
        step s = .next { s with halted := s.halted.set s.cur true, cur := s.cur + 1, phase := .visit }) ∧
      (e.status = .blockedIn ∨ e.status = .blockedOut → step s = .next { s with cur := s.cur + 1, phase := .visit }) ∧
      (e.status = .faulted → step s = .next { s with phase := .failed, netFault := some (.engineFault s.cur e.fr) }))

/-- R183: an engine's fault ends the network in every topology and under every composer, with its record, and all engine and
channel state stays as it was: the fault of the engine whose report a cooperative composer awaits, and, where the engines run
concurrently, that of the faulted engine of lowest index, whichever engine ran last. Where the engines run concurrently and none
has faulted, the composer marks all as halted and goes on to the extraction when every engine has halted, and until then does
nothing. A composer that has ended does nothing more. The concurrent composer, which fault it reports and when it sets `halted[i]`
are the model's (notes/assumptions/6.md), and so is that a composer with nothing to do leaves the state as it is
(notes/assumptions/10.md). -/
def Obligations.EngineFaultEndsNetwork : Prop :=
  ∀ s : State, ComposerActs s →
    (∀ e, s.phase = .await → s.engine? = some e → e.status = .faulted →
      step s = .next { s with phase := .failed, netFault := some (.engineFault s.cur e.fr) }) ∧
    (∀ (i : Nat) (e : Engine), s.phase = .threads → s.engines[i]? = some e → e.status = .faulted →
      (∀ (j : Nat) (f : Engine), j < i → s.engines[j]? = some f → f.status ≠ .faulted) →
      step s = .next { s with phase := .failed, netFault := some (.engineFault i e.fr) }) ∧
    (s.phase = .threads → (∀ e ∈ s.engines, e.status = .halted) →
      step s = .next { s with phase := .extract, halted := List.replicate s.engines.length true }) ∧
    (s.phase = .threads → (∀ e ∈ s.engines, e.status ≠ .faulted) → (∃ e ∈ s.engines, e.status ≠ .halted) →
      step s = .next s) ∧
    (s.phase = .failed ∨ s.phase = .done → step s = .next s)

/-- The network's result is the last value drained from the terminal channel, the last channel of a chain and `ch[0]` of a
ring, and there is no other; where none is there, the composer stops with `NoResult` (spec/46_network.md, 2 and 3; D25). -/
def Obligations.ResultIsLastDrainedValue : Prop :=
  ∀ (s : State) (c : Nat) (ch : Channel), ComposerActs s → s.phase = .extract →
    (c = if s.topo = .chain then s.engines.length else 0) → s.channels[c]? = some ch → ch.rclosed = false →
    (∀ vs v, ch.q = vs ++ [v] →
      step s = .next { s with channels := s.channels.set c { ch with q := [] }, result := some v, phase := .done }) ∧
    (ch.q = [] → step s = .next { s with phase := .failed, netFault := some .noResult })

/-- While a composer's preload or loop is at work, the external driver's moves are closing an endpoint (R72, R184) and giving the
network up for a new one (R231, R234), and, where the engines run concurrently, invoking them; its other acts answer no next
state. That these are the external driver's moves is the model's reading (notes/assumptions/11.md; the concurrent schedule
notes/assumptions/6.md): R188 speaks of the composer. The composer, for its part, never writes an engine, and between the
preload and the end of its loop touches no channel (spec/46_network.md, 4). -/
def Obligations.OnlyTheComposerDrivesANetwork : Prop :=
  (∀ (s : State) (op : HostOp) (rest : List HostOp), s.running = false → s.hostOps = op :: rest → ComposerAtWork s →
    (∀ c v, op = .push c v → ∀ s', step s ≠ .next s') ∧ (∀ c, op = .pop c → ∀ s', step s ≠ .next s') ∧
    (∀ c, op = .drain c → ∀ s', step s ≠ .next s') ∧ (∀ i im, op = .load i im → ∀ s', step s ≠ .next s') ∧
    (∀ i, op = .run i ∨ op = .attempt i → s.phase ≠ .threads → ∀ s', step s ≠ .next s') ∧
    (∀ n, op = .launch n → launchOk s.cfg n = true → step s = .next (State.launched { s with hostOps := rest } n)) ∧
    (∀ c ch, op = .close c .producer → s.channels[c]? = some ch →
      step s = .next { s with
        hostOps := rest, channels := s.channels.set c { ch with wclosed := true }, reply := some .done }) ∧
    (∀ c ch, op = .close c .consumer → s.channels[c]? = some ch →
      step s = .next { s with
        hostOps := rest, channels := s.channels.set c { ch with rclosed := true }, reply := some .done })) ∧
  (∀ s s' : State, composerStep s = .next s' →
    s'.engines = s.engines ∧
    (s.phase = .visit ∨ s.phase = .await ∨ s.phase = .threads → s'.channels = s.channels))

/-- The host pushes only into a channel whose producer it is, but for the preload before it has invoked an engine, and takes values
only from one whose consumer it is (spec/10_state.md, 6; spec/20_memory.md, 7; spec/46_network.md, 1): a move at any other end is
refused, by the model's choice (notes/assumptions/11.md). -/
def Obligations.HostUsesOnlyItsOwnEnds : Prop :=
  ∀ (s : State) (c : Nat) (ch : Channel) (e : Engine) (rest : List HostOp), s.running = false → s.channels[c]? = some ch →
    e ∈ s.engines →
    (∀ v, s.hostOps = .push c v :: rest → e.outCh = c →
      (s.phase = .idle → s.hostStarted = true ∨ ∀ f ∈ s.engines, f.inCh ≠ c) → step s = .refused .hostOpNotAllowed) ∧
    (s.hostOps = .pop c :: rest → e.inCh = c → e.status ≠ .halted → step s = .refused .hostOpNotAllowed) ∧
    (s.hostOps = .drain c :: rest → e.inCh = c → e.status ≠ .halted → step s = .refused .hostOpNotAllowed)

/-- A ring none of whose engines can go on hangs (spec/46_network.md, 4; D26): where every engine not yet halted is blocked and
its next attempt blocks again, and there is such an engine, a whole pass brings the network back to the state it was in. That a
pass begins in the phase `visit` at engine 0 is the model's cut of the procedure (notes/assumptions/12.md). -/
def Obligations.RingWithoutProgressHangs : Prop :=
  ∀ s : State, ComposerActs s → s.topo = .ring → s.phase = .visit → s.cur = 0 → s.halted.length = s.engines.length →
    (∃ i : Nat, s.halted[i]? = some false) →
    (∀ i : Nat, s.halted[i]? = some false → ∃ e, s.engines[i]? = some e ∧
      (e.status = .blockedIn ∨ e.status = .blockedOut) ∧ attempt { s with cur := i } = .next { s with cur := i }) →
    ∃ k, 0 < k ∧ steps k s = some s

/-- Every allowed operation of the external driver takes effect (spec/00_scope.md, 6; spec/20_memory.md, 7; spec/45_run_loop.md, 2;
spec/70_reset_and_hazards.md, 2): constructing a network gives new empty open channels and the engines loaded from their images,
none of them run; `run` is in progress from the next step on; a single attempt is that engine's attempt, or no step where it has
ended; `Push`, `Pop`, `Drain` and `Close` do what R70 to R72 say; `yield` lets the composer take its action. `load` is in
LoadResetsOneEngine. When an operation is allowed, and what remembers that the driver has invoked an engine, is the model's
(notes/assumptions/11.md), and so is the list of pending operations with `yield` (notes/assumptions/4.md). -/
def Obligations.AllowedHostActsTakeEffect : Prop :=
  ∀ (s : State) (op : HostOp) (rest : List HostOp), s.running = false → s.hostOps = op :: rest → Allowed s op →
    (∀ net, op = .launch net → ∃ t, step s = .next t ∧ t.cfg = s.cfg ∧ t.topo = net.topo ∧ t.driver = net.driver ∧
      t.phases = net.phases ∧ t.hostOps = rest ∧ t.running = false ∧ t.cur = 0 ∧ t.hostStarted = false ∧ t.result = none ∧
      t.netFault = none ∧ t.reply = some .done ∧ t.phase = (if net.driver = .external then .idle else .preload 0) ∧
      (∀ h ∈ t.halted, h = false) ∧ t.halted.length = net.images.length ∧ t.engines.length = net.images.length ∧
      (∀ c ∈ t.channels, c = { q := [], wclosed := false, rclosed := false }) ∧
      ∀ (i : Nat) (image : List Int), net.images[i]? = some image → ∃ e, t.engines[i]? = some e ∧ e.pc = 0 ∧
        e.status = .ready ∧ e.fr = FaultRecord.empty ∧ e.rb = 0 ∧ e.mem.len = image.length ∧
        ∀ a : Nat, e.mem.read? a = image[a]?) ∧
    (∀ i, op = .run i → step s = .next { s with hostOps := rest, cur := i, hostStarted := true, running := true }) ∧
    (∀ i e, op = .attempt i → s.engines[i]? = some e →
      (e.status = .ready ∨ e.status = .blockedIn ∨ e.status = .blockedOut →
        step s = attempt { s with hostOps := rest, cur := i, hostStarted := true }) ∧
      (e.status = .halted ∨ e.status = .faulted →
        step s = .next { s with hostOps := rest, cur := i, hostStarted := true })) ∧
    (∀ c v ch, op = .push c v → s.channels[c]? = some ch →
      (ch.wclosed = false → ch.rclosed = false → ch.q.length < s.cfg.cap → step s = .next { s with
        hostOps := rest, channels := s.channels.set c { ch with q := ch.q ++ [v] }, reply := some (.sent .ok) }) ∧
      (ch.wclosed = false → ch.rclosed = false → s.cfg.cap ≤ ch.q.length →
        step s = .next { s with hostOps := rest, reply := some (.sent .full) }) ∧
      (ch.wclosed = true ∨ ch.rclosed = true → step s = .next { s with hostOps := rest, reply := some (.sent .closed) })) ∧
    (∀ c ch, op = .pop c → s.channels[c]? = some ch →
      (∀ v q, ch.rclosed = false → ch.q = v :: q → step s = .next { s with
        hostOps := rest, channels := s.channels.set c { ch with q := q }, reply := some (.received (.value v)) }) ∧
      (ch.rclosed = false → ch.q = [] → ch.wclosed = false →
        step s = .next { s with hostOps := rest, reply := some (.received .empty) }) ∧
      (ch.rclosed = true ∨ ch.q = [] ∧ ch.wclosed = true →
        step s = .next { s with hostOps := rest, reply := some (.received .closed) })) ∧
    (∀ c ch, op = .drain c → s.channels[c]? = some ch →
      (ch.rclosed = false → step s = .next { s with
        hostOps := rest, channels := s.channels.set c { ch with q := [] }, reply := some (.drained ch.q) }) ∧
      (ch.rclosed = true → step s = .next { s with hostOps := rest, reply := some (.drained []) })) ∧
    (∀ c ch, s.channels[c]? = some ch →
      (op = .close c .producer → step s = .next { s with
        hostOps := rest, channels := s.channels.set c { ch with wclosed := true }, reply := some .done }) ∧
      (op = .close c .consumer → step s = .next { s with
        hostOps := rest, channels := s.channels.set c { ch with rclosed := true }, reply := some .done })) ∧
    (op = .yield → step s = composerStep { s with hostOps := rest })
end

