-- ==== Sys2Proof/Laws/Memory.lean ====
section
/-! SUPPORT. The memory operations: what a read gives after a write, and that every operation keeps the canonical form. -/

namespace Sys2Proof.Machine

/-! ### Cell lists -/

/-- A canonical list from a higher bound on is one from a lower bound on. -/
theorem cellsWf_mono {len : Nat} {l : List (Nat × Int)} {lo lo' : Nat} (h : cellsWf len lo l = true) (hle : lo' ≤ lo) :
    cellsWf len lo' l = true := by
  cases l with
  | nil => rfl
  | cons c rest =>
    obtain ⟨k, v⟩ := c
    simp only [cellsWf, Bool.and_eq_true, decide_eq_true_eq] at h ⊢
    exact ⟨⟨⟨by omega, h.1.1.2⟩, h.1.2⟩, h.2⟩

/-- An address below every listed one is not listed: it reads as 0. -/
theorem lookupCell_below {len : Nat} {l : List (Nat × Int)} {lo a : Nat} (h : cellsWf len lo l = true) (ha : a < lo) :
    lookupCell l a = 0 := by
  induction l generalizing lo with
  | nil => rfl
  | cons c rest ih =>
    obtain ⟨k, v⟩ := c
    simp only [cellsWf, Bool.and_eq_true, decide_eq_true_eq] at h
    have hk : k ≠ a := by omega
    simp only [lookupCell, hk, if_false]
    exact ih h.2 (by omega)

theorem lookupCell_insertCell {len : Nat} {l : List (Nat × Int)} {lo a : Nat} {v : Int} (b : Nat)
    (h : cellsWf len lo l = true) : lookupCell (insertCell l a v) b = if b = a then v else lookupCell l b := by
  induction l generalizing lo with
  | nil => by_cases hv : v = 0 <;> simp [insertCell, lookupCell, hv, eq_comm]
  | cons c rest ih =>
    obtain ⟨k, w⟩ := c
    simp only [cellsWf, Bool.and_eq_true, decide_eq_true_eq] at h
    have hbelow : ∀ x : Nat, x ≤ k → lookupCell rest x = 0 := fun x hx => lookupCell_below h.2 (by omega)
    rcases lt_trichotomy a k with hlt | heq | hgt
    · by_cases hv : v = 0
      · simp only [insertCell, hlt, if_true, hv, lookupCell]
        by_cases hb : b = a
        · subst hb; simp [show k ≠ b by omega, hbelow b (by omega)]
        · simp [hb]
      · simp only [insertCell, hlt, if_true, hv, if_false, lookupCell, eq_comm (a := a)]
    · subst heq
      by_cases hv : v = 0
      · simp only [insertCell, lt_irrefl, if_false, if_true, hv, lookupCell]
        by_cases hb : b = a
        · subst hb; simp [hbelow b le_rfl]
        · simp [hb, Ne.symm hb]
      · simp only [insertCell, lt_irrefl, if_false, if_true, hv, lookupCell]
        by_cases hb : b = a
        · simp [hb]
        · simp [hb, Ne.symm hb]
    · have h1 : ¬a < k := by omega
      have h2 : a ≠ k := by omega
      simp only [insertCell, h1, h2, if_false, lookupCell, ih h.2]
      by_cases hb : b = a
      · simp [hb, h2.symm]
      · simp [hb]

theorem cellsWf_insertCell {len : Nat} {l : List (Nat × Int)} {lo a : Nat} {v : Int}
    (h : cellsWf len lo l = true) (hlo : lo ≤ a) (ha : a < len) : cellsWf len lo (insertCell l a v) = true := by
  induction l generalizing lo with
  | nil => by_cases hv : v = 0 <;> simp [insertCell, cellsWf, hv, hlo, ha]
  | cons c rest ih =>
    obtain ⟨k, w⟩ := c
    have h' := h
    simp only [cellsWf, Bool.and_eq_true, decide_eq_true_eq] at h
    rcases lt_trichotomy a k with hlt | heq | hgt
    · by_cases hv : v = 0
      · simpa [insertCell, hlt, hv] using h'
      · simp only [insertCell, hlt, if_true, hv, if_false, cellsWf, Bool.and_eq_true, decide_eq_true_eq]
        exact ⟨⟨⟨hlo, ha⟩, hv⟩, ⟨⟨by omega, h.1.1.2⟩, h.1.2⟩, h.2⟩
    · subst heq
      by_cases hv : v = 0
      · simp only [insertCell, lt_irrefl, if_false, if_true, hv]
        exact cellsWf_mono h.2 (by omega)
      · simp only [insertCell, lt_irrefl, if_false, if_true, hv, cellsWf, Bool.and_eq_true, decide_eq_true_eq]
        exact ⟨⟨⟨hlo, ha⟩, hv⟩, h.2⟩
    · have h1 : ¬a < k := by omega
      have h2 : a ≠ k := by omega
      simp only [insertCell, h1, h2, if_false, cellsWf, Bool.and_eq_true, decide_eq_true_eq]
      exact ⟨h.1, ih h.2 (by omega)⟩

/-- Whatever holds of 0-free listed values and of the new value holds of the values listed after. -/
theorem insertCell_forall {P : Int → Prop} {l : List (Nat × Int)} {a : Nat} {v : Int} (h : ∀ c ∈ l, P c.2) (hv : P v) :
    ∀ c ∈ insertCell l a v, P c.2 := by
  induction l with
  | nil =>
    intro c hc
    by_cases hz : v = 0
    · simp [insertCell, hz] at hc
    · simp only [insertCell, hz, if_false, List.mem_singleton] at hc
      exact hc ▸ hv
  | cons c rest ih =>
    obtain ⟨k, w⟩ := c
    have hrest : ∀ c ∈ rest, P c.2 := fun c hc => h c (List.mem_cons_of_mem _ hc)
    have hw : P w := h (k, w) (List.mem_cons_self ..)
    intro d hd
    simp only [insertCell] at hd
    split_ifs at hd
    · exact h d hd
    · rcases List.mem_cons.mp hd with rfl | hd
      · exact hv
      · exact h d hd
    · exact hrest d hd
    · rcases List.mem_cons.mp hd with rfl | hd
      · exact hv
      · exact hrest d hd
    · rcases List.mem_cons.mp hd with rfl | hd
      · exact hw
      · exact ih hrest d hd

/-- The value a cell list gives an address is 0 or one of the listed ones. -/
theorem lookupCell_forall {P : Int → Prop} {l : List (Nat × Int)} (h0 : P 0) (h : ∀ c ∈ l, P c.2) (a : Nat) :
    P (lookupCell l a) := by
  induction l with
  | nil => exact h0
  | cons c rest ih =>
    obtain ⟨k, w⟩ := c
    simp only [lookupCell]
    split_ifs
    · exact h (k, w) (List.mem_cons_self ..)
    · exact ih fun c hc => h c (List.mem_cons_of_mem _ hc)

/-! ### Memory -/

theorem Memory.inBounds_iff {m : Memory} {a : Int} : m.inBounds a = true ↔ 0 ≤ a ∧ a < m.len := by
  simp [Memory.inBounds]

theorem Memory.read?_eq_none_iff {m : Memory} {a : Int} : m.read? a = none ↔ ¬(0 ≤ a ∧ a < m.len) := by
  rw [← Memory.inBounds_iff]
  unfold Memory.read?
  split <;> simp_all

theorem Memory.read?_isSome_iff {m : Memory} {a : Int} : (∃ v, m.read? a = some v) ↔ 0 ≤ a ∧ a < m.len := by
  rw [← Memory.inBounds_iff]
  unfold Memory.read?
  split <;> simp_all

theorem Memory.read?_bounds {m : Memory} {a : Int} {v : Int} (h : m.read? a = some v) : 0 ≤ a ∧ a < m.len :=
  Memory.read?_isSome_iff.mp ⟨v, h⟩

@[simp] theorem Memory.write_len (m : Memory) (a : Int) (v : Int) : (m.write a v).len = m.len := rfl

/-- A read after a write gives the value written at that address and what was there at every other. -/
theorem Memory.read?_write {m : Memory} {a b : Int} {v : Int} (hwf : m.wf = true) (ha : m.inBounds a = true) :
    (m.write a v).read? b = if b = a then some v else m.read? b := by
  rw [Memory.inBounds_iff] at ha
  have hnat : 0 ≤ b → (b.toNat = a.toNat ↔ b = a) := fun hb => by
    constructor
    · intro h; rw [← Int.toNat_of_nonneg hb, ← Int.toNat_of_nonneg ha.1, h]
    · intro h; rw [h]
  by_cases hb : 0 ≤ b ∧ b < m.len
  · simp only [Memory.read?, Memory.inBounds, Memory.write, hb.1, hb.2, decide_true, Bool.and_self, if_true,
      lookupCell_insertCell b.toNat hwf, hnat hb.1]
    split <;> rfl
  · have hne : b ≠ a := fun h => hb (h ▸ ha)
    rw [if_neg hne, Memory.read?_eq_none_iff.mpr hb, Memory.read?_eq_none_iff.mpr (by simpa using hb)]

theorem Memory.wf_write {m : Memory} {a : Int} {v : Int} (hwf : m.wf = true) (ha : m.inBounds a = true) :
    (m.write a v).wf = true := by
  rw [Memory.inBounds_iff] at ha
  have hnat : a.toNat < m.len := by omega
  exact cellsWf_insertCell hwf (Nat.zero_le _) hnat

theorem cellsWf_cellsFrom (len : Nat) (image : List Int) (k : Nat) (h : k + image.length ≤ len) :
    cellsWf len k (cellsFrom k image) = true := by
  induction image generalizing k with
  | nil => rfl
  | cons v rest ih =>
    simp only [List.length_cons] at h
    simp only [cellsFrom]
    split_ifs with hv
    · exact cellsWf_mono (ih (k + 1) (by omega)) (by omega)
    · simp only [cellsWf, Bool.and_eq_true, decide_eq_true_eq]
      exact ⟨⟨⟨le_rfl, by omega⟩, hv⟩, ih (k + 1) (by omega)⟩

theorem Memory.wf_ofImage (image : List Int) : (Memory.ofImage image).wf = true :=
  cellsWf_cellsFrom _ _ _ (by simp [Memory.ofImage])

theorem lookupCell_cellsFrom (image : List Int) (k a : Nat) :
    lookupCell (cellsFrom k image) a = if k ≤ a then image.getD (a - k) 0 else 0 := by
  induction image generalizing k with
  | nil => simp [cellsFrom, lookupCell]
  | cons v rest ih =>
    have key : lookupCell (cellsFrom (k + 1) rest) a = if k + 1 ≤ a then rest.getD (a - (k + 1)) 0 else 0 := ih (k + 1)
    rcases lt_trichotomy a k with hlt | heq | hgt
    · simp only [cellsFrom]
      split_ifs with hv h1 h1
      · omega
      · rw [key, if_neg (by omega)]
      · omega
      · rw [lookupCell, if_neg (by omega), key, if_neg (by omega)]
    · subst heq
      simp only [cellsFrom]
      split_ifs with hv
      · rw [key, if_neg (by omega)]; simp [hv]
      · omega
      · simp [lookupCell]
      · omega
    · obtain ⟨d, rfl⟩ : ∃ d, a = k + 1 + d := ⟨a - (k + 1), by omega⟩
      have hsub : k + 1 + d - k = d + 1 := by omega
      simp only [cellsFrom]
      split_ifs with hv h1 h1
      · rw [key]; simp [hsub]
      · omega
      · rw [lookupCell, if_neg (by omega), key]; simp [hsub]
      · omega

/-- A loaded memory holds the image, cell by cell. -/
theorem Memory.read?_ofImage (image : List Int) (a : Nat) : (Memory.ofImage image).read? a = image[a]? := by
  by_cases h : a < image.length
  · simp [Memory.read?, Memory.inBounds, Memory.ofImage, h, lookupCell_cellsFrom]
  · have hnone : (Memory.ofImage image).read? a = none :=
      Memory.read?_eq_none_iff.mpr (by simp only [Memory.ofImage]; omega)
    rw [hnone, List.getElem?_eq_none (by omega)]

theorem cellsFrom_forall {P : Int → Prop} {image : List Int} (h : ∀ v ∈ image, P v) (k : Nat) :
    ∀ c ∈ cellsFrom k image, P c.2 := by
  induction image generalizing k with
  | nil => intro c hc; simp [cellsFrom] at hc
  | cons v rest ih =>
    have hrest : ∀ v ∈ rest, P v := fun v hv => h v (List.mem_cons_of_mem _ hv)
    intro c hc
    simp only [cellsFrom] at hc
    split_ifs at hc
    · exact ih hrest (k + 1) c hc
    · rcases List.mem_cons.mp hc with rfl | hc
      · exact h v (List.mem_cons_self ..)
      · exact ih hrest (k + 1) c hc

/-! ### The checked primitives -/

theorem memRead_eq_ok {m : Memory} {a : Int} {v : Int} : memRead m a = .ok v ↔ m.read? a = some v := by
  unfold memRead
  split <;> simp_all

theorem memRead_eq_error {m : Memory} {a : Int} {t : Trap} :
    memRead m a = .error t ↔ m.read? a = none ∧ t = Trap.outOfBounds a := by
  unfold memRead
  cases h : m.read? a with
  | none => simp [eq_comm]
  | some v => simp

/-- `MemWrite` never faults where the destination has been checked (R56). -/
theorem memWrite_of_inBounds {m : Memory} {a : Int} {v : Int} (h : m.inBounds a = true) :
    memWrite m a v = .ok (m.write a v) := by
  simp [memWrite, h]

/-! ### Placing an instruction -/

theorem cellsWf_lengthen {n k lo : Nat} {l : List (Nat × Int)} (hnk : n ≤ k) (h : cellsWf n lo l = true) :
    cellsWf k lo l = true := by
  induction l generalizing lo with
  | nil => rfl
  | cons c r ih =>
    obtain ⟨x, y⟩ := c
    simp only [cellsWf, Bool.and_eq_true, decide_eq_true_eq] at h ⊢
    obtain ⟨⟨⟨h1, h2⟩, h3⟩, h4⟩ := h
    exact ⟨⟨⟨h1, by omega⟩, h3⟩, ih h4⟩

/-- Placing words keeps the canonical form and what stood below them, and the first word reads back. -/
theorem Memory.place_spec (ws : List Int) (m : Memory) (a : Int) (h : m.wf = true) (ha : 0 ≤ a) :
    (m.place a ws).wf = true ∧ (∀ b, 0 ≤ b → b < a → b < m.len → (m.place a ws).read? b = m.read? b) ∧
      ∀ v rest, ws = v :: rest → (m.place a ws).read? a = some v := by
  induction ws generalizing m a with
  | nil => exact ⟨h, fun _ _ _ _ => rfl, by simp⟩
  | cons v rest ih =>
    let m1 : Memory := { m with len := max m.len (a.toNat + 1) }
    have hwf1 : m1.wf = true := cellsWf_lengthen (Nat.le_max_left _ _) h
    have hb : m1.inBounds a = true := by rw [Memory.inBounds_iff]; simp only [m1]; omega
    obtain ⟨i1, i2, -⟩ := ih (m1.write a v) (a + 1) (Memory.wf_write (v := v) hwf1 hb) (by omega)
    have hplace : m.place a (v :: rest) = (m1.write a v).place (a + 1) rest := rfl
    refine ⟨i1, fun b h0 hlt hl => ?_, ?_⟩
    · have hr := i2 b h0 (by omega) (by simp only [Memory.write_len, m1]; omega)
      rw [hplace, hr, Memory.read?_write hwf1 hb, if_neg (by omega)]
      simp [Memory.read?, Memory.inBounds, m1, h0, hl]
    · rintro v' rest' heq
      cases heq
      have hr := i2 a ha (by omega) (by simp only [Memory.write_len, m1]; omega)
      rw [hplace, hr, Memory.read?_write hwf1 hb, if_pos rfl]

end Sys2Proof.Machine
end

