-- ==== Sys2Proof/Laws/Operands.lean ====
section
/-! SUPPORT. What each operation over operands and results can answer. -/

namespace Sys2Proof.Machine

/-! ### Words and `arith` -/

theorem fits_bits {n : Nat} {v : Int} : fits (.bits n) v = true ↔ -(2 ^ (n - 1) : Int) ≤ v ∧ v ≤ 2 ^ (n - 1) - 1 := by
  simp [fits]

/-- A wrapped value is a word. -/
theorem fits_wrapTo (w : Width) (hw : widthOk w = true) (v : Int) : fits w (wrapTo w v) = true := by
  cases w with
  | unbounded => rfl
  | bits n =>
    have hn : 1 ≤ n := by simp only [widthOk, decide_eq_true_eq] at hw; omega
    obtain ⟨k, rfl⟩ : ∃ k, n = k + 1 := ⟨n - 1, by omega⟩
    have hpos : (0 : Int) < 2 ^ k := by positivity
    have hdouble : (2 : Int) ^ (k + 1) = 2 * 2 ^ k := by rw [pow_succ]; ring
    rw [fits_bits]
    simp only [wrapTo, Nat.add_sub_cancel, hdouble]
    have h1 := Int.emod_nonneg (v + 2 ^ k) (b := 2 * 2 ^ k) (by omega)
    have h2 := Int.emod_lt_of_pos (v + 2 ^ k) (b := 2 * 2 ^ k) (by omega)
    omega

/-- What `arith` stores is a word. -/
theorem arith_fits {cfg : Config} {v : Int} {r : Int} (hw : widthOk cfg.width = true) (h : arith cfg v = .ok r) :
    fits cfg.width r = true := by
  unfold arith at h
  split at h
  · cases h; assumption
  · split at h
    · cases h
    · cases h; exact fits_wrapTo _ hw _

/-- The one fault of `arith`. -/
theorem arith_error {cfg : Config} {v : Int} {t : Trap} (h : arith cfg v = .error t) :
    t = { cause := .arithOverflow, addr := none } := by
  unfold arith at h
  split at h
  · cases h
  · split at h
    · cases h; rfl
    · cases h

/-- 0 and 1 are words of every legal width. -/
theorem fits_small {w : Width} (hw : widthOk w = true) {v : Int} (h0 : 0 ≤ v) (h1 : v ≤ 1) : fits w v = true := by
  cases w with
  | unbounded => rfl
  | bits n =>
    have hn : 16 ≤ n := by simpa [widthOk] using hw
    have hp : (2 : Int) ^ 1 ≤ 2 ^ (n - 1) := pow_le_pow_right₀ (by norm_num) (by omega)
    rw [fits_bits]
    constructor <;> omega

/-- An address of a memory of legal length, and up to four more, is a word (R25). -/
theorem fits_addr {w : Width} {len : Nat} (hl : lenOk w len = true) {v : Int} (h0 : 0 ≤ v) (h1 : v ≤ len + 3) :
    fits w v = true := by
  cases w with
  | unbounded => rfl
  | bits n =>
    have hm : (len : Int) ≤ 2 ^ (n - 1) - 4 := by simpa [lenOk, maxLen] using hl
    rw [fits_bits]
    constructor <;> omega

/-! ### Operands -/

/-- The faults that resolving a parameter raises: `InvalidMode`, or `OutOfBounds` with an address outside memory. -/
def OperandTrap (e : Engine) (t : Trap) : Prop :=
  t = Trap.of .invalidMode ∨ ∃ a : Int, t = Trap.outOfBounds a ∧ ¬(0 ≤ a ∧ a < e.mem.len)

theorem memRead_error_trap {e : Engine} {a : Int} {t : Trap} (h : memRead e.mem a = .error t) : OperandTrap e t := by
  rw [memRead_eq_error] at h
  exact .inr ⟨a, h.2, Memory.read?_eq_none_iff.mp h.1⟩

/-- Everything `ReadParam` can answer: a value that is the operand or one cell, or an operand fault. -/
theorem readParam_ok {cfg : Config} {e : Engine} {i : Nat} {m : Mode} {v : Int} (h : readParam cfg e i m = .ok v) :
    ∃ a : Int, e.mem.read? a = some v := by
  unfold readParam operand at h
  cases hp : memRead e.mem (e.pc + i) with
  | error t => rw [hp] at h; cases h
  | ok p =>
    rw [hp] at h
    cases m with
    | position => exact ⟨p, memRead_eq_ok.mp h⟩
    | immediate => cases h; exact ⟨_, memRead_eq_ok.mp hp⟩
    | relative =>
      by_cases hr : cfg.rel = true
      · simp only [hr, if_true] at h
        exact ⟨_, memRead_eq_ok.mp h⟩
      · simp only [hr] at h; cases h

theorem readParam_error {cfg : Config} {e : Engine} {i : Nat} {m : Mode} {t : Trap} (h : readParam cfg e i m = .error t) :
    OperandTrap e t := by
  unfold readParam operand at h
  cases hp : memRead e.mem (e.pc + i) with
  | error t' => rw [hp] at h; cases h; exact memRead_error_trap hp
  | ok p =>
    rw [hp] at h
    cases m with
    | position => exact memRead_error_trap h
    | immediate => cases h
    | relative =>
      by_cases hr : cfg.rel = true
      · simp only [hr, if_true] at h; exact memRead_error_trap h
      · simp only [hr] at h; cases h; exact .inl rfl

theorem targetAddr_error {cfg : Config} {e : Engine} {m : Mode} {p : Int} {t : Trap} (h : targetAddr cfg e m p = .error t) :
    t = Trap.of .invalidMode := by
  cases m with
  | position => cases h
  | immediate =>
    simp only [targetAddr] at h
    split at h
    · cases h; rfl
    · cases h
  | relative =>
    simp only [targetAddr] at h
    split at h
    · cases h
    · cases h; rfl

/-- `WriteTarget` answers only addresses of cells that exist. -/
theorem writeTarget_ok {cfg : Config} {e : Engine} {i : Nat} {m : Mode} {a : Int} (h : writeTarget cfg e i m = .ok a) :
    e.mem.inBounds a = true := by
  unfold writeTarget operand at h
  cases hp : memRead e.mem (e.pc + i) with
  | error t => rw [hp] at h; cases h
  | ok p =>
    cases ht : targetAddr cfg e m p with
    | error t => rw [hp] at h; simp only [bind, Except.bind, ht] at h; cases h
    | ok t =>
      rw [hp] at h
      simp only [bind, Except.bind, ht] at h
      split at h
      · cases h; assumption
      · cases h

theorem writeTarget_error {cfg : Config} {e : Engine} {i : Nat} {m : Mode} {t : Trap} (h : writeTarget cfg e i m = .error t) :
    OperandTrap e t := by
  unfold writeTarget operand at h
  cases hp : memRead e.mem (e.pc + i) with
  | error t' => rw [hp] at h; cases h; exact memRead_error_trap hp
  | ok p =>
    cases ht : targetAddr cfg e m p with
    | error t' => rw [hp] at h; simp only [bind, Except.bind, ht] at h; cases h; exact .inl (targetAddr_error ht)
    | ok a =>
      rw [hp] at h
      simp only [bind, Except.bind, ht] at h
      split at h
      · cases h
      · rename_i hb
        cases h
        exact .inr ⟨a, rfl, fun hin => hb (Memory.inBounds_iff.mpr hin)⟩

/-! ### Instruction shapes -/

/-- Everything the F3 shape can do: it raises an operand fault or the fault of its result, or it writes one existing cell and
advances by 4. -/
theorem storeResult_cases (cfg : Config) (e : Engine) (m0 m1 m2 : Mode) (f : Int → Int → Except Trap Int) :
    (∃ t, storeResult cfg e m0 m1 m2 f = .error t ∧ (OperandTrap e t ∨ ∃ va vb, f va vb = .error t)) ∨
    (∃ va vb a r, readParam cfg e 1 m0 = .ok va ∧ readParam cfg e 2 m1 = .ok vb ∧ writeTarget cfg e 3 m2 = .ok a ∧
      f va vb = .ok r ∧ storeResult cfg e m0 m1 m2 f = .ok (e.complete (e.mem.write a r) (e.pc + 4))) := by
  unfold storeResult
  cases h1 : readParam cfg e 1 m0 with
  | error t => exact .inl ⟨t, rfl, .inl (readParam_error h1)⟩
  | ok va =>
    cases h2 : readParam cfg e 2 m1 with
    | error t => exact .inl ⟨t, rfl, .inl (readParam_error h2)⟩
    | ok vb =>
      cases h3 : writeTarget cfg e 3 m2 with
      | error t => exact .inl ⟨t, rfl, .inl (writeTarget_error h3)⟩
      | ok a =>
        cases h4 : f va vb with
        | error t => exact .inl ⟨t, by simp [bind, Except.bind, h4], .inr ⟨va, vb, h4⟩⟩
        | ok r =>
          refine .inr ⟨va, vb, a, r, rfl, rfl, rfl, h4, ?_⟩
          simp [bind, Except.bind, h4, memWrite_of_inBounds (writeTarget_ok h3)]

/-- Everything the jump shape can do. -/
theorem jumpIf_cases (cfg : Config) (e : Engine) (m0 m1 : Mode) (taken : Int → Bool) :
    (∃ t, jumpIf cfg e m0 m1 taken = .error t ∧ OperandTrap e t) ∨
    (∃ va vb, readParam cfg e 1 m0 = .ok va ∧ readParam cfg e 2 m1 = .ok vb ∧
      jumpIf cfg e m0 m1 taken = .ok (e.complete e.mem (if taken va then vb else e.pc + 3))) := by
  unfold jumpIf
  cases h1 : readParam cfg e 1 m0 with
  | error t => exact .inl ⟨t, rfl, readParam_error h1⟩
  | ok va =>
    cases h2 : readParam cfg e 2 m1 with
    | error t => exact .inl ⟨t, rfl, readParam_error h2⟩
    | ok vb => exact .inr ⟨va, vb, rfl, rfl, rfl⟩

/-- A parameter that resolves has its operand cell in memory. -/
theorem readParam_operand {cfg : Config} {e : Engine} {i : Nat} {m : Mode} {v : Int} (h : readParam cfg e i m = .ok v) :
    0 ≤ e.pc + i ∧ e.pc + i < e.mem.len := by
  unfold readParam operand at h
  cases hp : memRead e.mem (e.pc + i) with
  | error t => rw [hp] at h; cases h
  | ok p => exact Memory.read?_bounds (memRead_eq_ok.mp hp)

end Sys2Proof.Machine
end

