-- ==== Sys2Proof/Laws/State.lean ====
section
/-! SUPPORT. The fields of a state, an engine or a channel after each named update: one lemma per field and update, each true by
unfolding the update once, so that no later proof unfolds it. -/

namespace Sys2Proof.Machine


/-! ### Engine.complete -/

@[simp] theorem Engine.complete_pc (e : Engine) (mem : Memory) (pc : Int) : (e.complete mem pc).pc = pc := rfl
@[simp] theorem Engine.complete_mem (e : Engine) (mem : Memory) (pc : Int) : (e.complete mem pc).mem = mem := rfl
@[simp] theorem Engine.complete_inCh (e : Engine) (mem : Memory) (pc : Int) : (e.complete mem pc).inCh = e.inCh := rfl
@[simp] theorem Engine.complete_outCh (e : Engine) (mem : Memory) (pc : Int) : (e.complete mem pc).outCh = e.outCh := rfl
@[simp] theorem Engine.complete_status (e : Engine) (mem : Memory) (pc : Int) : (e.complete mem pc).status = .ready := rfl
@[simp] theorem Engine.complete_fr (e : Engine) (mem : Memory) (pc : Int) : (e.complete mem pc).fr = e.fr := rfl
@[simp] theorem Engine.complete_rb (e : Engine) (mem : Memory) (pc : Int) : (e.complete mem pc).rb = e.rb := rfl

/-! ### Engine.setRb -/

@[simp] theorem Engine.setRb_pc (e : Engine) (v : Int) : (e.setRb v).pc = e.pc := rfl
@[simp] theorem Engine.setRb_mem (e : Engine) (v : Int) : (e.setRb v).mem = e.mem := rfl
@[simp] theorem Engine.setRb_inCh (e : Engine) (v : Int) : (e.setRb v).inCh = e.inCh := rfl
@[simp] theorem Engine.setRb_outCh (e : Engine) (v : Int) : (e.setRb v).outCh = e.outCh := rfl
@[simp] theorem Engine.setRb_status (e : Engine) (v : Int) : (e.setRb v).status = e.status := rfl
@[simp] theorem Engine.setRb_fr (e : Engine) (v : Int) : (e.setRb v).fr = e.fr := rfl
@[simp] theorem Engine.setRb_rb (e : Engine) (v : Int) : (e.setRb v).rb = v := rfl

/-! ### Engine.block -/

@[simp] theorem Engine.block_pc (e : Engine) (st : Status) : (e.block st).pc = e.pc := rfl
@[simp] theorem Engine.block_mem (e : Engine) (st : Status) : (e.block st).mem = e.mem := rfl
@[simp] theorem Engine.block_inCh (e : Engine) (st : Status) : (e.block st).inCh = e.inCh := rfl
@[simp] theorem Engine.block_outCh (e : Engine) (st : Status) : (e.block st).outCh = e.outCh := rfl
@[simp] theorem Engine.block_status (e : Engine) (st : Status) : (e.block st).status = st := rfl
@[simp] theorem Engine.block_fr (e : Engine) (st : Status) : (e.block st).fr = e.fr := rfl
@[simp] theorem Engine.block_rb (e : Engine) (st : Status) : (e.block st).rb = e.rb := rfl

/-! ### Engine.halt -/

@[simp] theorem Engine.halt_pc (e : Engine) : (e.halt).pc = e.pc := rfl
@[simp] theorem Engine.halt_mem (e : Engine) : (e.halt).mem = e.mem := rfl
@[simp] theorem Engine.halt_inCh (e : Engine) : (e.halt).inCh = e.inCh := rfl
@[simp] theorem Engine.halt_outCh (e : Engine) : (e.halt).outCh = e.outCh := rfl
@[simp] theorem Engine.halt_status (e : Engine) : (e.halt).status = .halted := rfl
@[simp] theorem Engine.halt_fr (e : Engine) : (e.halt).fr = e.fr := rfl
@[simp] theorem Engine.halt_rb (e : Engine) : (e.halt).rb = e.rb := rfl

/-! ### Engine.raise -/

@[simp] theorem Engine.raise_pc (e : Engine) (t : Trap) : (e.raise t).pc = e.pc := rfl
@[simp] theorem Engine.raise_mem (e : Engine) (t : Trap) : (e.raise t).mem = e.mem := rfl
@[simp] theorem Engine.raise_inCh (e : Engine) (t : Trap) : (e.raise t).inCh = e.inCh := rfl
@[simp] theorem Engine.raise_outCh (e : Engine) (t : Trap) : (e.raise t).outCh = e.outCh := rfl
@[simp] theorem Engine.raise_status (e : Engine) (t : Trap) : (e.raise t).status = .faulted := rfl
@[simp] theorem Engine.raise_fr (e : Engine) (t : Trap) : (e.raise t).fr = { cause := some t.cause, pc := some e.pc, iw := e.mem.read? e.pc, addr := t.addr } := rfl
@[simp] theorem Engine.raise_rb (e : Engine) (t : Trap) : (e.raise t).rb = e.rb := rfl

/-! ### Engine.load -/

@[simp] theorem Engine.load_pc (image : List Int) (i o : Nat) : (Engine.load image i o).pc = 0 := rfl
@[simp] theorem Engine.load_mem (image : List Int) (i o : Nat) : (Engine.load image i o).mem = Memory.ofImage image := rfl
@[simp] theorem Engine.load_inCh (image : List Int) (i o : Nat) : (Engine.load image i o).inCh = i := rfl
@[simp] theorem Engine.load_outCh (image : List Int) (i o : Nat) : (Engine.load image i o).outCh = o := rfl
@[simp] theorem Engine.load_status (image : List Int) (i o : Nat) : (Engine.load image i o).status = .ready := rfl
@[simp] theorem Engine.load_fr (image : List Int) (i o : Nat) : (Engine.load image i o).fr = FaultRecord.empty := rfl
@[simp] theorem Engine.load_rb (image : List Int) (i o : Nat) : (Engine.load image i o).rb = 0 := rfl

/-! ### State.setEngine -/

@[simp] theorem State.setEngine_cfg (s : State) (e : Engine) : (s.setEngine e).cfg = s.cfg := rfl
@[simp] theorem State.setEngine_topo (s : State) (e : Engine) : (s.setEngine e).topo = s.topo := rfl
@[simp] theorem State.setEngine_driver (s : State) (e : Engine) : (s.setEngine e).driver = s.driver := rfl
@[simp] theorem State.setEngine_engines (s : State) (e : Engine) : (s.setEngine e).engines = s.engines.set s.cur e := rfl
@[simp] theorem State.setEngine_channels (s : State) (e : Engine) : (s.setEngine e).channels = s.channels := rfl
@[simp] theorem State.setEngine_halted (s : State) (e : Engine) : (s.setEngine e).halted = s.halted := rfl
@[simp] theorem State.setEngine_cur (s : State) (e : Engine) : (s.setEngine e).cur = s.cur := rfl
@[simp] theorem State.setEngine_running (s : State) (e : Engine) : (s.setEngine e).running = s.running := rfl
@[simp] theorem State.setEngine_phase (s : State) (e : Engine) : (s.setEngine e).phase = s.phase := rfl
@[simp] theorem State.setEngine_hostStarted (s : State) (e : Engine) : (s.setEngine e).hostStarted = s.hostStarted := rfl
@[simp] theorem State.setEngine_phases (s : State) (e : Engine) : (s.setEngine e).phases = s.phases := rfl
@[simp] theorem State.setEngine_result (s : State) (e : Engine) : (s.setEngine e).result = s.result := rfl
@[simp] theorem State.setEngine_netFault (s : State) (e : Engine) : (s.setEngine e).netFault = s.netFault := rfl
@[simp] theorem State.setEngine_hostOps (s : State) (e : Engine) : (s.setEngine e).hostOps = s.hostOps := rfl
@[simp] theorem State.setEngine_reply (s : State) (e : Engine) : (s.setEngine e).reply = s.reply := rfl

/-! ### State.setChannel -/

@[simp] theorem State.setChannel_cfg (s : State) (c : Nat) (ch : Channel) : (s.setChannel c ch).cfg = s.cfg := rfl
@[simp] theorem State.setChannel_topo (s : State) (c : Nat) (ch : Channel) : (s.setChannel c ch).topo = s.topo := rfl
@[simp] theorem State.setChannel_driver (s : State) (c : Nat) (ch : Channel) : (s.setChannel c ch).driver = s.driver := rfl
@[simp] theorem State.setChannel_engines (s : State) (c : Nat) (ch : Channel) : (s.setChannel c ch).engines = s.engines := rfl
@[simp] theorem State.setChannel_channels (s : State) (c : Nat) (ch : Channel) : (s.setChannel c ch).channels = s.channels.set c ch := rfl
@[simp] theorem State.setChannel_halted (s : State) (c : Nat) (ch : Channel) : (s.setChannel c ch).halted = s.halted := rfl
@[simp] theorem State.setChannel_cur (s : State) (c : Nat) (ch : Channel) : (s.setChannel c ch).cur = s.cur := rfl
@[simp] theorem State.setChannel_running (s : State) (c : Nat) (ch : Channel) : (s.setChannel c ch).running = s.running := rfl
@[simp] theorem State.setChannel_phase (s : State) (c : Nat) (ch : Channel) : (s.setChannel c ch).phase = s.phase := rfl
@[simp] theorem State.setChannel_hostStarted (s : State) (c : Nat) (ch : Channel) : (s.setChannel c ch).hostStarted = s.hostStarted := rfl
@[simp] theorem State.setChannel_phases (s : State) (c : Nat) (ch : Channel) : (s.setChannel c ch).phases = s.phases := rfl
@[simp] theorem State.setChannel_result (s : State) (c : Nat) (ch : Channel) : (s.setChannel c ch).result = s.result := rfl
@[simp] theorem State.setChannel_netFault (s : State) (c : Nat) (ch : Channel) : (s.setChannel c ch).netFault = s.netFault := rfl
@[simp] theorem State.setChannel_hostOps (s : State) (c : Nat) (ch : Channel) : (s.setChannel c ch).hostOps = s.hostOps := rfl
@[simp] theorem State.setChannel_reply (s : State) (c : Nat) (ch : Channel) : (s.setChannel c ch).reply = s.reply := rfl

/-! ### State.failWith -/

@[simp] theorem State.failWith_cfg (s : State) (f : NetFault) : (s.failWith f).cfg = s.cfg := rfl
@[simp] theorem State.failWith_topo (s : State) (f : NetFault) : (s.failWith f).topo = s.topo := rfl
@[simp] theorem State.failWith_driver (s : State) (f : NetFault) : (s.failWith f).driver = s.driver := rfl
@[simp] theorem State.failWith_engines (s : State) (f : NetFault) : (s.failWith f).engines = s.engines := rfl
@[simp] theorem State.failWith_channels (s : State) (f : NetFault) : (s.failWith f).channels = s.channels := rfl
@[simp] theorem State.failWith_halted (s : State) (f : NetFault) : (s.failWith f).halted = s.halted := rfl
@[simp] theorem State.failWith_cur (s : State) (f : NetFault) : (s.failWith f).cur = s.cur := rfl
@[simp] theorem State.failWith_running (s : State) (f : NetFault) : (s.failWith f).running = s.running := rfl
@[simp] theorem State.failWith_phase (s : State) (f : NetFault) : (s.failWith f).phase = .failed := rfl
@[simp] theorem State.failWith_hostStarted (s : State) (f : NetFault) : (s.failWith f).hostStarted = s.hostStarted := rfl
@[simp] theorem State.failWith_phases (s : State) (f : NetFault) : (s.failWith f).phases = s.phases := rfl
@[simp] theorem State.failWith_result (s : State) (f : NetFault) : (s.failWith f).result = s.result := rfl
@[simp] theorem State.failWith_netFault (s : State) (f : NetFault) : (s.failWith f).netFault = some f := rfl
@[simp] theorem State.failWith_hostOps (s : State) (f : NetFault) : (s.failWith f).hostOps = s.hostOps := rfl
@[simp] theorem State.failWith_reply (s : State) (f : NetFault) : (s.failWith f).reply = s.reply := rfl

/-! ### State.goTo -/

@[simp] theorem State.goTo_cfg (s : State) (i : Nat) (p : Phase) : (s.goTo i p).cfg = s.cfg := rfl
@[simp] theorem State.goTo_topo (s : State) (i : Nat) (p : Phase) : (s.goTo i p).topo = s.topo := rfl
@[simp] theorem State.goTo_driver (s : State) (i : Nat) (p : Phase) : (s.goTo i p).driver = s.driver := rfl
@[simp] theorem State.goTo_engines (s : State) (i : Nat) (p : Phase) : (s.goTo i p).engines = s.engines := rfl
@[simp] theorem State.goTo_channels (s : State) (i : Nat) (p : Phase) : (s.goTo i p).channels = s.channels := rfl
@[simp] theorem State.goTo_halted (s : State) (i : Nat) (p : Phase) : (s.goTo i p).halted = s.halted := rfl
@[simp] theorem State.goTo_cur (s : State) (i : Nat) (p : Phase) : (s.goTo i p).cur = i := rfl
@[simp] theorem State.goTo_running (s : State) (i : Nat) (p : Phase) : (s.goTo i p).running = s.running := rfl
@[simp] theorem State.goTo_phase (s : State) (i : Nat) (p : Phase) : (s.goTo i p).phase = p := rfl
@[simp] theorem State.goTo_hostStarted (s : State) (i : Nat) (p : Phase) : (s.goTo i p).hostStarted = s.hostStarted := rfl
@[simp] theorem State.goTo_phases (s : State) (i : Nat) (p : Phase) : (s.goTo i p).phases = s.phases := rfl
@[simp] theorem State.goTo_result (s : State) (i : Nat) (p : Phase) : (s.goTo i p).result = s.result := rfl
@[simp] theorem State.goTo_netFault (s : State) (i : Nat) (p : Phase) : (s.goTo i p).netFault = s.netFault := rfl
@[simp] theorem State.goTo_hostOps (s : State) (i : Nat) (p : Phase) : (s.goTo i p).hostOps = s.hostOps := rfl
@[simp] theorem State.goTo_reply (s : State) (i : Nat) (p : Phase) : (s.goTo i p).reply = s.reply := rfl

/-! ### State.answer -/

@[simp] theorem State.answer_cfg (s : State) (r : Reply) : (s.answer r).cfg = s.cfg := rfl
@[simp] theorem State.answer_topo (s : State) (r : Reply) : (s.answer r).topo = s.topo := rfl
@[simp] theorem State.answer_driver (s : State) (r : Reply) : (s.answer r).driver = s.driver := rfl
@[simp] theorem State.answer_engines (s : State) (r : Reply) : (s.answer r).engines = s.engines := rfl
@[simp] theorem State.answer_channels (s : State) (r : Reply) : (s.answer r).channels = s.channels := rfl
@[simp] theorem State.answer_halted (s : State) (r : Reply) : (s.answer r).halted = s.halted := rfl
@[simp] theorem State.answer_cur (s : State) (r : Reply) : (s.answer r).cur = s.cur := rfl
@[simp] theorem State.answer_running (s : State) (r : Reply) : (s.answer r).running = s.running := rfl
@[simp] theorem State.answer_phase (s : State) (r : Reply) : (s.answer r).phase = s.phase := rfl
@[simp] theorem State.answer_hostStarted (s : State) (r : Reply) : (s.answer r).hostStarted = s.hostStarted := rfl
@[simp] theorem State.answer_phases (s : State) (r : Reply) : (s.answer r).phases = s.phases := rfl
@[simp] theorem State.answer_result (s : State) (r : Reply) : (s.answer r).result = s.result := rfl
@[simp] theorem State.answer_netFault (s : State) (r : Reply) : (s.answer r).netFault = s.netFault := rfl
@[simp] theorem State.answer_hostOps (s : State) (r : Reply) : (s.answer r).hostOps = s.hostOps := rfl
@[simp] theorem State.answer_reply (s : State) (r : Reply) : (s.answer r).reply = some r := rfl

/-! ### State.endRun -/

@[simp] theorem State.endRun_cfg (s : State) : (s.endRun).cfg = s.cfg := rfl
@[simp] theorem State.endRun_topo (s : State) : (s.endRun).topo = s.topo := rfl
@[simp] theorem State.endRun_driver (s : State) : (s.endRun).driver = s.driver := rfl
@[simp] theorem State.endRun_engines (s : State) : (s.endRun).engines = s.engines := rfl
@[simp] theorem State.endRun_channels (s : State) : (s.endRun).channels = s.channels := rfl
@[simp] theorem State.endRun_halted (s : State) : (s.endRun).halted = s.halted := rfl
@[simp] theorem State.endRun_cur (s : State) : (s.endRun).cur = s.cur := rfl
@[simp] theorem State.endRun_running (s : State) : (s.endRun).running = false := rfl
@[simp] theorem State.endRun_phase (s : State) : (s.endRun).phase = s.phase := rfl
@[simp] theorem State.endRun_hostStarted (s : State) : (s.endRun).hostStarted = s.hostStarted := rfl
@[simp] theorem State.endRun_phases (s : State) : (s.endRun).phases = s.phases := rfl
@[simp] theorem State.endRun_result (s : State) : (s.endRun).result = s.result := rfl
@[simp] theorem State.endRun_netFault (s : State) : (s.endRun).netFault = s.netFault := rfl
@[simp] theorem State.endRun_hostOps (s : State) : (s.endRun).hostOps = s.hostOps := rfl
@[simp] theorem State.endRun_reply (s : State) : (s.endRun).reply = if s.phase = .await then s.reply else (s.engine?.bind Engine.report).map .report := rfl

/-! ### State.launched -/

@[simp] theorem State.launched_cfg (s : State) (net : Net) : (s.launched net).cfg = s.cfg := rfl
@[simp] theorem State.launched_topo (s : State) (net : Net) : (s.launched net).topo = net.topo := rfl
@[simp] theorem State.launched_driver (s : State) (net : Net) : (s.launched net).driver = net.driver := rfl
@[simp] theorem State.launched_engines (s : State) (net : Net) : (s.launched net).engines = buildEngines net.topo net.images.length 0 net.images := rfl
@[simp] theorem State.launched_channels (s : State) (net : Net) : (s.launched net).channels = List.replicate (channelCount net.topo net.images.length) Channel.fresh := rfl
@[simp] theorem State.launched_halted (s : State) (net : Net) : (s.launched net).halted = List.replicate net.images.length false := rfl
@[simp] theorem State.launched_cur (s : State) (net : Net) : (s.launched net).cur = 0 := rfl
@[simp] theorem State.launched_running (s : State) (net : Net) : (s.launched net).running = false := rfl
@[simp] theorem State.launched_phase (s : State) (net : Net) : (s.launched net).phase = if net.driver = .external then .idle else .preload 0 := rfl
@[simp] theorem State.launched_hostStarted (s : State) (net : Net) : (s.launched net).hostStarted = false := rfl
@[simp] theorem State.launched_phases (s : State) (net : Net) : (s.launched net).phases = net.phases := rfl
@[simp] theorem State.launched_result (s : State) (net : Net) : (s.launched net).result = none := rfl
@[simp] theorem State.launched_netFault (s : State) (net : Net) : (s.launched net).netFault = none := rfl
@[simp] theorem State.launched_hostOps (s : State) (net : Net) : (s.launched net).hostOps = s.hostOps := rfl
@[simp] theorem State.launched_reply (s : State) (net : Net) : (s.launched net).reply = some .done := rfl

/-! ### State.invoke -/

@[simp] theorem State.invoke_cfg (s : State) (i : Nat) : (s.invoke i).cfg = s.cfg := rfl
@[simp] theorem State.invoke_topo (s : State) (i : Nat) : (s.invoke i).topo = s.topo := rfl
@[simp] theorem State.invoke_driver (s : State) (i : Nat) : (s.invoke i).driver = s.driver := rfl
@[simp] theorem State.invoke_engines (s : State) (i : Nat) : (s.invoke i).engines = s.engines := rfl
@[simp] theorem State.invoke_channels (s : State) (i : Nat) : (s.invoke i).channels = s.channels := rfl
@[simp] theorem State.invoke_halted (s : State) (i : Nat) : (s.invoke i).halted = s.halted := rfl
@[simp] theorem State.invoke_cur (s : State) (i : Nat) : (s.invoke i).cur = i := rfl
@[simp] theorem State.invoke_running (s : State) (i : Nat) : (s.invoke i).running = s.running := rfl
@[simp] theorem State.invoke_phase (s : State) (i : Nat) : (s.invoke i).phase = s.phase := rfl
@[simp] theorem State.invoke_hostStarted (s : State) (i : Nat) : (s.invoke i).hostStarted = true := rfl
@[simp] theorem State.invoke_phases (s : State) (i : Nat) : (s.invoke i).phases = s.phases := rfl
@[simp] theorem State.invoke_result (s : State) (i : Nat) : (s.invoke i).result = s.result := rfl
@[simp] theorem State.invoke_netFault (s : State) (i : Nat) : (s.invoke i).netFault = s.netFault := rfl
@[simp] theorem State.invoke_hostOps (s : State) (i : Nat) : (s.invoke i).hostOps = s.hostOps := rfl
@[simp] theorem State.invoke_reply (s : State) (i : Nat) : (s.invoke i).reply = s.reply := rfl
@[simp] theorem State.engine?_invoke (s : State) (i : Nat) : (s.invoke i).engine? = s.engines[i]? := rfl
@[simp] theorem State.channel?_invoke (s : State) (i c : Nat) : (s.invoke i).channel? c = s.channel? c := rfl

/-! ### Reading back what was replaced -/

@[simp] theorem State.engine?_setEngine (s : State) (e e' : Engine) (h : s.engine? = some e) :
    (s.setEngine e').engine? = some e' := by
  have hlt : s.cur < s.engines.length := (List.getElem?_eq_some_iff.mp h).1
  simp [State.engine?, hlt]

@[simp] theorem State.engine?_setChannel (s : State) (c : Nat) (ch : Channel) : (s.setChannel c ch).engine? = s.engine? := rfl

@[simp] theorem State.channel?_setEngine (s : State) (c : Nat) (e : Engine) : (s.setEngine e).channel? c = s.channel? c := rfl

theorem State.channel?_setChannel (s : State) (c d : Nat) (ch ch' : Channel) (h : s.channel? c = some ch) :
    (s.setChannel c ch').channel? d = if d = c then some ch' else s.channel? d := by
  have hlt : c < s.channels.length := (List.getElem?_eq_some_iff.mp h).1
  by_cases hdc : d = c
  · subst hdc; simp [State.channel?, hlt]
  · simp [State.channel?, hdc, List.getElem?_set_ne (Ne.symm hdc)]

theorem State.lt_of_engine? {s : State} {e : Engine} (h : s.engine? = some e) : s.cur < s.engines.length :=
  (List.getElem?_eq_some_iff.mp h).1

theorem State.mem_of_engine? {s : State} {e : Engine} (h : s.engine? = some e) : e ∈ s.engines :=
  List.mem_of_getElem? h

/-- The update of one engine leaves every other one alone. -/
theorem State.setEngine_other (s : State) (e : Engine) (i : Nat) (hi : i ≠ s.cur) :
    (s.setEngine e).engines[i]? = s.engines[i]? := by
  simp [List.getElem?_set_ne (Ne.symm hi)]

@[simp] theorem mapNext_next (f : State → State) (s : State) : mapNext f (.next s) = .next (f s) := rfl
@[simp] theorem mapNext_fault (f : State → State) (r : Fault) : mapNext f (.fault r) = .fault r := rfl
@[simp] theorem mapNext_refused (f : State → State) (r : Refusal) : mapNext f (.refused r) = .refused r := rfl

/-- What is known of an outcome whose next state was changed. -/
theorem mapNext_eq_next {f : State → State} {o : Host.Outcome State Fault Refusal} {s' : State} (h : mapNext f o = .next s') :
    ∃ s, o = .next s ∧ s' = f s := by
  cases o with
  | next s => exact ⟨s, rfl, by simpa using h.symm⟩
  | fault r => simp at h
  | refused r => simp at h

end Sys2Proof.Machine
end

