-- ==== Sys2Proof/Laws/Exec.lean ====
section
/-! SUPPORT. Everything an instruction can do, said once: `exec_effect` gives the next state of any instruction as one of nine
effects, and later proofs split on those instead of unfolding the meanings. -/

namespace Sys2Proof.Machine

theorem permitsStep_iff {st : Status} :
    st.permitsStep = true ↔ st = .ready ∨ st = .blockedIn ∨ st = .blockedOut := by
  cases st <;> simp [Status.permitsStep]

theorem permitsStep_eq_false_iff {st : Status} : st.permitsStep = false ↔ st = .halted ∨ st = .faulted := by
  cases st <;> simp [Status.permitsStep]

/-- A meaning answers what its body answers, on the engine that is running, if its status permits an attempt. -/
theorem onEngine_of {s : State} {e : Engine} (k : Engine → Host.Outcome State Fault Refusal) (he : s.engine? = some e)
    (hp : e.status.permitsStep = true) : s.onEngine k = k e := by
  simp [State.onEngine, he, hp]

theorem onEngine_next {s s' : State} {k : Engine → Host.Outcome State Fault Refusal} (h : s.onEngine k = .next s') :
    ∃ e, s.engine? = some e ∧ e.status.permitsStep = true ∧ k e = .next s' := by
  unfold State.onEngine at h
  split at h
  · cases h
  · rename_i e he
    split at h
    · exact ⟨e, he, ‹_›, h⟩
    · cases h

/-- A buffered value is received, whether or not the producer end has been closed. -/
theorem tryRecv_value {c : Channel} {v : Int} {rest : List Int} (hr : c.rclosed = false) (hq : c.q = v :: rest) :
    c.tryRecv = (.value v, { c with q := rest }) := by
  unfold Channel.tryRecv
  simp [hr, hq]

/-- A send into an open channel with room appends. -/
theorem trySend_ok {cap : Nat} {c : Channel} (v : Int) (hw : c.wclosed = false) (hr : c.rclosed = false)
    (hroom : c.q.length < cap) : c.trySend cap v = (.ok, { c with q := c.q ++ [v] }) := by
  unfold Channel.trySend
  simp [hw, hr, Nat.not_le.mpr hroom]

/-- The faults an instruction raises: those of its operands, and of its own kind one more (R200). -/
inductive InstrTrap (e : Engine) : Instr → Trap → Prop where
  | operand {i : Instr} {t : Trap} (h : OperandTrap e t) : InstrTrap e i t
  | overflow {i : Instr} : InstrTrap e i { cause := .arithOverflow, addr := none }
  | inputClosed {m0 m1 m2 : Mode} : InstrTrap e (.inp m0 m1 m2) (Trap.of .inputClosed)
  | outputClosed {m0 m1 m2 : Mode} : InstrTrap e (.out m0 m1 m2) (Trap.of .outputClosed)
  | baseline {m0 m1 m2 : Mode} : InstrTrap e (.arb m0 m1 m2) (Trap.of .invalidOpcode)

/-- A fault records an address exactly when it is `OutOfBounds` (R28). -/
theorem InstrTrap.addr_iff {e : Engine} {i : Instr} {t : Trap} (h : InstrTrap e i t) :
    t.addr ≠ none ↔ t.cause = .outOfBounds := by
  cases h with
  | operand h =>
    obtain rfl | ⟨a, rfl, -⟩ := h <;> simp [Trap.of, Trap.outOfBounds]
  | overflow => simp
  | inputClosed => simp [Trap.of]
  | outputClosed => simp [Trap.of]
  | baseline => simp [Trap.of]

/-- The address a fault records is outside memory. -/
theorem InstrTrap.addr_outside {e : Engine} {i : Instr} {t : Trap} {a : Int} (h : InstrTrap e i t) (ha : t.addr = some a) :
    ¬(0 ≤ a ∧ a < e.mem.len) := by
  cases h with
  | operand h =>
    obtain rfl | ⟨b, rfl, hb⟩ := h
    · simp [Trap.of] at ha
    · obtain rfl : b = a := by simpa [Trap.outOfBounds] using ha
      exact hb
  | overflow => simp at ha
  | inputClosed => simp [Trap.of] at ha
  | outputClosed => simp [Trap.of] at ha
  | baseline => simp [Trap.of] at ha

/-- What an instruction does to the machine `s` whose running engine is `e`. -/
inductive Effect (s : State) (e : Engine) : Instr → State → Prop where
  | fault {i : Instr} {t : Trap} (ht : InstrTrap e i t) : Effect s e i (s.setEngine (e.raise t))
  | store {mk : Mode → Mode → Mode → Instr} {m0 m1 m2 : Mode} {a : Int} {r : Int} (hmk : mk ∈ [.add, .mul, .lt, .eq])
      (ha : writeTarget s.cfg e 3 m2 = .ok a) (hr : widthOk s.cfg.width = true → fits s.cfg.width r = true)
      (hpc : 0 ≤ e.pc + 2 ∧ e.pc + 2 < e.mem.len) :
      Effect s e (mk m0 m1 m2) (s.setEngine (e.complete (e.mem.write a r) (e.pc + 4)))
  | jump {mk : Mode → Mode → Mode → Instr} {m0 m1 m2 : Mode} {pc : Int} (hmk : mk ∈ [.jt, .jf])
      (hpc : pc = e.pc + 3 ∨ readParam s.cfg e 2 m1 = .ok pc) (hin : 0 ≤ e.pc + 2 ∧ e.pc + 2 < e.mem.len) :
      Effect s e (mk m0 m1 m2) (s.setEngine (e.complete e.mem pc))
  | halt {m0 m1 m2 : Mode} : Effect s e (.hlt m0 m1 m2) (s.setEngine e.halt)
  | adjust {m0 m1 m2 : Mode} {r : Int} (hrel : s.cfg.rel = true) (hr : widthOk s.cfg.width = true → fits s.cfg.width r = true)
      (hin : 0 ≤ e.pc + 1 ∧ e.pc + 1 < e.mem.len) :
      Effect s e (.arb m0 m1 m2) (s.setEngine ((e.setRb r).complete e.mem (e.pc + 2)))
  | receive {m0 m1 m2 : Mode} {a v : Int} {rest : List Int} {c : Channel} (ha : writeTarget s.cfg e 1 m0 = .ok a)
      (hc : s.channel? e.inCh = some c) (hopen : c.rclosed = false) (hq : c.q = v :: rest)
      (hin : 0 ≤ e.pc + 1 ∧ e.pc + 1 < e.mem.len) :
      Effect s e (.inp m0 m1 m2)
        ((s.setChannel e.inCh { c with q := rest }).setEngine (e.complete (e.mem.write a v) (e.pc + 2)))
  | blockIn {m0 m1 m2 : Mode} {a : Int} {c : Channel} (ha : writeTarget s.cfg e 1 m0 = .ok a)
      (hc : s.channel? e.inCh = some c) (hr : c.rclosed = false) (hq : c.q = []) (hw : c.wclosed = false) :
      Effect s e (.inp m0 m1 m2) (s.setEngine (e.block .blockedIn))
  | send {m0 m1 m2 : Mode} {v : Int} {c : Channel} (hv : readParam s.cfg e 1 m0 = .ok v)
      (hc : s.channel? e.outCh = some c) (hw : c.wclosed = false) (hr : c.rclosed = false) (hroom : c.q.length < s.cfg.cap)
      (hin : 0 ≤ e.pc + 1 ∧ e.pc + 1 < e.mem.len) :
      Effect s e (.out m0 m1 m2)
        ((s.setChannel e.outCh { c with q := c.q ++ [v] }).setEngine (e.complete e.mem (e.pc + 2)))
  | blockOut {m0 m1 m2 : Mode} {v : Int} {c : Channel} (hv : readParam s.cfg e 1 m0 = .ok v)
      (hc : s.channel? e.outCh = some c) (hw : c.wclosed = false) (hr : c.rclosed = false)
      (hfull : s.cfg.cap ≤ c.q.length) :
      Effect s e (.out m0 m1 m2) (s.setEngine (e.block .blockedOut))

theorem writeTarget_operand {cfg : Config} {e : Engine} {i : Nat} {m : Mode} {a : Int} (h : writeTarget cfg e i m = .ok a) :
    0 ≤ e.pc + i ∧ e.pc + i < e.mem.len := by
  unfold writeTarget operand at h
  cases hp : memRead e.mem (e.pc + i) with
  | error t => rw [hp] at h; cases h
  | ok p => exact Memory.read?_bounds (memRead_eq_ok.mp hp)

theorem effect_store {s : State} {e : Engine} {mk : Mode → Mode → Mode → Instr} {m0 m1 m2 : Mode}
    {f : Int → Int → Except Trap Int} (hmk : mk ∈ [Instr.add, Instr.mul, Instr.lt, Instr.eq])
    (hfit : ∀ va vb r, f va vb = .ok r → widthOk s.cfg.width = true → fits s.cfg.width r = true)
    (herr : ∀ va vb t, f va vb = .error t → t = { cause := .arithOverflow, addr := none }) :
    Effect s e (mk m0 m1 m2) (s.commit e (storeResult s.cfg e m0 m1 m2 f)) := by
  obtain ⟨t, h, ht | ⟨va, vb, ht⟩⟩ | ⟨va, vb, a, r, -, h2, h3, h4, h⟩ := storeResult_cases s.cfg e m0 m1 m2 f
  · rw [h]; exact .fault (.operand ht)
  · rw [h, herr _ _ _ ht]; exact .fault .overflow
  · rw [h]; exact .store hmk h3 (hfit _ _ _ h4) (readParam_operand h2)

theorem effect_jump {s : State} {e : Engine} {mk : Mode → Mode → Mode → Instr} {m0 m1 m2 : Mode} {taken : Int → Bool}
    (hmk : mk ∈ [Instr.jt, Instr.jf]) : Effect s e (mk m0 m1 m2) (s.commit e (jumpIf s.cfg e m0 m1 taken)) := by
  obtain ⟨t, h, ht⟩ | ⟨va, vb, -, h2, h⟩ := jumpIf_cases s.cfg e m0 m1 taken
  · rw [h]; exact .fault (.operand ht)
  · rw [h]
    refine .jump hmk ?_ (readParam_operand h2)
    by_cases ht : taken va = true <;> simp [ht, h2]

theorem fits_boolWord {w : Width} (hw : widthOk w = true) (b : Bool) : fits w (boolWord b) = true := by
  cases b <;> exact fits_small hw (by simp [boolWord]) (by simp [boolWord])

/-- What an instruction answers on an engine that may attempt it, and whose channels are attached. -/
theorem exec_effect {i : Instr} {s s' : State} (h : exec i s = .next s') :
    ∃ e, s.engine? = some e ∧ e.status.permitsStep = true ∧ Effect s e i s' := by
  cases i with
  | add m0 m1 m2 =>
    obtain ⟨e, he, hp, hk⟩ := onEngine_next h
    cases hk
    exact ⟨e, he, hp, effect_store (by simp) (fun _ _ _ h hw => arith_fits hw h) (fun _ _ _ h => arith_error h)⟩
  | mul m0 m1 m2 =>
    obtain ⟨e, he, hp, hk⟩ := onEngine_next h
    cases hk
    exact ⟨e, he, hp, effect_store (by simp) (fun _ _ _ h hw => arith_fits hw h) (fun _ _ _ h => arith_error h)⟩
  | lt m0 m1 m2 =>
    obtain ⟨e, he, hp, hk⟩ := onEngine_next h
    cases hk
    exact ⟨e, he, hp, effect_store (by simp) (fun _ _ _ h hw => by cases h; exact fits_boolWord hw _)
      (fun _ _ _ h => by cases h)⟩
  | eq m0 m1 m2 =>
    obtain ⟨e, he, hp, hk⟩ := onEngine_next h
    cases hk
    exact ⟨e, he, hp, effect_store (by simp) (fun _ _ _ h hw => by cases h; exact fits_boolWord hw _)
      (fun _ _ _ h => by cases h)⟩
  | jt m0 m1 m2 =>
    obtain ⟨e, he, hp, hk⟩ := onEngine_next h
    cases hk
    exact ⟨e, he, hp, effect_jump (by simp)⟩
  | jf m0 m1 m2 =>
    obtain ⟨e, he, hp, hk⟩ := onEngine_next h
    cases hk
    exact ⟨e, he, hp, effect_jump (by simp)⟩
  | hlt m0 m1 m2 =>
    obtain ⟨e, he, hp, hk⟩ := onEngine_next h
    cases hk
    exact ⟨e, he, hp, .halt⟩
  | arb m0 m1 m2 =>
    obtain ⟨e, he, hp, hk⟩ := onEngine_next h
    cases hk
    refine ⟨e, he, hp, ?_⟩
    unfold adjustBase
    by_cases hrel : s.cfg.rel = true
    · simp only [hrel, if_true]
      cases h1 : readParam s.cfg e 1 m0 with
      | error t => exact .fault (.operand (readParam_error h1))
      | ok va =>
        cases h2 : arith s.cfg (e.rb + va) with
        | error t =>
          simp only [bind, Except.bind, h2, arith_error h2]
          exact .fault .overflow
        | ok r =>
          simp only [bind, Except.bind, h2]
          exact .adjust hrel (fun hw => arith_fits hw h2) (readParam_operand h1)
    · simp only [hrel]
      exact .fault .baseline
  | inp m0 m1 m2 =>
    obtain ⟨e, he, hp, hk⟩ := onEngine_next h
    refine ⟨e, he, hp, ?_⟩
    cases h1 : writeTarget s.cfg e 1 m0 with
    | error t =>
      simp only [h1] at hk
      cases hk
      exact .fault (.operand (writeTarget_error h1))
    | ok a =>
      simp only [h1] at hk
      cases hc : s.channel? e.inCh with
      | none => simp only [hc] at hk; cases hk
      | some c =>
        simp only [hc] at hk
        cases hk
        by_cases hr : c.rclosed = true
        · simp only [Channel.tryRecv, hr, if_true, inputFrom]
          exact .fault .inputClosed
        · rw [Bool.not_eq_true] at hr
          cases hq : c.q with
          | cons v rest =>
            rw [tryRecv_value hr hq]
            simp only [inputFrom, memWrite_of_inBounds (writeTarget_ok h1)]
            exact .receive h1 hc hr hq (writeTarget_operand h1)
          | nil =>
            by_cases hw : c.wclosed = true
            · simp only [Channel.tryRecv, hr, hq, hw, if_true, inputFrom]
              exact .fault .inputClosed
            · rw [Bool.not_eq_true] at hw
              simp only [Channel.tryRecv, hr, hq, hw, inputFrom]
              exact .blockIn h1 hc hr hq hw
  | out m0 m1 m2 =>
    obtain ⟨e, he, hp, hk⟩ := onEngine_next h
    refine ⟨e, he, hp, ?_⟩
    cases h1 : readParam s.cfg e 1 m0 with
    | error t =>
      simp only [h1] at hk
      cases hk
      exact .fault (.operand (readParam_error h1))
    | ok v =>
      simp only [h1] at hk
      cases hc : s.channel? e.outCh with
      | none => simp only [hc] at hk; cases hk
      | some c =>
        simp only [hc] at hk
        cases hk
        by_cases hcl : (c.wclosed || c.rclosed) = true
        · simp only [Channel.trySend, hcl, if_true, outputTo]
          exact .fault .outputClosed
        · have hw : c.wclosed = false ∧ c.rclosed = false := by simpa using hcl
          by_cases hfull : s.cfg.cap ≤ c.q.length
          · simp only [Channel.trySend, hcl, hfull, if_true, outputTo]
            exact .blockOut h1 hc hw.1 hw.2 hfull
          · simp only [Channel.trySend, hcl, hfull, outputTo]
            exact .send h1 hc hw.1 hw.2 (by omega) (readParam_operand h1)

/-- An attempt executes what the fetch and the decoding give. -/
theorem attempt_eq {s : State} {e : Engine} (he : s.engine? = some e) :
    attempt s = match fetchDecode s.cfg e with
      | .error t => .next (s.setEngine (e.raise t))
      | .ok i => exec i s := by
  cases hf : fetchDecode s.cfg e <;> simp [attempt, he, hf]

/-- What an attempt does: it raises a fault of the fetch or the decoding, or has an effect of the instruction that was
decoded. -/
theorem attempt_cases {s s' : State} (h : attempt s = .next s') :
    ∃ e, s.engine? = some e ∧
      ((∃ t, fetchDecode s.cfg e = .error t ∧ s' = s.setEngine (e.raise t)) ∨
       (∃ i, fetchDecode s.cfg e = .ok i ∧ e.status.permitsStep = true ∧ Effect s e i s')) := by
  unfold attempt at h
  cases he : s.engine? with
  | none => simp only [he] at h; cases h
  | some e =>
    simp only [he] at h
    cases hf : fetchDecode s.cfg e with
    | error t => simp only [hf] at h; cases h; exact ⟨e, rfl, .inl ⟨t, hf, rfl⟩⟩
    | ok i =>
      simp only [hf] at h
      obtain ⟨e', he', hp, heff⟩ := exec_effect h
      obtain rfl : e = e' := by simpa [he] using he'
      exact ⟨e, rfl, .inr ⟨i, hf, hp, heff⟩⟩

/-- The faults of fetch and decoding. -/
theorem fetchDecode_error {cfg : Config} {e : Engine} {t : Trap} (h : fetchDecode cfg e = .error t) :
    (e.mem.read? e.pc = none ∧ t = Trap.outOfBounds e.pc) ∨
    (e.mem.read? e.pc ≠ none ∧ (t = Trap.of .invalidOpcode ∨ t = Trap.of .invalidMode)) := by
  unfold fetchDecode at h
  cases hr : memRead e.mem e.pc with
  | error t' =>
    rw [hr] at h
    cases h
    exact .inl (memRead_eq_error.mp hr)
  | ok iw =>
    rw [hr] at h
    refine .inr ⟨by rw [memRead_eq_ok.mp hr]; simp, ?_⟩
    cases hd : decode cfg.rel iw with
    | ok i => simp only [bind, Except.bind, hd] at h; cases h
    | error d => simp only [bind, Except.bind, hd] at h; cases h; cases d <;> simp [trapOfDecodeError]

theorem fetchDecode_ok {cfg : Config} {e : Engine} {i : Instr} (h : fetchDecode cfg e = .ok i) :
    ∃ iw, e.mem.read? e.pc = some iw ∧ decode cfg.rel iw = .ok i := by
  unfold fetchDecode at h
  cases hr : memRead e.mem e.pc with
  | error t => rw [hr] at h; cases h
  | ok iw =>
    rw [hr] at h
    refine ⟨iw, memRead_eq_ok.mp hr, ?_⟩
    cases hd : decode cfg.rel iw with
    | ok j => simp only [bind, Except.bind, hd] at h; cases h; rfl
    | error d => simp only [bind, Except.bind, hd] at h; cases h

/-- An effect changes the running engine and channels, and nothing else of the machine. -/
theorem Effect.frame {s s' : State} {e : Engine} {i : Instr} (he : s.engine? = some e) (h : Effect s e i s') :
    ∃ e' chs, s' = { s.setEngine e' with channels := chs } ∧ s'.engine? = some e' ∧ e'.inCh = e.inCh ∧ e'.outCh = e.outCh ∧
      e'.mem.len = e.mem.len := by
  cases h with
  | receive => exact ⟨_, _, rfl, State.engine?_setEngine _ e _ he, rfl, rfl, rfl⟩
  | send => exact ⟨_, _, rfl, State.engine?_setEngine _ e _ he, rfl, rfl, rfl⟩
  | _ => exact ⟨_, s.channels, rfl, State.engine?_setEngine _ e _ he, rfl, rfl, rfl⟩

/-- What an effect does to a channel: nothing, or it takes the head of the input channel, or appends to the output channel. -/
theorem Effect.channel {s s' : State} {e : Engine} {i : Instr} (h : Effect s e i s') (c : Nat) (ch : Channel)
    (hc : s.channels[c]? = some ch) :
    s'.channels[c]? = some ch ∨
    (∃ v rest, c = e.inCh ∧ ch.q = v :: rest ∧ s'.channels[c]? = some { ch with q := rest }) ∨
    (∃ v m0 m1 m2, c = e.outCh ∧ i = .out m0 m1 m2 ∧ readParam s.cfg e 1 m0 = .ok v ∧ ch.q.length < s.cfg.cap ∧
      s'.channels[c]? = some { ch with q := ch.q ++ [v] }) := by
  have hlt : c < s.channels.length := (List.getElem?_eq_some_iff.mp hc).1
  cases h with
  | @receive m0 m1 m2 a v rest c' ha hc' hopen hq hin =>
    by_cases hce : c = e.inCh
    · subst hce
      obtain rfl : c' = ch := by simpa [State.channel?, hc] using hc'.symm
      exact .inr (.inl ⟨v, rest, rfl, hq, by simp [hlt]⟩)
    · exact .inl (by simp [List.getElem?_set_ne (Ne.symm hce), hc])
  | @send m0 m1 m2 v c' hv hc' hw hr hroom hin =>
    by_cases hce : c = e.outCh
    · subst hce
      obtain rfl : c' = ch := by simpa [State.channel?, hc] using hc'.symm
      exact .inr (.inr ⟨v, m0, m1, m2, rfl, rfl, hv, hroom, by simp [hlt]⟩)
    · exact .inl (by simp [List.getElem?_set_ne (Ne.symm hce), hc])
  | _ => exact .inl (by simpa using hc)

/-- An attempt changes the running engine and channels, and nothing else of the machine. -/
theorem attempt_frame {s s' : State} (h : attempt s = .next s') :
    ∃ e e' chs, s.engine? = some e ∧ s' = { s.setEngine e' with channels := chs } ∧ s'.engine? = some e' ∧
      e'.inCh = e.inCh ∧ e'.outCh = e.outCh ∧ e'.mem.len = e.mem.len := by
  obtain ⟨e, he, ⟨t, -, rfl⟩ | ⟨i, -, -, heff⟩⟩ := attempt_cases h
  · exact ⟨e, _, s.channels, he, rfl, State.engine?_setEngine _ _ _ he, rfl, rfl, rfl⟩
  · obtain ⟨e', chs, hs, he', hrest⟩ := heff.frame he
    exact ⟨e, e', chs, he, hs, he', hrest⟩

end Sys2Proof.Machine
end

