-- ==== Sys2Proof/Laws/Channels.lean ====
section
/-! SUPPORT. What the channel operations keep: the closed flags, the bound and the range of the items; and what a drain
takes. -/

namespace Sys2Proof.Machine

theorem Channel.tryRecv_flags (c : Channel) : c.tryRecv.2.wclosed = c.wclosed ∧ c.tryRecv.2.rclosed = c.rclosed := by
  unfold Channel.tryRecv; split <;> (try split) <;> (try split) <;> exact ⟨rfl, rfl⟩

theorem Channel.trySend_flags (cap : Nat) (c : Channel) (v : Int) :
    (c.trySend cap v).2.wclosed = c.wclosed ∧ (c.trySend cap v).2.rclosed = c.rclosed := by
  unfold Channel.trySend; split <;> (try split) <;> exact ⟨rfl, rfl⟩

theorem Channel.popUpTo_flags (n : Nat) (c : Channel) :
    (Channel.popUpTo n c).2.wclosed = c.wclosed ∧ (Channel.popUpTo n c).2.rclosed = c.rclosed := by
  induction n generalizing c with
  | zero => exact ⟨rfl, rfl⟩
  | succ n ih =>
    unfold Channel.popUpTo
    have hr := c.tryRecv_flags
    split
    · rename_i v c' h; rw [h] at hr; exact ⟨(ih c').1.trans hr.1, (ih c').2.trans hr.2⟩
    · exact ⟨rfl, rfl⟩
    · exact ⟨rfl, rfl⟩

theorem Channel.drain_flags (c : Channel) : c.drain.2.wclosed = c.wclosed ∧ c.drain.2.rclosed = c.rclosed :=
  Channel.popUpTo_flags _ _

/-- A drain takes everything there is, in order, from a channel whose consumer end is open (R71). -/
theorem Channel.drain_open (c : Channel) (h : c.rclosed = false) : c.drain = (c.q, { c with q := [] }) := by
  have key : ∀ (q : List Int) (c : Channel), c.rclosed = false → c.q = q →
      Channel.popUpTo q.length c = (q, { c with q := [] }) := by
    intro q
    induction q with
    | nil => intro c h hq; cases c; simp_all [Channel.popUpTo]
    | cons v r ih =>
      intro c h hq
      simp only [List.length_cons, Channel.popUpTo, tryRecv_value h hq]
      rw [ih _ (by simpa using h) rfl]
  exact key _ c h rfl

theorem Channel.Inv.trySend {cfg : Config} {ch : Channel} {v : Int} (h : ch.Inv cfg) (hv : fits cfg.width v = true) :
    (ch.trySend cfg.cap v).2.Inv cfg := by
  unfold Channel.trySend
  split
  · exact h
  · split
    · exact h
    · refine ⟨by simp; omega, fun w hw => ?_⟩
      simp at hw
      rcases hw with hw | rfl
      · exact h.items w hw
      · exact hv

theorem Channel.Inv.tryRecv {cfg : Config} {ch : Channel} (h : ch.Inv cfg) : ch.tryRecv.2.Inv cfg := by
  unfold Channel.tryRecv
  split
  · exact h
  · split
    · rename_i v rest hq
      have hb := h.bounded
      rw [hq] at hb
      simp at hb
      exact ⟨by simp; omega, fun w hw => h.items w (by rw [hq]; exact List.mem_cons_of_mem _ hw)⟩
    · split <;> exact h

/-- A drain keeps the invariant, and the values it takes were in the channel. -/
theorem Channel.Inv.popUpTo {cfg : Config} (n : Nat) (ch : Channel) (h : ch.Inv cfg) :
    (Channel.popUpTo n ch).2.Inv cfg ∧ ∀ v ∈ (Channel.popUpTo n ch).1, v ∈ ch.q := by
  induction n generalizing ch with
  | zero => exact ⟨h, fun v hv => by simp [Channel.popUpTo] at hv⟩
  | succ n ih =>
    unfold Channel.popUpTo
    have hr := h.tryRecv
    split
    · rename_i v c' hh
      rw [hh] at hr
      have hq : ch.q = v :: c'.q := by
        unfold Channel.tryRecv at hh
        cases hq : ch.q with
        | nil => simp only [hq] at hh; split_ifs at hh <;> cases hh
        | cons a l => simp only [hq] at hh; split_ifs at hh <;> cases hh; rfl
      refine ⟨(ih c' hr).1, fun w hw => ?_⟩
      simp at hw
      rcases hw with rfl | hw
      · simp [hq]
      · rw [hq]; exact List.mem_cons_of_mem _ ((ih c' hr).2 w hw)
    · exact ⟨h, fun v hv => by simp at hv⟩
    · exact ⟨h, fun v hv => by simp at hv⟩

end Sys2Proof.Machine
end

