-- ==== Sys2Proof/Laws/Decode.lean ====
section
/-! SUPPORT. What the decoder's two tables and the decoder itself answer, said once. -/

namespace Sys2Proof

theorem modeOfDigit_some {rel : Bool} {d : Nat} {m : Mode} (h : modeOfDigit rel d = some m) :
    m.digit = d ∧ m.wf rel = true := by
  unfold modeOfDigit at h
  split at h
  · cases h; exact ⟨rfl, rfl⟩
  · cases h; exact ⟨rfl, rfl⟩
  · split at h
    · cases h; exact ⟨rfl, ‹_›⟩
    · cases h
  · cases h

theorem modeOfDigit_digit {rel : Bool} {m : Mode} (h : m.wf rel = true) : modeOfDigit rel m.digit = some m := by
  cases m <;> simp_all [Mode.wf, Mode.digit, modeOfDigit]

/-- The digits that are no mode of the profile (R8, R60). -/
theorem modeOfDigit_none {rel : Bool} {d : Nat} : modeOfDigit rel d = none ↔ (if rel then 2 else 1) < d := by
  unfold modeOfDigit
  split
  · cases rel <;> simp
  · cases rel <;> simp
  · cases rel <;> simp
  · rename_i h0 h1 h2
    have h0 : d ≠ 0 := h0
    have h1 : d ≠ 1 := h1
    have h2 : d ≠ 2 := h2
    cases rel <;> simp <;> omega

/-- What the opcode map builds has that opcode, those modes, and an opcode of the profile (R93). -/
theorem instrOfOpcode_some {rel : Bool} {op : Nat} {mk : Mode → Mode → Mode → Instr} (h : instrOfOpcode rel op = some mk)
    (a b c : Mode) : (mk a b c).opcode = op ∧ (mk a b c).modes = (a, b, c) ∧ (mk a b c).opcodeWf rel = true := by
  unfold instrOfOpcode at h
  split at h
  all_goals first
    | (cases h; exact ⟨rfl, rfl, rfl⟩)
    | (split at h
       · cases h; exact ⟨rfl, rfl, ‹_›⟩
       · cases h)
    | cases h

/-- Everything the decoder can accept. -/
theorem decode_eq_ok {rel : Bool} {iw : Int} {i : Instr} :
    decode rel iw = .ok i ↔ 0 ≤ iw ∧ ∃ mk a b c, instrOfOpcode rel (iw.toNat % 100) = some mk ∧
      modeOfDigit rel (digit 2 iw.toNat) = some a ∧ modeOfDigit rel (digit 3 iw.toNat) = some b ∧
      modeOfDigit rel (digit 4 iw.toNat) = some c ∧ i = mk a b c := by
  unfold decode
  by_cases hneg : iw < 0
  · simp [hneg]; try omega
  · simp only [hneg, if_false]
    cases hop : instrOfOpcode rel (iw.toNat % 100) with
    | none => simp
    | some mk =>
      cases ha : modeOfDigit rel (digit 2 iw.toNat) <;> cases hb : modeOfDigit rel (digit 3 iw.toNat) <;>
        cases hc : modeOfDigit rel (digit 4 iw.toNat) <;> simp [eq_comm] <;> (try (intros; omega))

end Sys2Proof
end

