-- ==== Sys2Proof/Laws/Step.lean ====
section
/-! SUPPORT. Everything a step of the machine can do, said once: `step_cases` splits a step into an attempt of a run, the end of
a run, an operation of the external driver and an action of the composer; `hostStep_cases` and `composerStep_cases` say what
the last two do. -/

namespace Sys2Proof.Machine

/-! ### The composer -/

/-- One action of the composer, as a change of the state. -/
inductive ComposerMove (s : State) : State → Prop where
  /-- a preload push was accepted -/
  | push {i c : Nat} {v : Int} {ch : Channel} {p : Phase} (hph : s.phase = .preload i) (hv : v ∈ s.phases ∨ v = s.cfg.seed)
      (hp : p = .preload (i + 1) ∨ p = phaseAfterPreload s.driver) (hc : s.channel? c = some ch)
      (hroom : ch.q.length < s.cfg.cap) :
      ComposerMove s ((s.setChannel c { ch with q := ch.q ++ [v] }).goTo 0 p)
  /-- the composer stopped with a network fault -/
  | fail {f : NetFault} (hph : s.phase ≠ .idle ∧ s.phase ≠ .done ∧ s.phase ≠ .failed) : ComposerMove s (s.failWith f)
  /-- the composer went on within a pass or began the next -/
  | go {i : Nat} {p : Phase} (hph : s.phase = .visit ∨ s.phase = .await ∨ s.phase = .threads)
      (hp : p = .visit ∨ p = .extract) : ComposerMove s (s.goTo i p)
  /-- `run` was invoked on engine `cur` -/
  | run (hph : s.phase = .visit) (hh : s.halted[s.cur]? = some false) :
      ComposerMove s { s with running := true, phase := .await }
  /-- engine `cur` was marked as halted -/
  | mark {e : Engine} (hph : s.phase = .await) (he : s.engine? = some e) (hst : e.status = .halted) :
      ComposerMove s (({ s with halted := s.halted.set s.cur true } : State).goTo (s.cur + 1) .visit)
  /-- every engine of a concurrent network was marked as halted -/
  | markAll (hph : s.phase = .threads) (hall : ∀ e ∈ s.engines, e.status = .halted) :
      ComposerMove s (({ s with halted := s.engines.map fun _ => true } : State).goTo s.cur .extract)
  /-- the result was extracted -/
  | extract {ch : Channel} {v : Int} (hph : s.phase = .extract)
      (hc : s.channel? (terminalIndex s.topo s.engines.length) = some ch) (hv : v ∈ ch.drain.1) :
      ComposerMove s { s.setChannel (terminalIndex s.topo s.engines.length) ch.drain.2 with result := some v, phase := .done }
  /-- there was nothing to do -/
  | rest (hph : s.phase = .idle ∨ s.phase = .done ∨ s.phase = .failed ∨ s.phase = .threads) : ComposerMove s s

theorem preloadPush_move {s s' : State} {i c : Nat} {v : Int} {p : Phase} (hph : s.phase = .preload i)
    (hv : v ∈ s.phases ∨ v = s.cfg.seed) (hp : p = .preload (i + 1) ∨ p = phaseAfterPreload s.driver)
    (h : preloadPush s c v p = .next s') : ComposerMove s s' := by
  have hbusy : s.phase ≠ .idle ∧ s.phase ≠ .done ∧ s.phase ≠ .failed := by simp [hph]
  unfold preloadPush at h
  cases hc : s.channel? c with
  | none => simp only [hc] at h; cases h
  | some ch =>
    simp only [hc] at h
    by_cases hcl : (ch.wclosed || ch.rclosed) = true
    · simp only [Channel.trySend, hcl, if_true] at h
      cases h; exact .fail hbusy
    · by_cases hfull : s.cfg.cap ≤ ch.q.length
      · simp only [Channel.trySend, hcl, hfull, if_true] at h
        cases h; exact .fail hbusy
      · simp only [Channel.trySend, hcl, hfull, if_false] at h
        cases h; exact .push hph hv hp hc (by omega)

theorem endOfPass_move {s : State} (hph : s.phase = .visit) : ComposerMove s (endOfPass s) := by
  unfold endOfPass
  split
  · exact .go (.inl hph) (.inr rfl)
  · split
    · exact .go (.inl hph) (.inr rfl)
    · exact .go (.inl hph) (.inl rfl)

theorem visitStep_move {s : State} (hph : s.phase = .visit) : ComposerMove s (visitStep s) := by
  unfold visitStep
  split
  · exact endOfPass_move hph
  · exact .go (.inl hph) (.inl rfl)
  · exact .run hph ‹_›

theorem awaitStep_move {s s' : State} {e : Engine} (hph : s.phase = .await) (he : s.engine? = some e)
    (h : awaitStep s e = .next s') : ComposerMove s s' := by
  have hbusy : s.phase ≠ .idle ∧ s.phase ≠ .done ∧ s.phase ≠ .failed := by simp [hph]
  unfold awaitStep at h
  split at h
  · cases h; exact .mark hph he ‹_›
  · split at h
    · cases h; exact .fail hbusy
    · cases h; exact .go (.inr (.inl hph)) (.inl rfl)
  · split at h
    · cases h; exact .fail hbusy
    · cases h; exact .go (.inr (.inl hph)) (.inl rfl)
  · cases h; exact .fail hbusy
  · cases h

theorem threadsStep_move {s : State} (hph : s.phase = .threads) : ComposerMove s (threadsStep s) := by
  have hbusy : s.phase ≠ .idle ∧ s.phase ≠ .done ∧ s.phase ≠ .failed := by simp [hph]
  unfold threadsStep
  split
  · exact .fail hbusy
  · split
    · rename_i hall
      exact .markAll hph (by simpa using hall)
    · exact .rest (.inr (.inr (.inr hph)))

theorem extractStep_move {s s' : State} (hph : s.phase = .extract) (h : extractStep s = .next s') : ComposerMove s s' := by
  have hbusy : s.phase ≠ .idle ∧ s.phase ≠ .done ∧ s.phase ≠ .failed := by simp [hph]
  unfold extractStep at h
  split at h
  · cases h
  · rename_i ch hc
    split at h
    · cases h; exact .fail hbusy
    · rename_i v hv
      cases h; exact .extract hph hc (List.mem_of_getLast? hv)

/-- Everything one action of the composer can do. -/
theorem composerStep_cases {s s' : State} (h : composerStep s = .next s') : ComposerMove s s' := by
  unfold composerStep at h
  split at h
  · rename_i i hph
    unfold preloadStep at h
    split at h
    · exact preloadPush_move hph (.inl (List.mem_of_getElem? ‹_›)) (.inl rfl) h
    · split at h
      · cases h
      · exact preloadPush_move hph (.inr rfl) (.inr rfl) h
  · cases h; exact visitStep_move ‹_›
  · split at h
    · cases h
    · exact awaitStep_move ‹_› ‹_› h
  · cases h; exact threadsStep_move ‹_›
  · exact extractStep_move ‹_› h
  · cases h; exact .rest (.inl ‹_›)
  · cases h; exact .rest (.inr (.inl ‹_›))
  · cases h; exact .rest (.inr (.inr (.inl ‹_›)))

/-! ### The external driver -/

theorem loopOver_iff {p : Phase} : p.loopOver = true ↔ p = .idle ∨ p = .extract ∨ p = .done ∨ p = .failed := by
  cases p <;> simp [Phase.loopOver]

theorem allowsRun_iff {p : Phase} : p.allowsRun = true ↔ p.loopOver = true ∨ p = .threads := by
  cases p <;> simp [Phase.loopOver, Phase.allowsRun]

theorem State.hostPreloads_iff {s : State} {c : Nat} :
    s.hostPreloads c = true ↔ s.phase = .idle ∧ s.hostStarted = false ∧ ∃ e ∈ s.engines, e.inCh = c := by
  simp [State.hostPreloads, and_assoc]

/-- One operation of the external driver, as a change of the state. -/
inductive HostMove (s : State) : HostOp → State → Prop where
  | launch {net : Net} (hok : launchOk s.cfg net = true) : HostMove s (.launch net) (s.launched net)
  | load {i : Nat} {image : List Int} {e : Engine} (hph : s.phase.loopOver = true) (he : s.engines[i]? = some e)
      (hok : imageOk s.cfg image = true) :
      HostMove s (.load i image)
        (({ s with engines := s.engines.set i (Engine.load image e.inCh e.outCh) } : State).answer .done)
  | run {i : Nat} {e : Engine} (hph : s.phase.allowsRun = true) (he : s.engines[i]? = some e) :
      HostMove s (.run i) { s.invoke i with running := true }
  | attempt {i : Nat} {s' : State} {e : Engine} (hph : s.phase.allowsRun = true) (he : s.engines[i]? = some e)
      (hp : e.status.permitsStep = true) (h : Machine.attempt (s.invoke i) = .next s') : HostMove s (.attempt i) s'
  | ended {i : Nat} {e : Engine} (hph : s.phase.allowsRun = true) (he : s.engines[i]? = some e)
      (hp : e.status.permitsStep = false) : HostMove s (.attempt i) (s.invoke i)
  | push {c : Nat} {v : Int} {ch : Channel} (hown : s.hostMayPush c = true)
      (hc : s.channel? c = some ch) (hv : fits s.cfg.width v = true) :
      HostMove s (.push c v) ((s.setChannel c (ch.trySend s.cfg.cap v).2).answer (.sent (ch.trySend s.cfg.cap v).1))
  | pop {c : Nat} {ch : Channel} (hph : s.phase.loopOver = true)
      (hown : s.hostConsumes c = true) (hc : s.channel? c = some ch) :
      HostMove s (.pop c) ((s.setChannel c ch.tryRecv.2).answer (.received ch.tryRecv.1))
  | drain {c : Nat} {ch : Channel} (hph : s.phase.loopOver = true)
      (hown : s.hostConsumes c = true) (hc : s.channel? c = some ch) :
      HostMove s (.drain c) ((s.setChannel c ch.drain.2).answer (.drained ch.drain.1))
  | close {c : Nat} {e : ChannelEnd} {ch : Channel} (hc : s.channel? c = some ch) :
      HostMove s (.close c e) ((s.setChannel c (ch.close e)).answer .done)
  | yield {s' : State} (h : composerStep s = .next s') : HostMove s .yield s'

/-- Everything one operation of the external driver can do. -/
theorem hostStep_cases {s s' : State} {op : HostOp} (h : hostStep op s = .next s') : HostMove s op s' := by
  cases op with
  | launch net =>
    simp only [hostStep, launchOp] at h
    split_ifs at h with h1
    cases h; exact .launch h1
  | load i image =>
    simp only [hostStep, loadOp] at h
    split at h
    · rename_i h1
      split at h
      · cases h
      · rename_i e he
        split at h
        · cases h; exact .load h1 he ‹_›
        · cases h
    · cases h
  | run i =>
    simp only [hostStep, runOp] at h
    split_ifs at h with h1
    split at h
    · cases h
    · cases h; exact .run h1 ‹_›
  | attempt i =>
    simp only [hostStep, attemptOp] at h
    split_ifs at h with h1
    split at h
    · cases h
    · rename_i e he
      split_ifs at h with h2
      · exact .attempt h1 he h2 h
      · cases h; exact .ended h1 he (by simpa using h2)
  | push c v =>
    simp only [hostStep, pushOp] at h
    split at h
    · cases h
    · split_ifs at h with h1 h2
      cases h; exact .push h1 ‹_› h2
  | pop c =>
    simp only [hostStep, popOp, Bool.and_eq_true] at h
    split at h
    · cases h
    · split_ifs at h with h1
      cases h; exact .pop h1.1 h1.2 ‹_›
  | drain c =>
    simp only [hostStep, drainOp, Bool.and_eq_true] at h
    split at h
    · cases h
    · split_ifs at h with h1
      cases h; exact .drain h1.1 h1.2 ‹_›
  | close c e =>
    simp only [hostStep, closeOp] at h
    split at h
    · cases h
    · cases h; exact .close ‹_›
  | yield => exact .yield h

/-! ### The step -/

/-- Everything a step can do. -/
inductive Move (s : State) : State → Prop where
  /-- an attempt of the run in progress, after which the run goes on or returns -/
  | attempt {s1 : State} {e : Engine} (hr : s.running = true) (he : s.engine? = some e) (hp : e.status.permitsStep = true)
      (h : Machine.attempt s = .next s1) : Move s s1.afterAttempt
  /-- a run of an engine that has ended returns at once -/
  | ended {e : Engine} (hr : s.running = true) (he : s.engine? = some e) (hp : e.status.permitsStep = false) :
      Move s s.endRun
  /-- an operation of the external driver -/
  | host {op : HostOp} {rest : List HostOp} {s' : State} (hr : s.running = false) (hops : s.hostOps = op :: rest)
      (h : HostMove { s with hostOps := rest } op s') : Move s s'
  /-- an action of the composer -/
  | composer {s' : State} (hr : s.running = false) (hops : s.hostOps = []) (h : ComposerMove s s') : Move s s'

theorem step_cases {s s' : State} (h : step s = .next s') : Move s s' := by
  unfold step at h
  split_ifs at h with hr
  · unfold runStep at h
    split at h
    · cases h
    · rename_i e he
      split_ifs at h with hp
      · obtain ⟨s1, h1, rfl⟩ := mapNext_eq_next h
        exact .attempt hr he hp h1
      · cases h; exact .ended hr he (by simpa using hp)
  · rw [Bool.not_eq_true] at hr
    split at h
    · exact .host hr ‹_› (hostStep_cases h)
    · exact .composer hr ‹_› (composerStep_cases h)

/-- After an attempt only the run's own registers differ. -/
theorem State.afterAttempt_cases (s : State) :
    (s.afterAttempt = s ∧ s.engine?.map (·.status) = some .ready) ∨
    (s.afterAttempt = s.endRun ∧ s.engine?.map (·.status) ≠ some .ready) := by
  unfold State.afterAttempt
  split
  · exact .inl ⟨rfl, ‹_›⟩
  · exact .inr ⟨rfl, ‹_›⟩

@[simp] theorem State.afterAttempt_cfg (s : State) : s.afterAttempt.cfg = s.cfg := by
  obtain ⟨h, -⟩ | ⟨h, -⟩ := s.afterAttempt_cases <;> simp [h]
@[simp] theorem State.afterAttempt_engines (s : State) : s.afterAttempt.engines = s.engines := by
  obtain ⟨h, -⟩ | ⟨h, -⟩ := s.afterAttempt_cases <;> simp [h]
@[simp] theorem State.afterAttempt_channels (s : State) : s.afterAttempt.channels = s.channels := by
  obtain ⟨h, -⟩ | ⟨h, -⟩ := s.afterAttempt_cases <;> simp [h]
@[simp] theorem State.afterAttempt_cur (s : State) : s.afterAttempt.cur = s.cur := by
  obtain ⟨h, -⟩ | ⟨h, -⟩ := s.afterAttempt_cases <;> simp [h]
@[simp] theorem State.afterAttempt_phase (s : State) : s.afterAttempt.phase = s.phase := by
  obtain ⟨h, -⟩ | ⟨h, -⟩ := s.afterAttempt_cases <;> simp [h]
@[simp] theorem State.afterAttempt_hostStarted (s : State) : s.afterAttempt.hostStarted = s.hostStarted := by
  obtain ⟨h, -⟩ | ⟨h, -⟩ := s.afterAttempt_cases <;> simp [h]
@[simp] theorem State.afterAttempt_halted (s : State) : s.afterAttempt.halted = s.halted := by
  obtain ⟨h, -⟩ | ⟨h, -⟩ := s.afterAttempt_cases <;> simp [h]

end Sys2Proof.Machine
end

