-- ==== Sys2Proof/Laws/Invariant.lean ====
section
/-! SUPPORT. What the operations on an engine, the construction of a network and the reading of memory make of the invariant;
which instructions answer a next state. -/

namespace Sys2Proof.Machine

theorem State.Inv.widthOk {s : State} (h : s.Inv) : Machine.widthOk s.cfg.width = true := by
  have hc := h.config
  simp [configOk] at hc
  exact hc.1.1

/-- Every cell holds a word, those that are not listed too. -/
theorem Engine.Inv.read_fits {cfg : Config} {e : Engine} {a v : Int} (h : e.Inv cfg) (hw : Machine.widthOk cfg.width = true)
    (hr : e.mem.read? a = some v) : fits cfg.width v = true := by
  unfold Memory.read? at hr
  split_ifs at hr
  cases hr
  exact lookupCell_forall (P := fun v => fits cfg.width v = true) (fits_small hw (by omega) (by omega)) h.cells _

theorem Engine.Inv.raise {cfg : Config} {e : Engine} {t : Trap} (h : e.Inv cfg)
    (ht : t.addr ≠ none ↔ t.cause = .outOfBounds) : (e.raise t).Inv cfg := by
  refine ⟨h.memWf, h.memLen, h.cells, h.pcFits, h.rbFits, h.rbBase, ?_, ?_, ?_⟩
  · intro h; simp at h
  · intro _; simp
  · simpa using ht

theorem Engine.Inv.complete {cfg : Config} {e : Engine} {mem : Memory} {pc : Int} (h : e.Inv cfg) (hp : e.status ≠ .faulted)
    (hwf : mem.wf = true) (hlen : mem.len = e.mem.len) (hcells : ∀ c ∈ mem.cells, fits cfg.width c.2 = true)
    (hpc : fits cfg.width pc = true) : (e.complete mem pc).Inv cfg := by
  have hfr := h.recordEmpty hp
  exact ⟨hwf, by simpa [hlen] using h.memLen, hcells, hpc, h.rbFits, h.rbBase, fun _ => hfr, fun h => by simp at h,
    h.recordAddr⟩

theorem Engine.Inv.block {cfg : Config} {e : Engine} {st : Status} (h : e.Inv cfg) (hp : e.status ≠ .faulted)
    (hst : st ≠ .faulted) : (e.block st).Inv cfg := by
  have hfr := h.recordEmpty hp
  exact ⟨h.memWf, h.memLen, h.cells, h.pcFits, h.rbFits, h.rbBase, fun _ => hfr, fun h => absurd h hst, h.recordAddr⟩

theorem Engine.Inv.write_cells {cfg : Config} {e : Engine} {a v : Int} (h : e.Inv cfg) (hv : fits cfg.width v = true) :
    ∀ c ∈ (e.mem.write a v).cells, fits cfg.width c.2 = true :=
  insertCell_forall (P := fun v => fits cfg.width v = true) h.cells hv

/-- A loaded engine meets the invariant (R230). -/
theorem Engine.Inv.load {cfg : Config} {image : List Int} {i o : Nat} (hw : Machine.widthOk cfg.width = true)
    (hok : imageOk cfg image = true) : (Engine.load image i o).Inv cfg := by
  simp only [imageOk, Bool.and_eq_true, List.all_eq_true] at hok
  exact ⟨Memory.wf_ofImage _, hok.1, cellsFrom_forall (P := fun v => fits cfg.width v = true) hok.2 0,
    fits_small hw (by simp) (by simp), fits_small hw (by simp) (by simp), fun _ => rfl, fun _ => rfl, fun h => by simp at h,
    by simp [FaultRecord.empty]⟩

/-! ### Construction -/

theorem buildEngines_getElem? (topo : Topology) (n : Nat) (l : List (List Int)) (k i : Nat) :
    (buildEngines topo n k l)[i]? = (l[i]?).map fun im => Engine.load im (k + i) (outIndex topo n (k + i)) := by
  induction l generalizing k i with
  | nil => rfl
  | cons a l ih =>
    cases i with
    | zero => rfl
    | succ i => simp only [buildEngines, List.getElem?_cons_succ, ih]; rw [show k + 1 + i = k + (i + 1) by omega]

theorem buildEngines_length (topo : Topology) (n : Nat) (l : List (List Int)) (k : Nat) :
    (buildEngines topo n k l).length = l.length := by
  induction l generalizing k with
  | nil => rfl
  | cons a l ih => simp [buildEngines, ih]

/-! ### Which instructions answer a next state -/

/-- An instruction answers a next state on every engine that may attempt one and whose endpoints are attached: there is no
other condition (R233). -/
theorem exec_next {s : State} {e : Engine} (i : Instr) (he : s.engine? = some e) (hp : e.status.permitsStep = true)
    (hin : ∃ c, s.channel? e.inCh = some c) (hout : ∃ c, s.channel? e.outCh = some c) : ∃ t, exec i s = .next t := by
  obtain ⟨c1, h1⟩ := hin
  obtain ⟨c2, h2⟩ := hout
  have hon : ∀ k, s.onEngine k = k e := fun k => onEngine_of k he hp
  cases i with
  | inp m0 m1 m2 => unfold exec execIn; dsimp only; rw [hon]; cases writeTarget s.cfg e 1 m0 <;> simp [h1]
  | out m0 m1 m2 => unfold exec execOut; dsimp only; rw [hon]; cases readParam s.cfg e 1 m0 <;> simp [h2]
  | add m0 m1 m2 => unfold exec execAdd; dsimp only; rw [hon]; exact ⟨_, rfl⟩
  | mul m0 m1 m2 => unfold exec execMul; dsimp only; rw [hon]; exact ⟨_, rfl⟩
  | lt m0 m1 m2 => unfold exec execLt; dsimp only; rw [hon]; exact ⟨_, rfl⟩
  | eq m0 m1 m2 => unfold exec execEq; dsimp only; rw [hon]; exact ⟨_, rfl⟩
  | jt m0 m1 m2 => unfold exec execJt; dsimp only; rw [hon]; exact ⟨_, rfl⟩
  | jf m0 m1 m2 => unfold exec execJf; dsimp only; rw [hon]; exact ⟨_, rfl⟩
  | arb m0 m1 m2 => unfold exec execArb; dsimp only; rw [hon]; exact ⟨_, rfl⟩
  | hlt m0 m1 m2 => unfold exec execHlt; dsimp only; rw [hon]; exact ⟨_, rfl⟩

/-- In every state that meets the invariant the endpoints of every engine are attached (R33, R171, R176). -/
theorem State.Inv.attached {s : State} {i : Nat} {e : Engine} (h : s.Inv) (he : s.engines[i]? = some e) :
    (∃ c, s.channel? e.inCh = some c) ∧ ∃ c, s.channel? e.outCh = some c := by
  have hi := (List.getElem?_eq_some_iff.mp he).1
  have h1 : (s.engines.map (·.inCh))[i]? = some e.inCh := by simp [he]
  have h2 : (s.engines.map (·.outCh))[i]? = some e.outCh := by simp [he]
  rw [h.inWired] at h1
  rw [h.outWired] at h2
  simp [hi] at h1 h2
  have hc := h.channelCount
  constructor
  · have hlt : e.inCh < s.channels.length := by rw [hc]; cases s.topo <;> simp [Machine.channelCount] <;> omega
    exact ⟨_, List.getElem?_eq_getElem hlt⟩
  · have hlt : e.outCh < s.channels.length := by
      rw [hc, ← h2]
      cases s.topo <;> simp [Machine.channelCount, outIndex]
      · exact hi
      · exact Nat.mod_lt _ (by omega)
    exact ⟨_, List.getElem?_eq_getElem hlt⟩

end Sys2Proof.Machine
end

