-- ==== Sys2Proof/Laws/PerInstr.lean ====
section
/-! SUPPORT. What holds of every instruction as syntax, one lemma per constructor. -/

namespace Sys2Proof.Laws.EncodeShape

/-- The instruction word is not negative, at most 22299 (spec/30_encoding.md R96), and carries the opcode in its low two digits
and the mode digits above; the instruction has 1 to 4 words (R90). -/
def Statement (i : Instr) : Prop :=
  0 ≤ encode i ∧ encode i ≤ 22299 ∧ encode i % 100 = i.opcode ∧ encode i / 100 % 10 = i.modes.1.digit ∧
    encode i / 1000 % 10 = i.modes.2.1.digit ∧ encode i / 10000 = i.modes.2.2.digit ∧ 1 ≤ i.length ∧ i.length ≤ 4

theorem digit_le (m : Mode) : m.digit ≤ 2 := by cases m <;> decide

theorem opcode_bounds (i : Instr) : 1 ≤ i.opcode ∧ i.opcode ≤ 99 := by cases i <;> simp [Instr.opcode]

theorem length_bounds (i : Instr) : 1 ≤ i.length ∧ i.length ≤ 4 := by cases i <;> simp [Instr.length, Instr.operandCount]

/-- Decimal digits do not run into one another: a mode digit is at most 2 and an opcode at most 99. -/
theorem shape (i : Instr) : Statement i := by
  have h0 := digit_le i.modes.1
  have h1 := digit_le i.modes.2.1
  have h2 := digit_le i.modes.2.2
  have ho := opcode_bounds i
  have hl := length_bounds i
  simp only [Statement, encode]
  omega

theorem add (m0 m1 m2 : Mode) : Statement (.add m0 m1 m2) := shape _
theorem mul (m0 m1 m2 : Mode) : Statement (.mul m0 m1 m2) := shape _
theorem inp (m0 m1 m2 : Mode) : Statement (.inp m0 m1 m2) := shape _
theorem out (m0 m1 m2 : Mode) : Statement (.out m0 m1 m2) := shape _
theorem jt (m0 m1 m2 : Mode) : Statement (.jt m0 m1 m2) := shape _
theorem jf (m0 m1 m2 : Mode) : Statement (.jf m0 m1 m2) := shape _
theorem lt (m0 m1 m2 : Mode) : Statement (.lt m0 m1 m2) := shape _
theorem eq (m0 m1 m2 : Mode) : Statement (.eq m0 m1 m2) := shape _
theorem arb (m0 m1 m2 : Mode) : Statement (.arb m0 m1 m2) := shape _
theorem hlt (m0 m1 m2 : Mode) : Statement (.hlt m0 m1 m2) := shape _

end Sys2Proof.Laws.EncodeShape
end

