-- ==== Sys2Proof/Machine/Assembler.lean ====
section
/-! DEFINITION. The assembler notation of spec/30_encoding.md R105, in which the spec writes its programs: what a line assembles
to. Its text form is parsing, which the spec leaves out (spec/00_scope.md R6); a line stands here as data. It has no effect on
the machine (D29). -/

namespace Sys2Proof.Machine

/-- An integer of a line: written out, or a label in its place. Labels are only told apart, so numbers name them. -/
inductive AsmInt where
  | lit (v : Int)
  | label (l : Nat)
deriving DecidableEq, Repr

/-- What a line holds. -/
inductive AsmBody where
  /-- a mnemonic, as its opcode number, and its parameters in encoding order -/
  | instr (op : Nat) (params : List (Mode × AsmInt))
  /-- `DATA` -/
  | data (ints : List AsmInt)
deriving DecidableEq, Repr

/-- A line, with the label it carries if it carries one. -/
structure AsmLine where
  label : Option Nat
  body : AsmBody
deriving DecidableEq, Repr

/-- How many words the line assembles to. -/
def AsmBody.size : AsmBody → Nat
  | .instr _ params => 1 + params.length
  | .data ints => ints.length

/-- The address of the line that carries the label, where the program begins at `addr`. DESIGN CHOICE
(notes/assumptions/18.md): of two lines that carry it, the first. -/
def labelAddr (l : Nat) : Nat → List AsmLine → Option Int
  | _, [] => none
  | addr, line :: rest => if line.label = some l then some addr else labelAddr l (addr + line.body.size) rest

/-- The value of an integer of a line within the program. -/
def AsmInt.resolve (program : List AsmLine) : AsmInt → Option Int
  | .lit v => some v
  | .label l => labelAddr l 0 program

/-- The mode of parameter `i`; "the mode digit of every absent parameter" is 0. -/
def asmMode (params : List (Mode × AsmInt)) (i : Nat) : Mode := ((params[i]?).map (·.1)).getD .position

/-- The words of a line: the instruction word and the operands, or the integers as they stand; `none` where the opcode is not
one of the profile, the number of parameters is not the opcode's, or a label stands on no line. -/
def assembleLine (rel : Bool) (program : List AsmLine) : AsmBody → Option (List Int)
  | .instr op params => do
    let mk ← instrOfOpcode rel op
    let operands ← params.mapM fun p => p.2.resolve program
    (mk (asmMode params 0) (asmMode params 1) (asmMode params 2)).words operands
  | .data ints => ints.mapM fun v => v.resolve program

/-- The image of a program: the words of its lines in order. -/
def assemble (rel : Bool) (program : List AsmLine) : Option (List Int) :=
  (program.mapM fun line => assembleLine rel program line.body).map List.flatten

end Sys2Proof.Machine
end

