-- ==== Sys2Proof/Tests/Slice0.lean ====
section
/-! SUPPORT. The model's own tests, the WellFormed smoke test among them, and for every statement with hypotheses a witness that
meets them together. Expected results of the instruction tests are those of spec/95_test_vectors.md; the vector is named at
each. -/

namespace Sys2Proof.Tests

open Sys2Proof.Machine Sys2Proof.Claims

/-! ### Helpers -/

/-- An engine loaded with an image, attached to channels 0 and 1. -/
def eng (image : List Int) : Engine := Engine.load image 0 1

/-- A channel with these values in it, both ends open. -/
def chan (q : List Int) : Channel := { q := q, wclosed := false, rclosed := false }

/-- One engine with a `run` in progress, and the contents of its two channels. -/
def one (e : Engine) (c0 c1 : Channel) : State :=
  { State.reset with engines := [e], channels := [c0, c1], running := true, hostStarted := true }

/-- One engine just loaded with an image, values waiting at its input. -/
def run1 (image input : List Int) : State := one (eng image) (chan input) (chan [])

/-- The same machine with the extension `REL = 1`. -/
def withRel (s : State) : State := { s with cfg := { s.cfg with rel := true } }

/-- The same machine with channels of capacity 1. -/
def withCap1 (s : State) : State := { s with cfg := { s.cfg with cap := 1 } }

/-- The network at rest with operations of the external driver pending. -/
def asked (s : State) (ops : List HostOp) : State := { s with running := false, hostOps := ops }

/-- A network of engines at creation, its driver about to begin. -/
def network (topo : Topology) (driver : Driver) (images : List (List Int)) (phases : List Int) : State :=
  State.reset.launched { topo := topo, driver := driver, images := images, phases := phases }

/-- The next state, where there is one. -/
def nextOf (o : Host.Outcome State Fault Refusal) : Option State :=
  match o with
  | .next s => some s
  | .fault _ => none
  | .refused _ => none

/-- Status, `pc` and one cell of the running engine after one step. -/
def seen (s : State) (a : Int) : Option (Status × Int × Option Int) :=
  ((nextOf (step s)).bind (·.engine?)).map fun e => (e.status, e.pc, e.mem.read? a)

/-- The fault record of the running engine after one step, if it has faulted. -/
def recordOf (s : State) : Option FaultRecord :=
  ((nextOf (step s)).bind (·.engine?)).bind fun e => if e.status = .faulted then some e.fr else none

/-- The values in both channels after one step. -/
def queues (s : State) : Option (List (List Int)) := (nextOf (step s)).map fun t => t.channels.map (·.q)

/-- What the external driver was told after one step. -/
def told (s : State) : Option Reply := (nextOf (step s)).bind (·.reply)

/-! ### WellFormed smoke test: an ill-formed term for each check, which the check refuses -/

theorem smoke_opcode_of_the_extension : (Instr.arb .position .position .position).wf false = false := by decide
theorem smoke_first_mode : (Instr.inp .relative .position .position).wf false = false := by decide
theorem smoke_second_mode : (Instr.hlt .position .relative .position).wf false = false := by decide
theorem smoke_third_mode : (Instr.add .position .position .relative).wf false = false := by decide
theorem smoke_decoder_refuses_them :
    decode false (encode (.arb .position .position .position)) = .error .invalidOpcode ∧
    decode false (encode (.inp .relative .position .position)) = .error .invalidMode ∧
    decode false (encode (.hlt .position .relative .position)) = .error .invalidMode ∧
    decode false (encode (.add .position .position .relative)) = .error .invalidMode := by decide

/-! ### Decoding: words written out from the encoding (R91, R93; vectors E1 to E16, X1 to X11) -/

theorem test_decode_add : decode false 1101 = .ok (.add .immediate .immediate .position) := by decide
theorem test_decode_mul : decode false 1002 = .ok (.mul .position .immediate .position) := by decide
theorem test_decode_in : decode true 203 = .ok (.inp .relative .position .position) := by decide
theorem test_decode_out : decode false 1104 = .ok (.out .immediate .immediate .position) := by decide
theorem test_decode_jt : decode false 1105 = .ok (.jt .immediate .immediate .position) := by decide
theorem test_decode_jf : decode false 1006 = .ok (.jf .position .immediate .position) := by decide
theorem test_decode_lt : decode false 107 = .ok (.lt .immediate .position .position) := by decide
theorem test_decode_eq : decode false 11108 = .ok (.eq .immediate .immediate .immediate) := by decide
theorem test_decode_arb : decode true 22209 = .ok (.arb .relative .relative .relative) := by decide
theorem test_decode_hlt : decode false 10099 = .ok (.hlt .position .position .immediate) := by decide
theorem test_decode_high_digit : decode false 100099 = .ok (.hlt .position .position .position) := by decide
theorem test_decode_bad_opcodes :
    ([0, 9, 10, 98, 100, 12345, -1, -99, 900, 22209].map (decode false)) =
      List.replicate 10 (.error .invalidOpcode) := by decide
theorem test_decode_bad_modes :
    ([20099, 90099, 203, 304].map (decode false)) = List.replicate 4 (.error .invalidMode) ∧
    ([90099, 304].map (decode true)) = List.replicate 2 (.error .invalidMode) := by decide
theorem test_encode :
    encode (.mul .position .immediate .position) = 1002 ∧ encode (.eq .immediate .immediate .immediate) = 11108 ∧
    encode (.hlt .position .position .position) = 99 ∧ encode (.inp .position .position .position) = 3 ∧
    encode (.jt .immediate .immediate .position) = 1105 := by decide
theorem test_words :
    (Instr.add .position .immediate .position).words [15, 5, 15] = some [1001, 15, 5, 15] ∧
    (Instr.add .position .immediate .position).words [15, 5] = none := by decide

/-- The first four lines of program P1, and the idiom of R106 for a jump to itself. -/
theorem test_assemble :
    assemble false
      [⟨none, .instr 1 [(.position, .lit 15), (.immediate, .lit 5), (.position, .lit 15)]⟩,
       ⟨none, .instr 2 [(.position, .lit 15), (.immediate, .lit (-3)), (.position, .lit 16)]⟩,
       ⟨none, .instr 1 [(.immediate, .lit 98), (.position, .label 0), (.position, .label 0)]⟩,
       ⟨some 0, .data [.lit 1, .lit 0, .lit 0]⟩] =
      some [1001, 15, 5, 15, 1002, 15, -3, 16, 101, 98, 12, 12, 1, 0, 0] ∧
    assemble false [⟨some 7, .instr 5 [(.immediate, .lit 1), (.immediate, .label 7)]⟩] = some [1105, 1, 0] ∧
    assemble false [⟨none, .instr 99 [(.position, .lit 0)]⟩] = none := by decide

/-! ### One step of each instruction -/

/-- Vector A1. -/
theorem test_add_position : seen (run1 [1, 5, 6, 7, 99, 2, 3, 0] []) 7 = some (.ready, 4, some 5) := by decide
/-- Vectors A6 and A12: overflow, and a destination at `LEN`. -/
theorem test_add_faults :
    recordOf (run1 [1101, 9223372036854775807, 1, 5, 99, 0] []) =
      some { cause := some .arithOverflow, pc := some 0, iw := some 1101, addr := none } ∧
    recordOf (run1 [1, 0, 0, 5, 99] []) =
      some { cause := some .outOfBounds, pc := some 0, iw := some 1, addr := some 5 } := by decide
/-- Vector M1. -/
theorem test_mul_writes_next_word : seen (run1 [1002, 4, 3, 4, 33] []) 4 = some (.ready, 4, some 99) := by decide
/-- Vector M9: `MIN * -1` with `OVF = Wrap`. -/
theorem test_mul_wraps :
    seen ({ run1 [1102, -9223372036854775808, -1, 5, 99, 0] [] with cfg := { Config.standard with ovf := .wrap } }) 5 =
      some (.ready, 4, some (-9223372036854775808)) := by decide
/-- Vectors L4 and L3. -/
theorem test_lt :
    seen (run1 [7, 5, 6, 7, 99, -1, 0, 9] []) 7 = some (.ready, 4, some 1) ∧
    seen (run1 [1107, 3, -5, 5, 99, 9] []) 5 = some (.ready, 4, some 0) := by decide
/-- Vectors Q3 and Q2. -/
theorem test_eq :
    seen (run1 [8, 0, 0, 0, 99] []) 0 = some (.ready, 4, some 1) ∧
    seen (run1 [1108, 0, 1, 5, 99, 9] []) 5 = some (.ready, 4, some 0) := by decide
/-- Vectors J6 and J3: a target beyond memory, and Position operands. -/
theorem test_jt_taken :
    seen (run1 [1105, 1, 50, 99] []) 0 = some (.ready, 50, some 1105) ∧
    seen (run1 [5, 7, 8, 99, 104, 7, 99, -2, 4] []) 0 = some (.ready, 4, some 5) := by decide
/-- Vector J8: the target is resolved although the jump is not taken. -/
theorem test_jt_resolves_target :
    recordOf (run1 [5, 5, 77, 99, 99, 0] []) =
      some { cause := some .outOfBounds, pc := some 0, iw := some 5, addr := some 77 } := by decide
/-- Vectors J4 and J5. -/
theorem test_jf :
    seen (run1 [1106, 0, 4, 99, 104, 7, 99] []) 0 = some (.ready, 4, some 1106) ∧
    seen (run1 [1106, 5, 4, 99, 104, 7, 99] []) 0 = some (.ready, 3, some 1106) := by decide
/-- Vector H2, and its report. -/
theorem test_hlt :
    seen (run1 [10099] []) 0 = some (.halted, 0, some 10099) ∧ told (run1 [10099] []) = some (.report (.ok 10099)) := by decide
/-- Vectors I2 (step 1) and I1. -/
theorem test_in :
    seen (one (eng [3, 0, 3, 1, 99]) { chan [5] with wclosed := true } (chan [])) 0 = some (.ready, 2, some 5) ∧
    seen (run1 [3, 0, 4, 0, 99] []) 0 = some (.blockedIn, 0, some 3) := by decide
/-- Vector I4: the destination is checked before the receive. -/
theorem test_in_checks_destination_first :
    recordOf (run1 [3, 9, 99] [5]) = some { cause := some .outOfBounds, pc := some 0, iw := some 3, addr := some 9 } ∧
    queues (run1 [3, 9, 99] [5]) = some [[5], []] := by decide
/-- Vectors O1 and O3 (its second send). -/
theorem test_out :
    queues (run1 [104, 7, 99] []) = some [[], [7]] ∧
    seen (withCap1 (one (eng [104, 8, 99]) (chan []) (chan [7]))) 0 = some (.blockedOut, 0, some 104) := by decide
/-- Vector O6: `Closed` is tested before `Full`. -/
theorem test_out_closed_before_full :
    recordOf (withCap1 (one (eng [104, 7, 99]) (chan []) { chan [1] with rclosed := true })) =
      some { cause := some .outputClosed, pc := some 0, iw := some 104, addr := none } := by decide
/-- Vector R5. -/
theorem test_arb :
    ((nextOf (step (withRel (run1 [9, 3, 99, 6] [])))).bind (·.engine?)).map (fun e => (e.status, e.pc, e.rb)) =
      some (.ready, 2, 6) := by decide
/-- Vector R8 (step 2). -/
theorem test_arb_overflow :
    recordOf (withRel (one { eng [109, 9223372036854775807, 109, 1, 99] with pc := 2, rb := 9223372036854775807 } (chan [])
      (chan []))) = some { cause := some .arithOverflow, pc := some 2, iw := some 109, addr := none } := by decide

/-! ### The rest of the machine -/

theorem test_reset_memory_canonical : (State.reset.engines.all fun e => e.mem.wf) = true := by decide
/-- Vector X12: an empty memory. -/
theorem test_empty_memory :
    recordOf (run1 [] []) = some { cause := some .outOfBounds, pc := some 0, iw := none, addr := some 0 } := by decide
/-- Codes of R26, R200 and R201. -/
theorem test_codes :
    Status.faulted.code = 4 ∧ Cause.arithOverflow.code = 6 ∧ (NetFault.preloadRefused 0).code = 19 := by decide
theorem test_table_words :
    decodeTableWord 64 99 = some (.hlt .position .position .position) ∧
    decodeTableWord 256 (1101 + 2 ^ 64 * 7) = some (.add .immediate .immediate .position) ∧
    decodeTableWord 64 (2 ^ 64 - 1) = none := by decide
/-- `2 + 3 -> [1]`, operand words in the order of the opcode table, and the extension selected by an ARB. -/
theorem test_table_word_runs_from_reset :
    seen (State.reset.withFetchWord 256 (1101 + 2 ^ 64 * 2 + 2 ^ 128 * 3 + 2 ^ 192 * 1)) 1 = some (.ready, 4, some 5) ∧
    seen (State.reset.withFetchWord 128 (109 + 2 ^ 64 * 7)) 1 = some (.ready, 2, some 7) := by decide
/-- Vector P6: the host closes the producer end between runs. -/
theorem test_host_closes :
    ((nextOf (step (asked (run1 [] []) [.close 0 .producer]))).map fun t => t.channels.map (·.wclosed)) =
      some [true, false] := by decide
/-- The host preloads an inner channel and the ring's only channel before it has invoked an engine, and not after. -/
theorem test_host_preloads :
    told (asked (network .chain .external [[99], [99]] []) [.push 1 5]) = some (.sent .ok) ∧
    told (asked (network .ring .external [[99]] []) [.push 0 5]) = some (.sent .ok) ∧
    nextOf (step { asked (network .ring .external [[99]] []) [.push 0 5] with hostStarted := true }) = none := by decide
/-- The host invokes and feeds a halted engine of a network whose composer has ended. -/
theorem test_host_after_the_end :
    ((nextOf (step { asked (run1 [99] []) [.run 0] with phase := .failed })).map (·.running)) = some true ∧
    told { asked (one (eng [99]).halt (chan []) (chan [])) [.push 0 5] with phase := .done } = some (.sent .ok) := by decide
/-- A closed consumer end of the terminal channel: no result, and the value stays. -/
theorem test_extract_from_closed_end :
    ((nextOf (step { network .ring .cooperative [[99]] [0] with
      phase := .extract, channels := [{ chan [7] with rclosed := true }] })).map fun t => (t.netFault, t.channels.map (·.q))) =
      some (some .noResult, [[7]]) := by decide
/-- Two faulted engines cannot both end a network: the first in order does (R183). -/
theorem test_threads_fault :
    ((nextOf (step { network .chain .concurrent [[], []] [1, 2] with
      phase := .threads, engines := [(eng []).raise (Trap.outOfBounds 0), (eng [7]).raise (Trap.of .invalidOpcode)] })).bind
        (·.netFault)) =
      some (.engineFault 0 { cause := some .outOfBounds, pc := some 0, iw := none, addr := some 0 }) := by decide

/-! ### Witnesses: concrete states and operands that meet the hypotheses of each statement, each clause at a boundary -/

/-- An engine that may attempt an instruction. -/
theorem can_attempt {s : State} {e : Engine} (h : s.engine? = some e) (hp : e.status.permitsStep = true) :
    CanAttempt s e := ⟨h, by revert hp; cases e.status <;> decide⟩

/-! Encoding. -/

theorem witness_EncodeThenDecodeGivesBack :
    (Instr.add .immediate .immediate .immediate).wf false = true ∧
    (Instr.hlt .relative .relative .relative).wf true = true ∧
    (Instr.arb .relative .relative .relative).wf true = true := by decide
theorem witness_DecodeReadsDigits : decode true 22299 = .ok (.hlt .relative .relative .relative) := by decide
theorem witness_LegalInstructionWords :
    decode true 22299 = .ok (.hlt .relative .relative .relative) ∧
    decode false 11199 = .ok (.hlt .immediate .immediate .immediate) ∧ (22299 : Int) < 100000 := by decide
theorem witness_InvalidWordsRejected :
    ((-1 : Int) < 0) ∧ instrOfOpcode false ((0 : Int) % 100).toNat = none ∧
    instrOfOpcode false ((9 : Int) % 100).toNat = none ∧ instrOfOpcode true ((98 : Int) % 100).toNat = none ∧
    instrOfOpcode false ((20099 : Int) % 100).toNat ≠ none ∧
    (∃ d ∈ [(20099 : Int) / 100 % 10, 20099 / 1000 % 10, 20099 / 10000 % 10], (if false then 2 else 1) < d) ∧
    instrOfOpcode true ((301 : Int) % 100).toNat ≠ none ∧
    (∃ d ∈ [(301 : Int) / 100 % 10, 301 / 1000 % 10, 301 / 10000 % 10], (if true then 2 else 1) < d) := by decide
theorem witness_HighDigitsIgnored : (0 : Int) ≤ 0 ∧ (0 : Int) ≤ 100099 := by decide
theorem witness_LengthFromOpcodeAlone :
    decode false 99 = .ok (.hlt .position .position .position) ∧ decode false 3 = .ok (.inp .position .position .position) ∧
    decode false 4 = .ok (.out .position .position .position) ∧ decode true 9 = .ok (.arb .position .position .position) ∧
    decode false 5 = .ok (.jt .position .position .position) ∧ decode false 6 = .ok (.jf .position .position .position) ∧
    decode false 1 = .ok (.add .position .position .position) ∧ decode false 8 = .ok (.eq .position .position .position) := by
  decide

/-! Memory, operands, channels. -/

theorem witness_MemoryReadsBackWrites :
    (¬(0 ≤ (-1 : Int) ∧ (-1 : Int) < (Memory.ofImage [7, 8]).len)) ∧ (¬(0 ≤ (2 : Int) ∧ (2 : Int) < (Memory.ofImage [7, 8]).len)) ∧
    (Memory.ofImage [7, 8]).wf = true ∧ ((0 : Int) < (Memory.ofImage [7, 8]).len) ∧ ((1 : Int) < (Memory.ofImage [7, 8]).len) ∧
    writeTarget Config.standard (eng [3, 1]) 1 .position = .ok 1 := by decide
theorem witness_CanonicalMemoriesEqual :
    (Memory.ofImage [7, 0, 8]).wf = true ∧
    ∀ a : Int, (Memory.ofImage [7, 0, 8]).read? a = ((Memory.ofImage [7, 5, 8]).write 1 0).read? a :=
  ⟨by decide, fun _ => rfl⟩
theorem witness_SourceParameterByMode :
    (eng [4]).mem.read? ((eng [4]).pc + 1) = none ∧
    (eng [4, 1]).mem.read? ((eng [4, 1]).pc + 1) = some 1 ∧ (eng [4, 1]).mem.read? 1 = some 1 ∧
    (eng [4, 2]).mem.read? ((eng [4, 2]).pc + 1) = some 2 ∧ (eng [4, 2]).mem.read? 2 = none ∧
    (withRel State.reset).cfg.rel = true ∧ ({ eng [4, -1] with rb := 1 }).mem.read? (1 + -1) = some 4 ∧
    ({ eng [4, -1] with rb := 0 }).mem.read? (0 + -1) = none := by decide
theorem witness_DestinationByMode :
    (eng [3]).mem.read? ((eng [3]).pc + 1) = none ∧ (eng [3, 1]).mem.read? ((eng [3, 1]).pc + 1) = some 1 ∧
    Config.standard.writeImm = .fault ∧ ({ Config.standard with writeImm := .asPosition }).writeImm = .asPosition ∧
    (0 ≤ (1 : Int) ∧ (1 : Int) < (eng [3, 1]).mem.len) ∧ (¬(0 ≤ (2 : Int) ∧ (2 : Int) < (eng [3, 2]).mem.len)) ∧
    (eng [3, 2]).mem.read? ((eng [3, 2]).pc + 1) = some 2 ∧
    ({ Config.standard with rel := true }).rel = true ∧ (0 : Int) = ({ eng [3, -1] with rb := 1 }).rb + -1 := by decide
/-- Both ends of the range and the integers next to them, which fall under the other clause. -/
theorem witness_ArithFitsFaultsOrWraps :
    ({ Config.standard with width := .unbounded }).width = .unbounded ∧ Config.standard.width = .bits 64 ∧ 1 ≤ 64 ∧
    (-(2 ^ (64 - 1)) ≤ (9223372036854775807 : Int) ∧ (9223372036854775807 : Int) ≤ 2 ^ (64 - 1) - 1) ∧
    (-(2 ^ (64 - 1)) ≤ (-9223372036854775808 : Int) ∧ (-9223372036854775808 : Int) ≤ 2 ^ (64 - 1) - 1) ∧
    (2 ^ (64 - 1) - 1 < (9223372036854775808 : Int)) ∧ ((-9223372036854775809 : Int) < -(2 ^ (64 - 1))) ∧
    Config.standard.ovf = .fault ∧ ({ Config.standard with ovf := .wrap }).ovf = .wrap := by decide
theorem witness_ReceiveAndSendOutcomes :
    ({ chan [5] with rclosed := true }).rclosed = true ∧
    (({ chan [5] with wclosed := true }).rclosed = false ∧ ({ chan [5] with wclosed := true }).q = 5 :: []) ∧
    (({ chan [] with wclosed := true }).q = [] ∧ ({ chan [] with wclosed := true }).wclosed = true) ∧
    ((chan []).rclosed = false ∧ (chan []).q = [] ∧ (chan []).wclosed = false) ∧
    (1 ≤ (chan [5]).q.length) ∧ ((chan []).q.length < 1) := by decide
theorem witness_ChannelIsFirstInFirstOut :
    (chan [5]).wclosed = false ∧ (chan [5]).rclosed = false ∧ (chan [5]).q.length + ([6, 7] : List Int).length ≤ 3 := by decide

/-! Instructions: the faults of operand resolution in their order, the fault of the result, and completion. -/

/-- Third, second and first operand cell missing; each read or written cell missing. -/
theorem witness_StoreRule_operand_faults :
    (eng [1]).status.permitsStep = true ∧ (eng [1]).mem.wf = true ∧
    readParam Config.standard (eng [1]) 1 .position = .error { cause := .outOfBounds, addr := some 1 } ∧
    readParam Config.standard (eng [1, 0]) 1 .position = .ok 1 ∧
    readParam Config.standard (eng [1, 0]) 2 .position = .error { cause := .outOfBounds, addr := some 2 } ∧
    readParam Config.standard (eng [1, 0, 0]) 1 .position = .ok 1 ∧
    readParam Config.standard (eng [1, 0, 0]) 2 .position = .ok 1 ∧
    writeTarget Config.standard (eng [1, 0, 0]) 3 .position = .error { cause := .outOfBounds, addr := some 3 } := by decide
theorem witness_AddRule :
    CanAttempt (run1 [1101, 1, 9223372036854775806, 0] []) (eng [1101, 1, 9223372036854775806, 0]) ∧
    readParam Config.standard (eng [1101, 1, 9223372036854775806, 0]) 1 .immediate = .ok 1 ∧
    readParam Config.standard (eng [1101, 1, 9223372036854775806, 0]) 2 .immediate = .ok 9223372036854775806 ∧
    writeTarget Config.standard (eng [1101, 1, 9223372036854775806, 0]) 3 .position = .ok 0 ∧
    arith Config.standard (1 + 9223372036854775806) = .ok 9223372036854775807 ∧
    arith Config.standard (1 + 9223372036854775807) = .error { cause := .arithOverflow, addr := none } :=
  ⟨can_attempt (by decide) (by decide), by decide⟩
theorem witness_MultiplyRule :
    CanAttempt (run1 [1102, -1, 9223372036854775807, 3] []) (eng [1102, -1, 9223372036854775807, 3]) ∧
    readParam Config.standard (eng [1102, -1, 9223372036854775807, 3]) 1 .immediate = .ok (-1) ∧
    readParam Config.standard (eng [1102, -1, 9223372036854775807, 3]) 2 .immediate = .ok 9223372036854775807 ∧
    writeTarget Config.standard (eng [1102, -1, 9223372036854775807, 3]) 3 .position = .ok 3 ∧
    arith Config.standard (-1 * 9223372036854775807) = .ok (-9223372036854775807) ∧
    arith Config.standard (-1 * -9223372036854775808) = .error { cause := .arithOverflow, addr := none } :=
  ⟨can_attempt (by decide) (by decide), by decide⟩
theorem witness_LessThanRule :
    CanAttempt (run1 [1107, 3, 3, 3] []) (eng [1107, 3, 3, 3]) ∧
    readParam Config.standard (eng [1107, 3, 3, 3]) 1 .immediate = .ok 3 ∧
    readParam Config.standard (eng [1107, 3, 3, 3]) 2 .immediate = .ok 3 ∧
    writeTarget Config.standard (eng [1107, 3, 3, 3]) 3 .position = .ok 3 :=
  ⟨can_attempt (by decide) (by decide), by decide⟩
theorem witness_EqualsRule :
    CanAttempt (run1 [1108, 3, 3, 0] []) (eng [1108, 3, 3, 0]) ∧
    readParam Config.standard (eng [1108, 3, 3, 0]) 1 .immediate = .ok 3 ∧
    readParam Config.standard (eng [1108, 3, 3, 0]) 2 .immediate = .ok 3 ∧
    writeTarget Config.standard (eng [1108, 3, 3, 0]) 3 .position = .ok 0 :=
  ⟨can_attempt (by decide) (by decide), by decide⟩
theorem witness_JumpIfTrueRule :
    CanAttempt (run1 [1105, 0, -1] []) (eng [1105, 0, -1]) ∧
    readParam Config.standard (eng [1105, 0, -1]) 1 .immediate = .ok 0 ∧
    readParam Config.standard (eng [1105, 0, -1]) 2 .immediate = .ok (-1) ∧
    readParam Config.standard (eng [1105, -2, -1]) 1 .immediate = .ok (-2) ∧
    readParam Config.standard (eng [1105]) 1 .immediate = .error { cause := .outOfBounds, addr := some 1 } ∧
    readParam Config.standard (eng [1105, 0]) 1 .immediate = .ok 0 ∧
    readParam Config.standard (eng [1105, 0]) 2 .immediate = .error { cause := .outOfBounds, addr := some 2 } :=
  ⟨can_attempt (by decide) (by decide), by decide⟩
theorem witness_JumpIfFalseRule :
    CanAttempt (run1 [1106, 0, 9] []) (eng [1106, 0, 9]) ∧
    readParam Config.standard (eng [1106, 0, 9]) 1 .immediate = .ok 0 ∧
    readParam Config.standard (eng [1106, 0, 9]) 2 .immediate = .ok 9 ∧
    readParam Config.standard (eng [1106, 1, 9]) 1 .immediate = .ok 1 :=
  ⟨can_attempt (by decide) (by decide), by decide⟩
theorem witness_HaltRule : CanAttempt (run1 [99] []) (eng [99]) := can_attempt (by decide) (by decide)
theorem witness_InputRule :
    CanAttempt (run1 [3, 0] [5]) (eng [3, 0]) ∧ (eng [3, 0]).mem.wf = true ∧
    writeTarget Config.standard (eng [3, 2]) 1 .position = .error { cause := .outOfBounds, addr := some 2 } ∧
    writeTarget Config.standard (eng [3, 0]) 1 .position = .ok 0 ∧
    (run1 [3, 0] [5]).channel? 0 = some (chan [5]) ∧ (chan [5]).rclosed = false ∧ (chan [5]).q = 5 :: [] ∧
    (run1 [3, 0] []).channel? 0 = some (chan []) ∧ (chan []).q = [] ∧ (chan []).wclosed = false ∧
    (one (eng [3, 0]) { chan [] with wclosed := true } (chan [])).channel? 0 = some { chan [] with wclosed := true } :=
  ⟨can_attempt (by decide) (by decide), by decide⟩
theorem witness_OutputRule :
    CanAttempt (withCap1 (run1 [104, 7] [])) (eng [104, 7]) ∧
    readParam Config.standard (eng [104]) 1 .immediate = .error { cause := .outOfBounds, addr := some 1 } ∧
    readParam Config.standard (eng [104, 7]) 1 .immediate = .ok 7 ∧
    (withCap1 (run1 [104, 7] [])).channel? 1 = some (chan []) ∧ (chan []).q.length < (withCap1 (run1 [104, 7] [])).cfg.cap ∧
    (withCap1 (one (eng [104, 7]) (chan []) (chan [5]))).channel? 1 = some (chan [5]) ∧
    (withCap1 (one (eng [104, 7]) (chan []) (chan [5]))).cfg.cap ≤ (chan [5]).q.length ∧
    (one (eng [104, 7]) (chan []) { chan [5] with rclosed := true }).channel? 1 = some { chan [5] with rclosed := true } :=
  ⟨can_attempt (by decide) (by decide), by decide⟩
theorem witness_AdjustRelativeBaseRule :
    CanAttempt (run1 [109, 0] []) (eng [109, 0]) ∧ (run1 [109, 0] []).cfg.rel = false ∧
    CanAttempt (withRel (one { eng [109, 1] with rb := 9223372036854775806 } (chan []) (chan [])))
      { eng [109, 1] with rb := 9223372036854775806 } ∧
    (withRel (run1 [109] [])).cfg.rel = true ∧
    readParam (withRel (run1 [109] [])).cfg (eng [109]) 1 .immediate = .error { cause := .outOfBounds, addr := some 1 } ∧
    readParam (withRel State.reset).cfg { eng [109, 1] with rb := 9223372036854775806 } 1 .immediate = .ok 1 ∧
    arith (withRel State.reset).cfg (9223372036854775806 + 1) = .ok 9223372036854775807 ∧
    arith (withRel State.reset).cfg (9223372036854775807 + 1) = .error { cause := .arithOverflow, addr := none } :=
  ⟨can_attempt (by decide) (by decide), by decide, can_attempt (by decide) (by decide), by decide⟩

/-! Frames. -/

theorem witness_StoringInstructionsFrame :
    Instr.add ∈ [Instr.add, .mul, .lt, .eq] ∧ (run1 [1101, 1, 1, 3] []).engine? = some (eng [1101, 1, 1, 3]) ∧
    (eng [1101, 1, 1, 3]).mem.wf = true ∧
    (∃ s', exec (.add .immediate .immediate .position) (run1 [1101, 1, 1, 3] []) = .next s' ∧
      s'.engine?.map (·.status) = some .ready) ∧
    writeTarget Config.standard (eng [1101, 1, 1, 3]) 3 .position = .ok 3 ∧
    (∃ s', exec (.eq .immediate .immediate .immediate) (run1 [11108, 1, 1, 3] []) = .next s' ∧
      s'.engine?.map (·.status) = some .faulted) ∧
    (∀ a, writeTarget Config.standard (eng [11108, 1, 1, 3]) 3 .immediate ≠ .ok a) :=
  ⟨by simp, by decide, by decide, ⟨_, rfl, by decide⟩, by decide, ⟨_, rfl, by decide⟩, fun a h => by cases h⟩
theorem witness_NonStoringInstructionsFrame :
    Instr.out ∈ [Instr.out, .jt, .jf, .arb, .hlt] ∧ (run1 [104, 7] []).engine? = some (eng [104, 7]) ∧
    (∃ s', exec (.out .immediate .position .position) (run1 [104, 7] []) = .next s' ∧
      s'.engine?.map (·.status) = some .ready) ∧
    (∃ s', exec (.jt .immediate .position .position) (run1 [105, 7] []) = .next s' ∧
      s'.engine?.map (·.status) = some .faulted) :=
  ⟨by simp, by decide, ⟨_, rfl, by decide⟩, ⟨_, rfl, by decide⟩⟩
theorem witness_InputFrame :
    (run1 [3, 1] [5]).engine? = some (eng [3, 1]) ∧ (eng [3, 1]).mem.wf = true ∧
    (∃ s', exec (.inp .position .position .position) (run1 [3, 1] [5]) = .next s' ∧
      s'.engine?.map (·.status) = some .ready) ∧
    (∃ s', exec (.inp .position .position .position) (run1 [3, 1] []) = .next s' ∧
      s'.engine?.map (·.status) = some .blockedIn) ∧
    writeTarget Config.standard (eng [3, 1]) 1 .position = .ok 1 :=
  ⟨by decide, by decide, ⟨_, rfl, by decide⟩, ⟨_, rfl, by decide⟩, by decide⟩

/-! Steps of an engine. -/

theorem witness_StepRunsDecodedInstruction :
    (run1 [99] []).running = true ∧ CanAttempt (run1 [99] []) (eng [99]) ∧
    ((eng [99]).mem.read? (eng [99]).pc = some 99 ∧ decode false 99 = .ok (.hlt .position .position .position)) ∧
    ((eng [98]).mem.read? (eng [98]).pc = some 98 ∧ decode false 98 = .error .invalidOpcode) ∧
    ((eng [299]).mem.read? (eng [299]).pc = some 299 ∧ decode false 299 = .error .invalidMode) ∧
    (eng []).mem.read? (eng []).pc = none :=
  ⟨by decide, can_attempt (by decide) (by decide), by decide, by decide, by decide, by decide⟩
theorem witness_LoadedWordRunsNext :
    State.reset.engine? = some (eng []) ∧ (eng []).mem.wf = true ∧
    decode (State.reset.withFetchWord 256 1101).cfg.rel (tableWord State.reset.cfg.width 256 1101 0) =
      .ok (.add .immediate .immediate .position) ∧
    decode (State.reset.withFetchWord 128 109).cfg.rel (tableWord State.reset.cfg.width 128 109 0) =
      .ok (.arb .immediate .position .position) := by decide
/-- One attempt of each outcome: completed, blocked, halted, faulted. -/
theorem witness_AttemptHasFourOutcomes :
    (∃ s', CanAttempt (run1 [1105, 1, 0] []) (eng [1105, 1, 0]) ∧ attempt (run1 [1105, 1, 0] []) = .next s' ∧
      s'.engine?.map (·.status) = some .ready) ∧
    (∃ s', CanAttempt (run1 [3, 0] []) (eng [3, 0]) ∧ attempt (run1 [3, 0] []) = .next s' ∧
      s'.engine?.map (·.status) = some .blockedIn) ∧
    (∃ s', CanAttempt (run1 [99] []) (eng [99]) ∧ attempt (run1 [99] []) = .next s' ∧
      s'.engine?.map (·.status) = some .halted) ∧
    (∃ s', CanAttempt (run1 [] []) (eng []) ∧ attempt (run1 [] []) = .next s' ∧
      s'.engine?.map (·.status) = some .faulted) :=
  ⟨⟨_, can_attempt (by decide) (by decide), rfl, by decide⟩, ⟨_, can_attempt (by decide) (by decide), rfl, by decide⟩,
    ⟨_, can_attempt (by decide) (by decide), rfl, by decide⟩, ⟨_, can_attempt (by decide) (by decide), rfl, by decide⟩⟩
theorem witness_BlockingChangesOnlyStatus :
    (∃ s' e', CanAttempt (run1 [3, 0] []) (eng [3, 0]) ∧ attempt (run1 [3, 0] []) = .next s' ∧ s'.engine? = some e' ∧
      e'.status = .blockedIn) ∧
    (∃ s' e', CanAttempt (withCap1 (one (eng [104, 7]) (chan []) (chan [5]))) (eng [104, 7]) ∧
      attempt (withCap1 (one (eng [104, 7]) (chan []) (chan [5]))) = .next s' ∧ s'.engine? = some e' ∧
      e'.status = .blockedOut) :=
  ⟨⟨_, _, can_attempt (by decide) (by decide), rfl, rfl, rfl⟩, ⟨_, _, can_attempt (by decide) (by decide), rfl, rfl, rfl⟩⟩
theorem witness_OnlyInputOutputTouchChannels :
    CanAttempt (run1 [3, 0] []) (eng [3, 0]) ∧ (eng [3, 0]).fr = FaultRecord.empty ∧
    (∃ s' e', exec (.inp .position .position .position) (run1 [3, 0] []) = .next s' ∧ s'.engine? = some e' ∧
      e'.status = .blockedIn) ∧
    (∃ s' e', exec (.hlt .position .position .position) (run1 [3, 0] []) = .next s' ∧ s'.engine? = some e') :=
  ⟨can_attempt (by decide) (by decide), by decide, ⟨_, _, rfl, rfl, rfl⟩, ⟨_, _, rfl, rfl⟩⟩
theorem witness_BlockedInstructionCompletesWhenSatisfied :
    (∃ t f, CanAttempt (run1 [3, 0] []) (eng [3, 0]) ∧ (eng [3, 0]).mem.wf = true ∧ attempt (run1 [3, 0] []) = .next t ∧
      t.engine? = some f ∧ f.status = .blockedIn ∧ (chan [5]).q = 5 :: [] ∧ (chan [5]).rclosed = false) ∧
    (∃ t f, attempt (withCap1 (one (eng [104, 7]) (chan []) (chan [5]))) = .next t ∧ t.engine? = some f ∧
      f.status = .blockedOut ∧ (chan []).q.length < 1 ∧ (chan []).wclosed = false ∧ (chan []).rclosed = false) :=
  ⟨⟨_, _, can_attempt (by decide) (by decide), by decide, rfl, rfl, rfl, rfl, rfl⟩,
    ⟨_, _, rfl, rfl, rfl, by decide, rfl, rfl⟩⟩
theorem witness_FaultsArePrecise :
    ∃ s' e', CanAttempt (run1 [] []) (eng []) ∧ attempt (run1 [] []) = .next s' ∧ s'.engine? = some e' ∧
      e'.status = .faulted ∧ (eng []).mem.read? (eng []).pc = none :=
  ⟨_, _, can_attempt (by decide) (by decide), rfl, rfl, rfl, by decide⟩
theorem witness_EngineStepIsIsolated :
    (run1 [3, 1] [5]).engine? = some (eng [3, 1]) ∧
    ({ run1 [3, 1] [5] with phases := [1], engines := [eng [3, 1], eng [99]], channels := [chan [5], chan [], chan [8]] } :
      State).engine? = some (eng [3, 1]) ∧
    (∃ s', attempt (run1 [3, 1] [5]) = .next s') := ⟨by decide, by decide, _, rfl⟩
theorem witness_LaterInputChangesNothingDone :
    (run1 [3, 0, 3, 1] [5]).engine? = some (eng [3, 0, 3, 1]) ∧ (eng [3, 0, 3, 1]).inCh ≠ (eng [3, 0, 3, 1]).outCh ∧
    (completedRun 1 (run1 [3, 0, 3, 1] [5])).isSome = true := by decide
theorem witness_HaltedEngineHasResult :
    ∃ s' e', CanAttempt (run1 [99] []) (eng [99]) ∧ attempt (run1 [99] []) = .next s' ∧ s'.engine? = some e' ∧
      e'.status = .halted := ⟨_, _, can_attempt (by decide) (by decide), rfl, rfl, rfl⟩
/-- A run that goes on, and runs that return with each report. -/
theorem witness_RunReportsByStatus :
    (run1 [99] []).running = true ∧ (run1 [99] []).phase ≠ .await ∧ CanAttempt (run1 [99] []) (eng [99]) ∧
    (∃ t f, attempt (run1 [99] []) = .next t ∧ t.engine? = some f ∧ f.status = .halted ∧ f.mem.read? 0 = some 99) ∧
    (∃ t f, attempt (run1 [1105, 1, 0] []) = .next t ∧ t.engine? = some f ∧ f.status = .ready) ∧
    (∃ t f, attempt (run1 [3, 0] []) = .next t ∧ t.engine? = some f ∧ f.status = .blockedIn) ∧
    (∃ t f, attempt (run1 [] []) = .next t ∧ t.engine? = some f ∧ f.status = .faulted) :=
  ⟨by decide, by decide, can_attempt (by decide) (by decide), ⟨_, _, rfl, rfl, rfl, by decide⟩, ⟨_, _, rfl, rfl, rfl⟩,
    ⟨_, _, rfl, rfl, rfl⟩, ⟨_, _, rfl, rfl, rfl⟩⟩
theorem witness_RunOnEndedEngineReportsAgain :
    (one ((eng [99]).halt) (chan []) (chan [])).running = true ∧ (one ((eng [99]).halt) (chan []) (chan [])).phase ≠ .await ∧
    (one ((eng [99]).halt) (chan []) (chan [])).engine? = some (eng [99]).halt ∧ (eng [99]).halt.status = .halted ∧
    (eng [99]).halt.mem.read? 0 = some 99 ∧
    (one ((eng []).raise (Trap.outOfBounds 0)) (chan []) (chan [])).engine? = some ((eng []).raise (Trap.outOfBounds 0)) ∧
    ((eng []).raise (Trap.outOfBounds 0)).status = .faulted := by decide
theorem witness_NoInstructionOnEndedEngine :
    (one ((eng [99]).halt) (chan []) (chan [])).engine? = some (eng [99]).halt ∧ (eng [99]).halt.status = .halted := by decide

/-! The whole machine. -/

/-- A step that leaves a halted engine alone, and one that resets it. -/
theorem witness_EndedEnginesAreFinal :
    (∃ s', step (asked (one ((eng [99]).halt) (chan []) (chan [])) [.close 0 .producer]) = .next s') ∧
    (∃ s', step (asked (one ((eng [99]).halt) (chan []) (chan [])) [.load 0 [1]]) = .next s') ∧
    (one ((eng [99]).halt) (chan []) (chan [])).engines[0]? = some (eng [99]).halt ∧ (eng [99]).halt.status = .halted :=
  ⟨⟨_, rfl⟩, ⟨_, rfl⟩, by decide, by decide⟩
theorem witness_MemoryIsNeverExtended :
    (∃ s', step (run1 [1101, 1, 1, 3] []) = .next s') ∧ (run1 [1101, 1, 1, 3] []).engines[0]? = some (eng [1101, 1, 1, 3]) ∧
    (∃ s', step (asked (run1 [99] []) [.load 0 [1, 2]]) = .next s') ∧
    (asked (run1 [99] []) [.load 0 [1, 2]]).engines[0]? = some (eng [99]) := ⟨⟨_, rfl⟩, by decide, ⟨_, rfl⟩, by decide⟩
theorem witness_OnlyTheHostClosesEndpoints :
    (∃ s', step (run1 [3, 0] [5]) = .next s') ∧ (run1 [3, 0] [5]).channels[0]? = some (chan [5]) ∧
    (∃ s', step (asked (run1 [99] []) [.close 0 .producer]) = .next s') ∧
    (∃ s', step (asked (run1 [99] []) [.close 0 .consumer]) = .next s') ∧
    (∃ s', step (asked (run1 [99] [])
      [.launch { topo := .ring, driver := .cooperative, images := [[99]], phases := [5] }]) = .next s') ∧
    (run1 [99] []).channels[0]? = some (chan []) := ⟨⟨_, rfl⟩, by decide, ⟨_, rfl⟩, ⟨_, rfl⟩, ⟨_, rfl⟩, by decide⟩
theorem witness_ParametersNeverChange : ∃ s', step (run1 [99] []) = .next s' := ⟨_, rfl⟩

/-- A state with a run in progress that meets the invariant. -/
theorem run_inv : (run1 [3, 0, 99] [5]).Inv := by
  have he : (run1 [3, 0, 99] [5]).engines = [eng [3, 0, 99]] := rfl
  have hc : (run1 [3, 0, 99] [5]).channels = [chan [5], chan []] := rfl
  refine ⟨by decide, by decide, ?_, ?_, by decide, by decide, by decide, by decide, by decide, fun v h => (by cases h),
    ⟨by decide, by decide, fun _ _ _ => ?_, by decide, by decide, by decide, fun i h => (by cases h), fun h => (by cases h),
      by decide, by decide⟩⟩
  · intro e h
    rw [he] at h
    obtain rfl : e = eng [3, 0, 99] := by simpa using h
    exact Engine.Inv.load (by decide) (by decide)
  · intro c h
    rw [hc] at h
    have hcs : c = chan [5] ∨ c = chan [] := by simpa using h
    rcases hcs with rfl | rfl <;> exact ⟨by decide, by decide⟩
  · intro i h
    have hm : true ∈ (run1 [3, 0, 99] [5]).halted := List.mem_of_getElem? h
    exact absurd hm (by decide)
/-- The same engine with the run over and acts of the host pending. -/
theorem asked_inv (ops : List HostOp) : (asked (run1 [3, 0, 99] [5]) ops).Inv :=
  ⟨run_inv.config, run_inv.someEngine, run_inv.engines, run_inv.channels, run_inv.channelCount, run_inv.inWired,
    run_inv.outWired, run_inv.haltedCount, run_inv.phasesFit, run_inv.resultFits,
    ⟨run_inv.phaseInv.idleDriver, run_inv.phaseInv.idleHalted, run_inv.phaseInv.haltedEngine, run_inv.phaseInv.phaseCount,
      fun h => (by cases h), fun h => (by cases h), run_inv.phaseInv.preloadFirst, fun h => (by cases h),
      run_inv.phaseInv.resultDone, run_inv.phaseInv.faultFailed⟩⟩
theorem witness_StepKeepsInvariant : (run1 [3, 0, 99] [5]).Inv ∧ ∃ s', step (run1 [3, 0, 99] [5]) = .next s' :=
  ⟨run_inv, _, rfl⟩
/-- A run in progress, an act that is allowed and an act that is not. -/
theorem witness_InvariantStatesStepOn :
    (run1 [3, 0, 99] [5]).Inv ∧ (∃ s', step (run1 [3, 0, 99] [5]) = .next s') ∧
    (asked (run1 [3, 0, 99] [5]) [.run 0]).Inv ∧ Allowed (asked (run1 [3, 0, 99] [5]) [.run 0]) (.run 0) ∧
    (asked (run1 [3, 0, 99] [5]) [.run 1]).Inv ∧
    nextHostOp (asked (run1 [3, 0, 99] [5]) [.run 1]) (fun op => ¬Allowed (asked (run1 [3, 0, 99] [5]) [.run 1]) op) :=
  ⟨run_inv, ⟨_, rfl⟩, asked_inv _, ⟨.inl (.inl rfl), by decide⟩, asked_inv _, rfl, _, rfl, fun h => absurd h.2 (by decide)⟩

/-! Reset, construction and composer. -/

/-- A network at rest in a phase of the composer, its engines as given. -/
def atRest (topo : Topology) (engines : List Engine) (halted : List Bool) (cur : Nat) (phase : Phase) : State :=
  { network topo .cooperative (engines.map fun _ => []) (engines.map fun _ => 0) with
    engines := engines, halted := halted, cur := cur, phase := phase }

theorem composer_acts (topo : Topology) (engines : List Engine) (halted : List Bool) (cur : Nat) (phase : Phase) :
    ComposerActs (atRest topo engines halted cur phase) := ⟨rfl, rfl⟩

theorem witness_LoadResetsOneEngine :
    (asked (run1 [99] []) [.load 0 [1, 0, 2]]).running = false ∧
    LoopOver (asked (run1 [99] []) [.load 0 [1, 0, 2]]) ∧
    LoopOver (asked (atRest .chain [(eng [99]).halt] [true] 1 .extract) [.load 0 [1, 0, 2]]) ∧
    LoopOver (asked (atRest .chain [(eng [99]).halt] [true] 1 .done) [.load 0 [1, 0, 2]]) ∧
    LoopOver (asked (atRest .chain [(eng [3]).block .blockedIn] [false] 0 .failed) [.load 0 [1, 0, 2]]) ∧
    (asked (atRest .chain [(eng [99]).halt] [true] 1 .done) [.load 0 [1, 0, 2]]).engines[0]? = some (eng [99]).halt ∧
    (asked (run1 [99] []) [.load 0 [1, 0, 2]]).engines[0]? = some (eng [99]) ∧
    imageOk Config.standard [1, 0, 2] = true ∧ imageOk Config.standard [] = true :=
  ⟨by decide, .inl rfl, .inr (.inl rfl), .inr (.inr (.inl rfl)), .inr (.inr (.inr rfl)), by decide⟩
theorem witness_NewNetworkIsWired :
    (1 : Nat) = ([[99]] : List (List Int)).length ∧ (3 : Nat) = ([[99], [], [1]] : List (List Int)).length := by decide
theorem witness_PreloadFillsInputChannels :
    launchOk { Config.standard with cap := 2 } { topo := .chain, driver := .cooperative, images := [[99]], phases := [5] } =
      true ∧
    launchOk { Config.standard with cap := 2 }
      { topo := .ring, driver := .concurrent, images := [[99], []], phases := [5, 6] } = true ∧
    Driver.concurrent ≠ .external ∧ State.reset.hostOps = [] ∧ 2 ≤ ({ Config.standard with cap := 2 }).cap := by decide
theorem witness_PreloadRefusedWithoutRoom :
    launchOk (withCap1 State.reset).cfg { topo := .ring, driver := .cooperative, images := [[]], phases := [5] } = true ∧
    Driver.cooperative ≠ .external ∧ (withCap1 State.reset).hostOps = [] ∧ (withCap1 State.reset).cfg.cap = 1 := by decide

theorem witness_ChainComposerRule :
    ComposerActs (atRest .chain [eng [99]] [false] 0 .visit) ∧ (atRest .chain [eng [99]] [false] 0 .visit).topo = .chain ∧
    (atRest .chain [eng [99]] [false] 0 .visit).halted[0]? = some false ∧
    (atRest .chain [eng [99]] [true] 1 .visit).cur = (atRest .chain [eng [99]] [true] 1 .visit).halted.length ∧
    (atRest .chain [(eng [99]).halt] [false] 0 .await).engine? = some (eng [99]).halt ∧
    (atRest .chain [(eng [3]).block .blockedIn] [false] 0 .await).engine? = some ((eng [3]).block .blockedIn) ∧
    (atRest .chain [(eng []).raise (Trap.outOfBounds 0)] [false] 0 .await).engine? =
      some ((eng []).raise (Trap.outOfBounds 0)) :=
  ⟨composer_acts _ _ _ _ _, by decide⟩
theorem witness_RingComposerRule :
    ComposerActs (atRest .ring [eng [99]] [true] 0 .visit) ∧ (atRest .ring [eng [99]] [true] 0 .visit).topo = .ring ∧
    (atRest .ring [eng [99]] [true] 0 .visit).halted[0]? = some true ∧
    (atRest .ring [eng [99]] [false] 0 .visit).halted[0]? = some false ∧
    (∀ h ∈ (atRest .ring [eng [99]] [true] 1 .visit).halted, h = true) ∧
    (∃ h ∈ (atRest .ring [eng [99], eng [99]] [true, false] 2 .visit).halted, h = false) ∧
    (atRest .ring [(eng [99]).halt] [false] 0 .await).engine? = some (eng [99]).halt ∧
    (atRest .ring [(eng [4]).block .blockedOut] [false] 0 .await).engine? = some ((eng [4]).block .blockedOut) :=
  ⟨composer_acts _ _ _ _ _, by decide⟩
/-- A fault that is awaited; a concurrent fault of an engine that is not `cur`; all halted; one still at work. -/
theorem witness_EngineFaultEndsNetwork :
    ComposerActs (atRest .ring [eng [99], (eng []).raise (Trap.outOfBounds 0)] [false, false] 0 .threads) ∧
    (atRest .chain [(eng []).raise (Trap.outOfBounds 0)] [false] 0 .await).engine? =
      some ((eng []).raise (Trap.outOfBounds 0)) ∧
    (atRest .ring [eng [99], (eng []).raise (Trap.outOfBounds 0)] [false, false] 0 .threads).engines[1]? =
      some ((eng []).raise (Trap.outOfBounds 0)) ∧
    ((eng []).raise (Trap.outOfBounds 0)).status = .faulted ∧ (eng [99]).status ≠ .faulted ∧
    (∀ e ∈ (atRest .chain [(eng [99]).halt] [false] 0 .threads).engines, e.status = .halted) ∧
    (∀ e ∈ (atRest .chain [(eng [99]).halt, eng [3]] [false, false] 0 .threads).engines, e.status ≠ .faulted) ∧
    (∃ e ∈ (atRest .chain [(eng [99]).halt, eng [3]] [false, false] 0 .threads).engines, e.status ≠ .halted) ∧
    (atRest .chain [eng [99]] [false] 0 .failed).phase = .failed ∧ (atRest .chain [eng [99]] [true] 1 .done).phase = .done :=
  ⟨composer_acts _ _ _ _ _, by decide⟩
theorem witness_ResultIsLastDrainedValue :
    ComposerActs (atRest .chain [eng [99]] [true] 1 .extract) ∧
    (atRest .chain [eng [99]] [true] 1 .extract).channels[1]? = some (chan []) ∧ (chan []).rclosed = false ∧
    ({ atRest .ring [eng [99]] [true] 1 .extract with channels := [chan [4, 7]] }).channels[0]? = some (chan [4, 7]) ∧
    (chan [4, 7]).q = [4] ++ [7] := ⟨composer_acts _ _ _ _ _, by decide⟩
/-- Each phase of a composer at work, an act of the host pending, and a network that may be launched. -/
theorem witness_OnlyTheComposerDrivesANetwork :
    ComposerAtWork (asked (atRest .ring [eng [99]] [false] 0 (.preload 0)) [.push 0 1]) ∧
    ComposerAtWork (asked (atRest .ring [eng [99]] [false] 0 .visit) [.run 0]) ∧
    ComposerAtWork (asked (atRest .ring [eng [99]] [false] 0 .await) [.attempt 0]) ∧
    ComposerAtWork (asked (atRest .ring [eng [99]] [false] 0 .threads) [.load 0 []]) ∧
    (asked (atRest .ring [eng [99]] [false] 0 .visit) [.close 0 .producer]).channels[0]? = some (chan []) ∧
    launchOk Config.standard { topo := .chain, driver := .external, images := [[]], phases := [] } = true ∧
    (∃ s', composerStep (atRest .ring [eng [99]] [false] 0 (.preload 0)) = .next s') ∧
    (∃ s', composerStep (atRest .ring [eng [99]] [false] 0 .visit) = .next s') ∧
    (∃ s', composerStep (atRest .ring [(eng [99]).halt] [false] 0 .await) = .next s') ∧
    (∃ s', composerStep (atRest .ring [eng [99]] [false] 0 .threads) = .next s') :=
  ⟨.inl ⟨0, rfl⟩, .inr (.inl rfl), .inr (.inr (.inl rfl)), .inr (.inr (.inr rfl)), by decide, by decide, ⟨_, rfl⟩, ⟨_, rfl⟩,
    ⟨_, rfl⟩, _, rfl⟩
/-- Each allowed act, at the boundary of its conditions: the preload of an engine's input, a full and a closed channel. -/
theorem witness_AllowedHostActsTakeEffect :
    Allowed (asked (run1 [99] []) [.launch { topo := .ring, driver := .cooperative, images := [[99]], phases := [5] }])
      (.launch { topo := .ring, driver := .cooperative, images := [[99]], phases := [5] }) ∧
    Allowed (asked (run1 [99] []) [.run 0]) (.run 0) ∧
    Allowed (asked (one (eng [99]).halt (chan []) (chan [])) [.attempt 0]) (.attempt 0) ∧
    Allowed (asked (run1 [99] []) [.push 0 9223372036854775807]) (.push 0 9223372036854775807) ∧
    Allowed (asked (network .ring .external [[99]] []) [.push 0 5]) (.push 0 5) ∧
    (withCap1 (asked (run1 [99] [5]) [.push 0 5])).channels[0]? = some (chan [5]) ∧
    (withCap1 (asked (run1 [99] [5]) [.push 0 5])).cfg.cap ≤ (chan [5]).q.length ∧
    Allowed (asked (one (eng [99]) (chan []) (chan [7])) [.pop 1]) (.pop 1) ∧
    Allowed (asked (one (eng [99]) (chan []) { chan [7] with rclosed := true }) [.drain 1]) (.drain 1) ∧
    Allowed (asked (run1 [99] []) [.close 1 .consumer]) (.close 1 .consumer) ∧
    Allowed (asked (atRest .ring [eng [99]] [false] 0 .visit) [.yield]) .yield :=
  ⟨by unfold Allowed; decide, ⟨.inl (.inl rfl), by decide⟩, ⟨.inl (.inl rfl), by decide⟩, ⟨by decide, by decide, .inl ⟨.inl rfl, by decide⟩⟩,
    ⟨by decide, by decide, .inr ⟨rfl, rfl, by decide⟩⟩, by decide, by decide, ⟨by decide, .inl rfl, .inl (by decide)⟩,
    ⟨by decide, .inl rfl, .inl (by decide)⟩, by unfold Allowed; decide, trivial⟩
theorem witness_HostUsesOnlyItsOwnEnds :
    (asked (run1 [99] []) [.push 1 5]).running = false ∧ (asked (run1 [99] []) [.push 1 5]).channels[1]? = some (chan []) ∧
    (asked (run1 [99] []) [.push 1 5]).hostStarted = true ∧
    (eng [99]).outCh = 1 ∧ eng [99] ∈ (asked (run1 [99] []) [.push 1 5]).engines ∧
    (asked (run1 [99] []) [.pop 0]).channels[0]? = some (chan []) ∧ (eng [99]).inCh = 0 ∧ (eng [99]).status ≠ .halted := by
  decide
theorem witness_RingWithoutProgressHangs :
    ComposerActs (atRest .ring [{ (eng [3, 0]).block .blockedIn with outCh := 0 }] [false] 0 .visit) ∧
    (∃ i : Nat, (atRest .ring [{ (eng [3, 0]).block .blockedIn with outCh := 0 }] [false] 0 .visit).halted[i]? = some false) ∧
    (∀ i : Nat, (atRest .ring [{ (eng [3, 0]).block .blockedIn with outCh := 0 }] [false] 0 .visit).halted[i]? = some false →
      ∃ e, (atRest .ring [{ (eng [3, 0]).block .blockedIn with outCh := 0 }] [false] 0 .visit).engines[i]? = some e ∧
        (e.status = .blockedIn ∨ e.status = .blockedOut) ∧
        attempt { atRest .ring [{ (eng [3, 0]).block .blockedIn with outCh := 0 }] [false] 0 .visit with cur := i } =
          .next { atRest .ring [{ (eng [3, 0]).block .blockedIn with outCh := 0 }] [false] 0 .visit with cur := i }) := by
  refine ⟨composer_acts _ _ _ _ _, ⟨0, rfl⟩, fun i hi => ?_⟩
  obtain rfl : i = 0 := by
    have hl : i < 1 := (List.getElem?_eq_some_iff.mp hi).1
    omega
  exact ⟨_, rfl, .inl rfl, rfl⟩

end Sys2Proof.Tests
end

section
/-! SUPPORT. What a step does to the lengths of the memories (spec/20_memory.md R57). -/

namespace Sys2Proof.Machine

open Sys2Proof.Claims

/-- `LEN` of engine `i`; none where the network has no such engine. -/
def State.memLen? (s : State) (i : Nat) : Option Nat := s.engines[i]?.map (·.mem.len)

theorem State.memLen?_of_engines_eq {s s' : State} (h : s'.engines = s.engines) (i : Nat) : s'.memLen? i = s.memLen? i := by
  simp [State.memLen?, h]

/-- Replacing the running engine by one whose memory is as long keeps every length. -/
theorem State.memLen?_setEngine {s : State} {e e' : Engine} (he : s.engine? = some e) (hlen : e'.mem.len = e.mem.len)
    (i : Nat) : (s.setEngine e').memLen? i = s.memLen? i := by
  unfold State.memLen?
  by_cases hi : i = s.cur
  · subst hi
    have hset : (s.setEngine e').engines[s.cur]? = some e' := State.engine?_setEngine s e e' he
    have hcur : s.engines[s.cur]? = some e := he
    simp only [hset, hcur, Option.map_some, hlen]
  · rw [State.setEngine_other s e' i hi]

theorem attempt_memLen? {s s' : State} (h : attempt s = .next s') (i : Nat) : s'.memLen? i = s.memLen? i := by
  obtain ⟨e, e', chs, he, rfl, -, -, -, hlen⟩ := attempt_frame h
  exact State.memLen?_setEngine he hlen i

/-- The composer writes no engine: it only invokes them (R188). -/
theorem ComposerMove.engines {s s' : State} (h : ComposerMove s s') : s'.engines = s.engines := by
  cases h <;> simp

/-- An operation of the external driver changes the length of a memory only by a reset of its engine. -/
theorem HostMove.memLen? {s s' : State} {op : HostOp} (h : HostMove s op s') (i : Nat) :
    s'.memLen? i = s.memLen? i ∨ resets i op := by
  cases h with
  | launch => exact .inr trivial
  | @load j image e hph he hok =>
    by_cases hj : j = i
    · exact .inr hj
    · exact .inl (by simp [State.memLen?, List.getElem?_set_ne hj])
  | attempt _ _ _ h => exact .inl (attempt_memLen? h i)
  | yield h => exact .inl (State.memLen?_of_engines_eq (composerStep_cases h).engines i)
  | _ => exact .inl (State.memLen?_of_engines_eq (by simp) i)

theorem step_memLen? {s s' : State} (h : step s = .next s') (i : Nat) :
    s'.memLen? i = s.memLen? i ∨ nextHostOp s (resets i) := by
  cases step_cases h with
  | @attempt s1 _ _ _ _ hat =>
    exact .inl ((State.memLen?_of_engines_eq s1.afterAttempt_engines i).trans (attempt_memLen? hat i))
  | ended => exact .inl (State.memLen?_of_engines_eq s.endRun_engines i)
  | @host op _ _ hr hops hmove =>
    exact (hmove.memLen? i).imp_right fun hreset => ⟨hr, op, by simp [hops], hreset⟩
  | composer _ _ hmove => exact .inl (State.memLen?_of_engines_eq hmove.engines i)

/-- Settles O42: `LEN` of an engine changes with a reset of it only, in whatever way the step was made. -/
theorem memoryIsNeverExtended : Obligations.MemoryIsNeverExtended := by
  intro s s' i e hstep he
  refine (step_memLen? hstep i).imp_left fun hlen => ?_
  simpa [State.memLen?, he] using hlen

end Sys2Proof.Machine
end

section
/-! SUPPORT. The digits of an instruction word, and the length that its opcode gives (spec/30_encoding.md R92, R102). -/

namespace Sys2Proof

/-- `digit` of a word that is not negative is the decimal digit of R92. -/
theorem digit_toNat {iw : Int} (hiw : 0 ≤ iw) (k : Nat) : (digit k iw.toNat : Int) = iw / 10 ^ k % 10 := by
  simp [digit, hiw]

/-- The length column of the opcode map (R93). -/
theorem Instr.length_eq_of_opcode (i : Instr) :
    i.length =
      if i.opcode = 99 then 1
      else if i.opcode = 3 ∨ i.opcode = 4 ∨ i.opcode = 9 then 2
      else if i.opcode = 5 ∨ i.opcode = 6 then 3
      else 4 := by
  cases i <;> rfl

/-- Settles O3: the opcode map and the mode map keep the numbers they are given, and these are digits of the word. -/
theorem decodeReadsDigits : Obligations.DecodeReadsDigits := by
  intro rel iw i hdec
  obtain ⟨hiw, mk, a, b, c, hmk, ha, hb, hc, rfl⟩ := decode_eq_ok.mp hdec
  obtain ⟨hop, hmodes, -⟩ := instrOfOpcode_some hmk a b c
  have hword : (iw.toNat : Int) = iw := Int.toNat_of_nonneg hiw
  rw [hop, hmodes, (modeOfDigit_some ha).1, (modeOfDigit_some hb).1, (modeOfDigit_some hc).1]
  exact ⟨hiw, by omega, digit_toNat hiw 2, digit_toNat hiw 3, digit_toNat hiw 4⟩

/-- Settles O7: the length is a function of the opcode, and the opcode is the word mod 100. -/
theorem lengthFromOpcodeAlone : Obligations.LengthFromOpcodeAlone := by
  intro rel iw i hdec
  obtain ⟨-, hop, -⟩ := decodeReadsDigits rel iw i hdec
  rw [← hop, i.length_eq_of_opcode]
  norm_cast

end Sys2Proof
end

section
/-! SUPPORT. The F3 shape, clause by clause, and the rule it gives every instruction that runs it (spec/30_encoding.md R93;
spec/40_arithmetic.md R120, R121; spec/45_run_loop.md R150). -/

namespace Sys2Proof

/-- The formula of R101 over the integers. -/
theorem encode_eq (i : Instr) :
    encode i = i.opcode + 100 * i.modes.1.digit + 1000 * i.modes.2.1.digit + 10000 * i.modes.2.2.digit := by
  simp [encode]

end Sys2Proof

namespace Sys2Proof.Machine

open Sys2Proof.Claims

/-! ### What an attempt answers -/

/-- A meaning answers what its body answers on an engine that may attempt an instruction. -/
theorem onEngine_of_canAttempt {s : State} {e : Engine} (h : CanAttempt s e)
    (k : Engine → Host.Outcome State Fault Refusal) : s.onEngine k = k e :=
  onEngine_of k h.engine (permitsStep_iff.mpr h.permits)

@[simp] theorem State.commit_ok (s : State) (e e' : Engine) : s.commit e (.ok e') = s.setEngine e' := rfl

/-- An attempt that faults leaves the engine of R205. -/
@[simp] theorem State.commit_error (s : State) (e : Engine) (t : Trap) :
    s.commit e (.error t) = s.setEngine (faulted e t) := rfl

/-! ### The F3 shape -/

section
variable {cfg : Config} {e : Engine} {m0 m1 m2 : Mode} {f : Int → Int → Except Trap Int} {va vb a r : Int} {t : Trap}

theorem storeResult_first_error (h0 : readParam cfg e 1 m0 = .error t) : storeResult cfg e m0 m1 m2 f = .error t := by
  simp [storeResult, h0, bind, Except.bind]

theorem storeResult_second_error (h0 : readParam cfg e 1 m0 = .ok va) (h1 : readParam cfg e 2 m1 = .error t) :
    storeResult cfg e m0 m1 m2 f = .error t := by
  simp [storeResult, h0, h1, bind, Except.bind]

theorem storeResult_target_error (h0 : readParam cfg e 1 m0 = .ok va) (h1 : readParam cfg e 2 m1 = .ok vb)
    (h2 : writeTarget cfg e 3 m2 = .error t) : storeResult cfg e m0 m1 m2 f = .error t := by
  simp [storeResult, h0, h1, h2, bind, Except.bind]

theorem storeResult_result_error (h0 : readParam cfg e 1 m0 = .ok va) (h1 : readParam cfg e 2 m1 = .ok vb)
    (h2 : writeTarget cfg e 3 m2 = .ok a) (hf : f va vb = .error t) : storeResult cfg e m0 m1 m2 f = .error t := by
  simp [storeResult, h0, h1, h2, hf, bind, Except.bind]

/-- The write cannot fault: `WriteTarget` has checked its address. -/
theorem storeResult_eq_complete (h0 : readParam cfg e 1 m0 = .ok va) (h1 : readParam cfg e 2 m1 = .ok vb)
    (h2 : writeTarget cfg e 3 m2 = .ok a) (hf : f va vb = .ok r) :
    storeResult cfg e m0 m1 m2 f = .ok (e.complete (e.mem.write a r) (e.pc + 4)) := by
  simp [storeResult, h0, h1, h2, hf, memWrite_of_inBounds (writeTarget_ok h2), bind, Except.bind]

end

/-- An instruction that is encoded with opcode `op` in 4 words and runs the F3 shape with result `f` obeys the rule of that
format. -/
theorem storeRule_of_storeResult {mk : Mode → Mode → Mode → Instr} {op : Int} {f : Config → Int → Int → Except Trap Int}
    (hword : ∀ m0 m1 m2, encode (mk m0 m1 m2) = op + 100 * m0.digit + 1000 * m1.digit + 10000 * m2.digit)
    (hlen : ∀ m0 m1 m2, (mk m0 m1 m2).length = 4)
    (hexec : ∀ m0 m1 m2 s, exec (mk m0 m1 m2) s =
      s.onEngine fun e => .next (s.commit e (storeResult s.cfg e m0 m1 m2 (f s.cfg)))) :
    StoreRule mk op f := by
  intro m0 m1 m2 s e hatt hwf
  have hrun : exec (mk m0 m1 m2) s = .next (s.commit e (storeResult s.cfg e m0 m1 m2 (f s.cfg))) := by
    rw [hexec, onEngine_of_canAttempt hatt]
  rw [hrun]
  refine ⟨⟨hword m0 m1 m2, hlen m0 m1 m2⟩, ?_, ?_, ?_, ?_, ?_⟩
  · intro t h0
    rw [storeResult_first_error h0, State.commit_error]
  · intro va t h0 h1
    rw [storeResult_second_error h0 h1, State.commit_error]
  · intro va vb t h0 h1 h2
    rw [storeResult_target_error h0 h1 h2, State.commit_error]
  · intro va vb a t h0 h1 h2 hf
    rw [storeResult_result_error h0 h1 h2 hf, State.commit_error]
  · intro va vb a r h0 h1 h2 hf
    rw [storeResult_eq_complete h0 h1 h2 hf]
    exact ⟨e.mem.write a r, rfl, Memory.write_len .., fun b => Memory.read?_write hwf (writeTarget_ok h2)⟩

/-- Settles O15: Add runs the F3 shape with `arith` of the sum. -/
theorem addRule : Obligations.AddRule :=
  storeRule_of_storeResult (fun _ _ _ => encode_eq _) (fun _ _ _ => rfl) fun _ _ _ _ => rfl

/-- Settles O16: Multiply runs the F3 shape with `arith` of the product. -/
theorem multiplyRule : Obligations.MultiplyRule :=
  storeRule_of_storeResult (fun _ _ _ => encode_eq _) (fun _ _ _ => rfl) fun _ _ _ _ => rfl

end Sys2Proof.Machine
end

section
/-! SUPPORT. The comparisons are the F3 shape with a result that never faults (spec/41_compare.md R125, R126). -/

namespace Sys2Proof.Machine

/-- The word of a comparison is the `? 1 : 0` of R125 and R126. -/
theorem boolWord_decide (p : Prop) [Decidable p] : boolWord (decide p) = if p then 1 else 0 := by
  simp [boolWord]

/-- A comparison runs the F3 shape with result `boolWord`; its rule says the same word as `? 1 : 0`. -/
theorem storeRule_of_compare {mk : Mode → Mode → Mode → Instr} {op : Int} {p : Int → Int → Prop}
    [∀ va vb, Decidable (p va vb)]
    (hword : ∀ m0 m1 m2, encode (mk m0 m1 m2) = op + 100 * m0.digit + 1000 * m1.digit + 10000 * m2.digit)
    (hlen : ∀ m0 m1 m2, (mk m0 m1 m2).length = 4)
    (hexec : ∀ m0 m1 m2 s, exec (mk m0 m1 m2) s = s.onEngine fun e =>
      .next (s.commit e (storeResult s.cfg e m0 m1 m2 fun va vb => .ok (boolWord (decide (p va vb)))))) :
    Claims.StoreRule mk op fun _ va vb => .ok (if p va vb then 1 else 0) := by
  simp only [boolWord_decide] at hexec
  exact storeRule_of_storeResult hword hlen hexec

/-- Settles O17: LessThan compares its values as signed integers. -/
theorem lessThanRule : Obligations.LessThanRule :=
  storeRule_of_compare (fun _ _ _ => encode_eq _) (fun _ _ _ => rfl) fun _ _ _ _ => rfl

/-- Settles O18: Equals compares its values for equality. -/
theorem equalsRule : Obligations.EqualsRule :=
  storeRule_of_compare (fun _ _ _ => encode_eq _) (fun _ _ _ => rfl) fun _ _ _ _ => rfl

end Sys2Proof.Machine
end

section
/-! SUPPORT. The three outcomes of a send, and what an Output makes of each (spec/43_io.md R136). -/

namespace Sys2Proof.Machine

open Sys2Proof.Claims

/-- A closed end, of either side, is found before the capacity is compared (R69). -/
theorem trySend_closed {c : Channel} (cap : Nat) (v : Int) (h : c.wclosed = true ∨ c.rclosed = true) :
    c.trySend cap v = (.closed, c) := by
  have hend : (c.wclosed || c.rclosed) = true := by simpa using h
  simp [Channel.trySend, hend]

theorem trySend_full {cap : Nat} {c : Channel} (v : Int) (hw : c.wclosed = false) (hr : c.rclosed = false)
    (hfull : cap ≤ c.q.length) : c.trySend cap v = (.full, c) := by
  simp [Channel.trySend, hw, hr, hfull]

section
variable {s : State} {e : Engine} {m0 m1 m2 : Mode}

/-- A fault of the parameter ends an Output before it looks at its channel. -/
theorem exec_out_of_param_error {t : Trap} (h : CanAttempt s e) (hv : readParam s.cfg e 1 m0 = .error t) :
    exec (.out m0 m1 m2) s = .next (s.setEngine (faulted e t)) := by
  simp only [exec, execOut, onEngine_of_canAttempt h, hv]
  rfl

/-- Past its parameter, an Output is one send of the value. -/
theorem exec_out_of_param_ok {v : Int} {c : Channel} (h : CanAttempt s e) (hv : readParam s.cfg e 1 m0 = .ok v)
    (hc : s.channel? e.outCh = some c) :
    exec (.out m0 m1 m2) s = .next (outputTo s e (c.trySend s.cfg.cap v)) := by
  simp only [exec, execOut, onEngine_of_canAttempt h, hv, hc]

end

/-- Settles O23: the parameter is resolved first; then the three outcomes of the one send are the last three clauses. -/
theorem outputRule : Obligations.OutputRule := by
  intro m0 m1 m2 s e hatt
  refine ⟨⟨encode_eq _, rfl⟩, fun t hv => exec_out_of_param_error hatt hv, fun v c hv hc => ?_⟩
  rw [exec_out_of_param_ok hatt hv hc]
  refine ⟨fun hw hr hroom => ?_, fun hw hr hfull => ?_, fun hclosed => ?_⟩
  · rw [trySend_ok v hw hr hroom]; rfl
  · rw [trySend_full v hw hr hfull]; rfl
  · rw [trySend_closed _ v hclosed]; rfl

end Sys2Proof.Machine
end

section
/-! SUPPORT. How an instruction leaves the engine that ran it, and that only Input and Output touch a channel, suspend, or find
an end closed (spec/43_io.md R134). -/

namespace Sys2Proof.Machine

/-- Only an Input raises `InputClosed` (R134). -/
theorem InstrTrap.inp_of_inputClosed {e : Engine} {i : Instr} {t : Trap} (h : InstrTrap e i t) (ht : t.cause = .inputClosed) :
    ∃ m0 m1 m2, i = .inp m0 m1 m2 := by
  cases h with
  | inputClosed => exact ⟨_, _, _, rfl⟩
  | operand h => obtain rfl | ⟨a, rfl, -⟩ := h <;> cases ht
  | _ => cases ht

/-- Only an Output raises `OutputClosed` (R134). -/
theorem InstrTrap.out_of_outputClosed {e : Engine} {i : Instr} {t : Trap} (h : InstrTrap e i t)
    (ht : t.cause = .outputClosed) : ∃ m0 m1 m2, i = .out m0 m1 m2 := by
  cases h with
  | outputClosed => exact ⟨_, _, _, rfl⟩
  | operand h => obtain rfl | ⟨a, rfl, -⟩ := h <;> cases ht
  | _ => cases ht

/-- How an instruction `i` that began on engine `e` of `s` leaves the machine `s'` and its engine `e'` (R150, steps 6 to 9). -/
inductive Ending (s : State) (e : Engine) (i : Instr) (s' : State) (e' : Engine) : Prop where
  | succeeds (hst : e'.status = .ready ∨ e'.status = .halted) (hfr : e'.fr = e.fr)
  | faults {t : Trap} (ht : InstrTrap e i t) (he' : e' = e.raise t)
  | blocksIn (hi : ∃ m0 m1 m2, i = .inp m0 m1 m2) (he' : e' = e.block .blockedIn) (hs' : s' = s.setEngine e')
  | blocksOut (hi : ∃ m0 m1 m2, i = .out m0 m1 m2) (he' : e' = e.block .blockedOut) (hs' : s' = s.setEngine e')

theorem Effect.ending {s s' : State} {e e' : Engine} {i : Instr} (h : Effect s e i s') (he : s.engine? = some e)
    (he' : s'.engine? = some e') : Ending s e i s' e' := by
  -- every effect ends with `setEngine`, so `e'` is the engine it sets
  have hset (s₀ : State) (e₁ : Engine) (h₀ : s₀.engine? = some e) (h₁ : (s₀.setEngine e₁).engine? = some e') : e' = e₁ := by
    simpa [State.engine?_setEngine s₀ e e₁ h₀] using h₁.symm
  cases h with
  | fault ht => exact .faults ht (hset _ _ he he')
  | blockIn =>
    obtain rfl := hset _ _ he he'
    exact .blocksIn ⟨_, _, _, rfl⟩ rfl rfl
  | blockOut =>
    obtain rfl := hset _ _ he he'
    exact .blocksOut ⟨_, _, _, rfl⟩ rfl rfl
  | halt => obtain rfl := hset _ _ he he'; exact .succeeds (.inr rfl) rfl
  | _ => obtain rfl := hset _ _ he he'; exact .succeeds (.inl rfl) rfl

/-- An instruction that is neither Input nor Output leaves every channel (R134). -/
theorem Effect.channels_eq {s s' : State} {e : Engine} {i : Instr} (h : Effect s e i s')
    (hi : ∀ m0 m1 m2, i ≠ .inp m0 m1 m2 ∧ i ≠ .out m0 m1 m2) : s'.channels = s.channels := by
  cases h with
  | receive => exact absurd rfl (hi _ _ _).1
  | send => exact absurd rfl (hi _ _ _).2
  | _ => rfl

section
variable {s s' : State} {e e' : Engine} {i : Instr}

theorem Ending.inp_of_blockedIn (h : Ending s e i s' e') (hst : e'.status = .blockedIn) : ∃ m0 m1 m2, i = .inp m0 m1 m2 := by
  cases h with
  | succeeds hst' => obtain h | h := hst' <;> simp [h] at hst
  | faults _ he' => simp [he'] at hst
  | blocksIn hi => exact hi
  | blocksOut _ he' => simp [he'] at hst

theorem Ending.out_of_blockedOut (h : Ending s e i s' e') (hst : e'.status = .blockedOut) :
    ∃ m0 m1 m2, i = .out m0 m1 m2 := by
  cases h with
  | succeeds hst' => obtain h | h := hst' <;> simp [h] at hst
  | faults _ he' => simp [he'] at hst
  | blocksIn _ he' => simp [he'] at hst
  | blocksOut hi => exact hi

/-- A cause in a record that was empty is that of a fault the instruction raises. -/
theorem Ending.trap_of_cause {k : Cause} (h : Ending s e i s' e') (hfr : e.fr = FaultRecord.empty)
    (hk : e'.fr.cause = some k) : ∃ t, InstrTrap e i t ∧ t.cause = k := by
  cases h with
  | succeeds _ hfr' => simp [hfr', hfr, FaultRecord.empty] at hk
  | faults ht he' => exact ⟨_, ht, by simpa [he'] using hk⟩
  | blocksIn _ he' => simp [he', hfr, FaultRecord.empty] at hk
  | blocksOut _ he' => simp [he', hfr, FaultRecord.empty] at hk

/-- An instruction that suspends changes nothing but the status of its engine. -/
theorem Ending.eq_of_blocked (h : Ending s e i s' e') (hst : e'.status = .blockedIn ∨ e'.status = .blockedOut) :
    s' = s.setEngine { e with status := e'.status } := by
  cases h with
  | succeeds hst' => obtain h | h := hst' <;> simp [h] at hst
  | faults _ he' => simp [he'] at hst
  | blocksIn _ he' hs' => subst he'; exact hs'
  | blocksOut _ he' hs' => subst he'; exact hs'

end

/-- Settles O32: the effect of the instruction says how it ends and which channel it may touch. -/
theorem onlyInputOutputTouchChannels : Obligations.OnlyInputOutputTouchChannels := by
  intro i s s' e e' hatt hfr hexec he'
  obtain ⟨e₁, he₁, -, heff⟩ := exec_effect hexec
  obtain rfl : e = e₁ := by simpa [hatt.engine] using he₁
  have hend := heff.ending hatt.engine he'
  refine ⟨fun hi => ⟨fun hst => ?_, fun hcause => ?_⟩, fun hi => ⟨fun hst => ?_, fun hcause => ?_⟩, heff.channels_eq,
    hend.eq_of_blocked⟩
  · obtain ⟨m0, m1, m2, hinp⟩ := hend.inp_of_blockedIn hst
    exact hi m0 m1 m2 hinp
  · obtain ⟨t, ht, hk⟩ := hend.trap_of_cause hfr hcause
    obtain ⟨m0, m1, m2, hinp⟩ := ht.inp_of_inputClosed hk
    exact hi m0 m1 m2 hinp
  · obtain ⟨m0, m1, m2, hout⟩ := hend.out_of_blockedOut hst
    exact hi m0 m1 m2 hout
  · obtain ⟨t, ht, hk⟩ := hend.trap_of_cause hfr hcause
    obtain ⟨m0, m1, m2, hout⟩ := ht.out_of_outputClosed hk
    exact hi m0 m1 m2 hout

end Sys2Proof.Machine
end

section
/-! SUPPORT. An attempt looks at the parameters, the running engine and that engine's two channels, and at nothing else of the
machine (spec/45_run_loop.md R161): two machines that agree on these answer alike, and agree on them after it. -/

namespace Sys2Proof.Machine

/-- The machines agree on the parameters, on the engine that is running and on the channels `i` and `o`. -/
structure State.Agree (i o : Nat) (s t : State) : Prop where
  cfg : s.cfg = t.cfg
  engine : s.engine? = t.engine?
  input : s.channel? i = t.channel? i
  output : s.channel? o = t.channel? o

/-- Outcomes of one kind: for the same reason, or with next states that agree. -/
inductive AnswerAlike (i o : Nat) : Host.Outcome State Fault Refusal → Host.Outcome State Fault Refusal → Prop where
  | next {s t : State} (h : s.Agree i o t) : AnswerAlike i o (.next s) (.next t)
  | fault (r : Fault) : AnswerAlike i o (.fault r) (.fault r)
  | refused (r : Refusal) : AnswerAlike i o (.refused r) (.refused r)

/-! ### The updates of the state keep the agreement -/

theorem State.engine?_setEngine_eq_map (s : State) (e : Engine) : (s.setEngine e).engine? = s.engine?.map fun _ => e := by
  simp [State.engine?, List.getElem?_set_self', Function.const_def]

theorem State.channel?_setChannel_eq_ite (s : State) (c d : Nat) (ch : Channel) :
    (s.setChannel c ch).channel? d = if c = d then (s.channel? d).map (fun _ => ch) else s.channel? d := by
  simp [State.channel?, List.getElem?_set', Function.const_def]

section
variable {i o : Nat} {s t : State}

theorem State.Agree.setEngine (h : s.Agree i o t) (e : Engine) : (s.setEngine e).Agree i o (t.setEngine e) where
  cfg := h.cfg
  engine := by simp only [State.engine?_setEngine_eq_map, h.engine]
  input := h.input
  output := h.output

theorem State.Agree.setChannel (h : s.Agree i o t) (c : Nat) (ch : Channel) :
    (s.setChannel c ch).Agree i o (t.setChannel c ch) where
  cfg := h.cfg
  engine := h.engine
  input := by simp only [State.channel?_setChannel_eq_ite, h.input]
  output := by simp only [State.channel?_setChannel_eq_ite, h.output]

theorem State.Agree.commit (h : s.Agree i o t) (e : Engine) (r : Except Trap Engine) :
    (s.commit e r).Agree i o (t.commit e r) := by
  cases r with
  | ok e' => exact h.setEngine e'
  | error tr => exact h.setEngine (e.raise tr)

theorem State.Agree.inputFrom (h : s.Agree i o t) (e : Engine) (a : Int) (r : RecvResult × Channel) :
    (inputFrom s e a r).Agree i o (inputFrom t e a r) := by
  obtain ⟨v | _ | _, c⟩ := r
  · simp only [Machine.inputFrom]
    cases memWrite e.mem a v with
    | ok mem => exact (h.setChannel e.inCh c).setEngine _
    | error tr => exact h.setEngine _
  · exact h.setEngine _
  · exact h.setEngine _

theorem State.Agree.outputTo (h : s.Agree i o t) (e : Engine) (r : SendResult × Channel) :
    (outputTo s e r).Agree i o (outputTo t e r) := by
  obtain ⟨_ | _ | _, c⟩ := r
  · exact (h.setChannel e.outCh c).setEngine _
  · exact h.setEngine _
  · exact h.setEngine _

end

/-! ### Every instruction answers alike -/

section
variable {s t : State} {e : Engine}

theorem onEngine_alike {i o : Nat} {j k : Engine → Host.Outcome State Fault Refusal} (h : s.Agree i o t)
    (he : s.engine? = some e) (hjk : AnswerAlike i o (j e) (k e)) : AnswerAlike i o (s.onEngine j) (t.onEngine k) := by
  have he' : t.engine? = some e := h.engine ▸ he
  simp only [State.onEngine, he, he']
  split
  · exact hjk
  · exact .fault _

/-- An Input looks at one channel, the engine's input channel. -/
theorem execIn_alike (h : s.Agree e.inCh e.outCh t) (he : s.engine? = some e) (m0 : Mode) :
    AnswerAlike e.inCh e.outCh (execIn m0 s) (execIn m0 t) := by
  refine onEngine_alike h he ?_
  rw [h.cfg, h.input]
  cases writeTarget t.cfg e 1 m0 with
  | error tr => exact .next (h.setEngine _)
  | ok a =>
    cases t.channel? e.inCh with
    | none => exact .refused _
    | some c => exact .next (h.inputFrom e a _)

/-- An Output looks at one channel, the engine's output channel. -/
theorem execOut_alike (h : s.Agree e.inCh e.outCh t) (he : s.engine? = some e) (m0 : Mode) :
    AnswerAlike e.inCh e.outCh (execOut m0 s) (execOut m0 t) := by
  refine onEngine_alike h he ?_
  rw [h.cfg, h.output]
  cases readParam t.cfg e 1 m0 with
  | error tr => exact .next (h.setEngine _)
  | ok v =>
    cases t.channel? e.outCh with
    | none => exact .refused _
    | some c => exact .next (h.outputTo e _)

theorem exec_alike (h : s.Agree e.inCh e.outCh t) (he : s.engine? = some e) (i : Instr) :
    AnswerAlike e.inCh e.outCh (exec i s) (exec i t) := by
  -- what an instruction without a channel commits is a function of the parameters and the engine
  have hcommit (r : Config → Engine → Except Trap Engine) :
      AnswerAlike e.inCh e.outCh (s.onEngine fun e => .next (s.commit e (r s.cfg e)))
        (t.onEngine fun e => .next (t.commit e (r t.cfg e))) :=
    onEngine_alike h he (h.cfg ▸ .next (h.commit e _))
  cases i with
  | inp m0 _ _ => exact execIn_alike h he m0
  | out m0 _ _ => exact execOut_alike h he m0
  | add m0 m1 m2 => exact hcommit fun cfg e => storeResult cfg e m0 m1 m2 fun va vb => arith cfg (va + vb)
  | mul m0 m1 m2 => exact hcommit fun cfg e => storeResult cfg e m0 m1 m2 fun va vb => arith cfg (va * vb)
  | lt m0 m1 m2 => exact hcommit fun cfg e => storeResult cfg e m0 m1 m2 fun va vb => .ok (boolWord (decide (va < vb)))
  | eq m0 m1 m2 => exact hcommit fun cfg e => storeResult cfg e m0 m1 m2 fun va vb => .ok (boolWord (decide (va = vb)))
  | jt m0 m1 _ => exact hcommit fun cfg e => jumpIf cfg e m0 m1 fun va => decide (va ≠ 0)
  | jf m0 m1 _ => exact hcommit fun cfg e => jumpIf cfg e m0 m1 fun va => decide (va = 0)
  | arb m0 _ _ => exact hcommit fun cfg e => adjustBase cfg e m0
  | hlt _ _ _ => exact onEngine_alike h he (.next (h.setEngine e.halt))

/-- The fetch and the decoding read the engine alone. -/
theorem attempt_alike (h : s.Agree e.inCh e.outCh t) (he : s.engine? = some e) :
    AnswerAlike e.inCh e.outCh (attempt s) (attempt t) := by
  rw [attempt_eq he, attempt_eq (h.engine ▸ he), h.cfg]
  cases fetchDecode t.cfg e with
  | error tr => exact .next (h.setEngine _)
  | ok i => exact exec_alike h he i

/-- An attempt takes at most the head of its engine's input channel and appends at most one value to its output channel. -/
theorem attempt_channel {s' : State} {c : Nat} {ch : Channel} (he : s.engine? = some e) (hat : attempt s = .next s')
    (hc : s.channels[c]? = some ch) :
    ∃ ch', s'.channels[c]? = some ch' ∧ ch'.wclosed = ch.wclosed ∧ ch'.rclosed = ch.rclosed ∧
      (ch'.q = ch.q ∨ (c = e.inCh ∧ ∃ v, ch.q = v :: ch'.q) ∨ (c = e.outCh ∧ ∃ v, ch'.q = ch.q ++ [v])) := by
  obtain ⟨e₁, he₁, ⟨tr, -, rfl⟩ | ⟨i, -, -, heff⟩⟩ := attempt_cases hat
  · exact ⟨ch, hc, rfl, rfl, .inl rfl⟩
  obtain rfl : e = e₁ := by simpa [he] using he₁
  obtain hsame | ⟨v, rest, hin, hq, htake⟩ | ⟨v, m0, m1, m2, hout, -, -, -, happ⟩ := heff.channel c ch hc
  · exact ⟨ch, hsame, rfl, rfl, .inl rfl⟩
  · exact ⟨_, htake, rfl, rfl, .inr (.inl ⟨hin, v, hq⟩)⟩
  · exact ⟨_, happ, rfl, rfl, .inr (.inr ⟨hout, v, rfl⟩)⟩

end

theorem AnswerAlike.clauses {i o : Nat} {a b : Host.Outcome State Fault Refusal} (h : AnswerAlike i o a b) :
    (∀ s, a = .next s → ∃ t, b = .next t ∧ s.Agree i o t) ∧ (∀ r, a = .fault r → b = .fault r) ∧
      (∀ r, a = .refused r → b = .refused r) := by
  cases h with
  | next h => simpa using h
  | fault r => simp
  | refused r => simp

/-- Settles O35: the frame of an attempt gives what it writes, and agreement before it gives agreement after it. -/
theorem engineStepIsIsolated : Obligations.EngineStepIsIsolated := by
  refine ⟨fun s s' e he hat => ?_, fun s t e he het hcfg hin hout => ?_⟩
  · obtain ⟨e₁, e', chs, he₁, hs', -, hin, hout, -⟩ := attempt_frame hat
    obtain rfl : e = e₁ := by simpa [he] using he₁
    refine ⟨e', chs, hs', hin, hout, fun c ch hc => ?_⟩
    obtain rfl : s'.channels = chs := by rw [hs']
    exact attempt_channel he hat hc
  · obtain ⟨hnext, hfault, hrefused⟩ := (attempt_alike ⟨hcfg, he.trans het.symm, hin, hout⟩ he).clauses
    refine ⟨fun s' hs' => ?_, hfault, hrefused⟩
    obtain ⟨t', ht', hagree⟩ := hnext s' hs'
    exact ⟨t', ht', hagree.engine, hagree.input, hagree.output⟩

end Sys2Proof.Machine
end

section
/-! SUPPORT. What the status that an attempt leaves says of it: how it suspended (spec/45_run_loop.md R156), and what the run
it belongs to reports (R153). -/

namespace Sys2Proof.Machine

open Sys2Proof.Claims

section
variable {s s' : State} {e e' : Engine} {i : Instr}

/-- The engine that is read back is the one that replaced the running engine. -/
theorem State.eq_of_engine?_setEngine {e₁ : Engine} (he' : (s.setEngine e₁).engine? = some e') (he : s.engine? = some e) :
    e' = e₁ := by
  simpa [State.engine?_setEngine s e e₁ he] using he'.symm

/-- An attempt that raises no fault is an effect of the instruction it decoded. -/
theorem attempt_effect (he : s.engine? = some e) (hat : attempt s = .next s') (he' : s'.engine? = some e')
    (hst : e'.status ≠ .faulted) : ∃ i, fetchDecode s.cfg e = .ok i ∧ Effect s e i s' := by
  obtain ⟨e₁, he₁, hcase⟩ := attempt_cases hat
  obtain rfl : e = e₁ := by simpa [he] using he₁
  obtain ⟨t, -, rfl⟩ | ⟨i, hi, -, heff⟩ := hcase
  · obtain rfl := State.eq_of_engine?_setEngine he' he
    exact absurd rfl hst
  · exact ⟨i, hi, heff⟩

/-- Only an Input on an open empty channel suspends on input (R135). -/
theorem Effect.of_blockedIn (h : Effect s e i s') (he : s.engine? = some e) (he' : s'.engine? = some e')
    (hst : e'.status = .blockedIn) :
    s' = s.setEngine (e.block .blockedIn) ∧ ∃ m0 m1 m2 c, i = .inp m0 m1 m2 ∧ s.channel? e.inCh = some c ∧ c.q = [] ∧
      c.wclosed = false ∧ c.rclosed = false := by
  cases h with
  | blockIn _ hc hr hq hw => exact ⟨rfl, _, _, _, _, rfl, hc, hq, hw, hr⟩
  | _ =>
    obtain rfl := State.eq_of_engine?_setEngine he' he
    simp at hst

/-- Only an Output on an open full channel suspends on output (R136). -/
theorem Effect.of_blockedOut (h : Effect s e i s') (he : s.engine? = some e) (he' : s'.engine? = some e')
    (hst : e'.status = .blockedOut) :
    s' = s.setEngine (e.block .blockedOut) ∧ ∃ m0 m1 m2 c, i = .out m0 m1 m2 ∧ s.channel? e.outCh = some c ∧
      s.cfg.cap ≤ c.q.length ∧ c.wclosed = false ∧ c.rclosed = false := by
  cases h with
  | blockOut _ hc hw hr hfull => exact ⟨rfl, _, _, _, _, rfl, hc, hfull, hw, hr⟩
  | _ =>
    obtain rfl := State.eq_of_engine?_setEngine he' he
    simp at hst

end

/-- Settles O31: a blocked status rules out every effect but that of an Input, or Output, that suspends. -/
theorem blockingChangesOnlyStatus : Obligations.BlockingChangesOnlyStatus := by
  intro s s' e e' hatt hat he'
  refine ⟨fun hst => ?_, fun hst => ?_⟩
  · obtain ⟨i, hi, heff⟩ := attempt_effect hatt.engine hat he' (by simp [hst])
    obtain ⟨hs', m0, m1, m2, c, rfl, hc⟩ := heff.of_blockedIn hatt.engine he' hst
    exact ⟨hs', m0, m1, m2, c, hi, hc⟩
  · obtain ⟨i, hi, heff⟩ := attempt_effect hatt.engine hat he' (by simp [hst])
    obtain ⟨hs', m0, m1, m2, c, rfl, hc⟩ := heff.of_blockedOut hatt.engine he' hst
    exact ⟨hs', m0, m1, m2, c, hi, hc⟩

/-! ### The end of a run -/

theorem step_of_attempt {s t : State} {e : Engine} (hrun : s.running = true) (hatt : CanAttempt s e)
    (hat : attempt s = .next t) : step s = .next t.afterAttempt := by
  have hp : e.status.permitsStep = true := permitsStep_iff.mpr hatt.permits
  simp [step, runStep, hrun, hatt.engine, hp, hat]

section
variable {t : State} {f : Engine}

theorem State.afterAttempt_of_ready (hf : t.engine? = some f) (hst : f.status = .ready) : t.afterAttempt = t := by
  simp [State.afterAttempt, hf, hst]

/-- A run that no composer awaits returns its report to the external driver (R152, R153). -/
theorem State.afterAttempt_of_not_ready (hf : t.engine? = some f) (hst : f.status ≠ .ready) (hph : t.phase ≠ .await) :
    t.afterAttempt = { t with running := false, reply := f.report.map .report } := by
  simp [State.afterAttempt, State.endRun, hf, hst, hph]

end

/-- Settles O38: the run goes on or returns by the status after the attempt, and each status has its report. -/
theorem runReportsByStatus : Obligations.RunReportsByStatus := by
  intro s t e f hrun hph hatt hat hf
  have hstep := step_of_attempt hrun hatt hat
  obtain ⟨_, _, _, _, ht, -⟩ := attempt_frame hat
  have htph : t.phase ≠ .await := by simpa [ht] using hph
  have hreturn (r : Report) (hst : f.status ≠ .ready) (hr : f.report = some r) :
      step s = .next { t with running := false, reply := some (.report r) } := by
    rw [hstep, State.afterAttempt_of_not_ready hf hst htph, hr, Option.map_some]
  refine ⟨fun hst => ⟨?_, ?_⟩, fun v hst hv => ?_, fun hst => ?_, fun hst => ?_⟩
  · rw [hstep, State.afterAttempt_of_ready hf hst]
  · simpa [ht] using hrun
  · exact hreturn _ (by simp [hst]) (by simp [Engine.report, hst, hv])
  · obtain hst | hst := hst <;> exact hreturn _ (by simp [hst]) (by simp [Engine.report, hst])
  · exact hreturn _ (by simp [hst]) (by simp [Engine.report, hst])

end Sys2Proof.Machine
end

section
/-! SUPPORT. The engines of a new network and the channel ends they hold; the host holds the ends that are left over
(spec/46_network.md R171, R176). -/

namespace Sys2Proof.Machine

section
variable {s : State} {net : Net} {c : Nat}

/-- Engine `i` of a new network is loaded with image `i` and attached to `ch[i]` and to the channel the topology names. -/
theorem State.launched_engines_getElem? (s : State) (net : Net) (i : Nat) :
    (s.launched net).engines[i]? =
      net.images[i]?.map fun image => Engine.load image i (outIndex net.topo net.images.length i) := by
  simp [buildEngines_getElem?]

theorem State.launched_engines_length (s : State) (net : Net) :
    (s.launched net).engines.length = net.images.length :=
  buildEngines_length _ _ _ _

theorem State.launched_engine_ends {i : Nat} {e : Engine} (he : (s.launched net).engines[i]? = some e) :
    e.inCh = i ∧ e.outCh = outIndex net.topo net.images.length i ∧ e.status = .ready := by
  rw [State.launched_engines_getElem?, Option.map_eq_some_iff] at he
  obtain ⟨image, -, rfl⟩ := he
  exact ⟨rfl, rfl, rfl⟩

theorem State.hostProduces_iff : s.hostProduces c = true ↔ ∀ e ∈ s.engines, e.outCh ≠ c := by
  simp [State.hostProduces]

theorem State.hostConsumes_iff :
    s.hostConsumes c = true ↔
      (∀ e ∈ s.engines, e.inCh ≠ c) ∨ (s.topo = .ring ∧ c = 0) ∧ ∀ e ∈ s.engines, e.status = .halted := by
  simp [State.hostConsumes]

/-- The engines of a new network, one for each index below their number. -/
theorem State.forall_mem_launched_engines {p : Engine → Prop} {q : Nat → Prop}
    (hpq : ∀ i e, (s.launched net).engines[i]? = some e → (p e ↔ q i)) :
    (∀ e ∈ (s.launched net).engines, p e) ↔ ∀ i < net.images.length, q i := by
  constructor
  · intro h i hi
    rw [← State.launched_engines_length s] at hi
    exact (hpq i _ (List.getElem?_eq_getElem hi)).mp (h _ (List.getElem_mem hi))
  · intro h e he
    obtain ⟨i, hi⟩ := List.getElem?_of_mem he
    have hlt := (List.getElem?_eq_some_iff.mp hi).1
    exact (hpq i e hi).mpr (h i (State.launched_engines_length s net ▸ hlt))

/-- The host produces for the channels of a new network that are no engine's output. -/
theorem State.launched_hostProduces_iff :
    (s.launched net).hostProduces c = true ↔ ∀ i < net.images.length, outIndex net.topo net.images.length i ≠ c := by
  rw [State.hostProduces_iff]
  refine State.forall_mem_launched_engines fun i e he => ?_
  rw [(State.launched_engine_ends he).2.1]

/-- Engine `i` consumes `ch[i]`, and no engine of a new network has halted: the host consumes no channel below their number. -/
theorem State.launched_hostConsumes_iff (hn : 1 ≤ net.images.length) :
    (s.launched net).hostConsumes c = true ↔ net.images.length ≤ c := by
  have hin : (∀ e ∈ (s.launched net).engines, e.inCh ≠ c) ↔ ∀ i < net.images.length, i ≠ c :=
    State.forall_mem_launched_engines fun i e he => by rw [(State.launched_engine_ends he).1]
  have hhalted : (∀ e ∈ (s.launched net).engines, e.status = .halted) ↔ ∀ i < net.images.length, False :=
    State.forall_mem_launched_engines fun i e he => by simp [(State.launched_engine_ends he).2.2]
  rw [State.hostConsumes_iff, hin, hhalted]
  constructor
  · rintro (hfree | ⟨-, hnone⟩)
    · exact Nat.le_of_not_lt fun hc => hfree c hc rfl
    · exact (hnone 0 hn).elim
  · exact fun hc => .inl fun i hi => by omega

/-- In a chain `ch[i+1]` is the output of engine `i`, and `ch[0]` of none. -/
theorem forall_outIndex_chain_ne_iff {n c : Nat} (hc : c ≤ n) : (∀ i < n, outIndex .chain n i ≠ c) ↔ c = 0 := by
  constructor
  · intro h
    by_contra h0
    exact h (c - 1) (by omega) (Nat.sub_add_cancel (Nat.pos_of_ne_zero h0))
  · rintro rfl i -
    exact Nat.succ_ne_zero i

/-- In a ring every channel is the output of an engine, `ch[0]` that of the last. -/
theorem exists_outIndex_ring_eq {n c : Nat} (hc : c < n) : ∃ i < n, outIndex .ring n i = c := by
  cases c with
  | zero =>
    refine ⟨n - 1, by omega, ?_⟩
    rw [outIndex, Nat.sub_add_cancel hc, Nat.mod_self]
  | succ c => exact ⟨c, by omega, Nat.mod_eq_of_lt hc⟩

end

/-- Settles O50: the ends the engines of a new network hold, and so those that are left to the host. -/
theorem newNetworkIsWired : Obligations.NewNetworkIsWired := by
  rintro s net n rfl hn
  refine ⟨State.launched_engines_length s net, fun htopo => ?_, fun htopo => ?_⟩
  · refine ⟨?_, fun i e he => ?_, fun c hc => ?_, fun c hc => ?_, ?_⟩
    · simp [htopo, channelCount]
    · obtain ⟨hin, hout, -⟩ := State.launched_engine_ends he
      exact ⟨hin, by rw [hout, htopo, outIndex]⟩
    · rw [State.launched_hostProduces_iff, htopo, forall_outIndex_chain_ne_iff hc]
    · rw [State.launched_hostConsumes_iff hn]
      omega
    · rw [htopo, terminalIndex]
  · refine ⟨?_, fun i e he => ?_, fun c hc => ⟨?_, ?_⟩, ?_⟩
    · simp [htopo, channelCount]
    · obtain ⟨hin, hout, -⟩ := State.launched_engine_ends he
      exact ⟨hin, by rw [hout, htopo, outIndex]⟩
    · obtain ⟨i, hi, hout⟩ := exists_outIndex_ring_eq hc
      rw [Bool.eq_false_iff, ne_eq, State.launched_hostProduces_iff, htopo]
      exact fun h => h i hi hout
    · rw [Bool.eq_false_iff, ne_eq, State.launched_hostConsumes_iff hn]
      omega
    · rw [htopo, terminalIndex]

end Sys2Proof.Machine
end

section
/-! SUPPORT. What a step makes of an engine that has ended: nothing but a reset touches it (spec/60_exceptions.md R206). -/

namespace Sys2Proof.Machine

open Sys2Proof.Claims

/-- Engine `i`, where the network has one, is ready and its fault record is empty: what a reset leaves (R39, R230). -/
def State.ResetAt (s : State) (i : Nat) : Prop :=
  ∀ e, s.engines[i]? = some e → e.status = .ready ∧ e.fr = FaultRecord.empty

theorem State.launched_resetAt (s : State) (net : Net) (i : Nat) : (s.launched net).ResetAt i := by
  intro e he
  rw [State.launched_engines_getElem?, Option.map_eq_some_iff] at he
  obtain ⟨image, -, rfl⟩ := he
  exact ⟨rfl, rfl⟩

section
variable {s s' : State} {i : Nat} {e : Engine}

/-- An attempt writes only the engine that made it, and that one had not ended. -/
theorem attempt_keeps_ended {f : Engine} (hf : s.engine? = some f) (hp : f.status.permitsStep = true)
    (hat : attempt s = .next s') (he : s.engines[i]? = some e) (hend : e.status.permitsStep = false) :
    s'.engines[i]? = some e := by
  have hi : i ≠ s.cur := by
    rintro rfl
    obtain rfl : f = e := Option.some.inj (hf.symm.trans he)
    exact absurd hp (by simp [hend])
  obtain ⟨_, f', _, -, rfl, -⟩ := attempt_frame hat
  exact (State.setEngine_other s f' i hi).trans he

/-- An operation of the external driver leaves an engine that has ended as it was, or is a reset of it. -/
theorem HostMove.keeps_ended {op : HostOp} (h : HostMove s op s') (he : s.engines[i]? = some e)
    (hend : e.status.permitsStep = false) : s'.engines[i]? = some e ∨ resets i op ∧ s'.ResetAt i := by
  cases h with
  | @launch net _ => exact .inr ⟨trivial, State.launched_resetAt s net i⟩
  | @load j image f _ hf _ =>
    by_cases hj : j = i
    · subst hj
      refine .inr ⟨rfl, fun e' he' => ?_⟩
      have hlt : j < s.engines.length := (List.getElem?_eq_some_iff.mp hf).1
      obtain rfl : Engine.load image f.inCh f.outCh = e' := by simpa [hlt] using he'
      exact ⟨rfl, rfl⟩
    · exact .inl (by simp [List.getElem?_set_ne hj, he])
  | @attempt j _ _ _ hf hp hat => exact .inl (attempt_keeps_ended (s := s.invoke j) hf hp hat he hend)
  | yield hcomp => exact .inl ((composerStep_cases hcomp).engines ▸ he)
  | _ => exact .inl (by simpa using he)

end

/-- Settles O40: an attempt is made only by an engine that has not ended, the end of a run and the composer write no engine, and
the operations of the external driver that write another are the two that reset it. -/
theorem endedEnginesAreFinal : Obligations.EndedEnginesAreFinal := by
  intro s s' i e hstep he hst
  have hend : e.status.permitsStep = false := permitsStep_eq_false_iff.mpr hst
  cases step_cases hstep with
  | attempt _ hf hp hat =>
    rw [State.afterAttempt_engines]
    exact .inl (attempt_keeps_ended hf hp hat he hend)
  | ended => exact .inl he
  | @host op _ _ hr hops hmove =>
    obtain hsame | ⟨hreset, hready⟩ := hmove.keeps_ended he hend
    · exact .inl hsame
    · exact .inr ⟨⟨hr, op, by simp [hops], hreset⟩, hready⟩
  | composer _ _ hmove => exact .inl (hmove.engines ▸ he)

end Sys2Proof.Machine
end

section
/-! SUPPORT. Which words the decoder accepts, and what it makes of the word the encoder gives (spec/30_encoding.md R96 to
R101). -/

namespace Sys2Proof

/-- The opcodes of a profile (R8, R93). -/
theorem instrOfOpcode_eq_none_iff {rel : Bool} {op : Nat} :
    instrOfOpcode rel op = none ↔ ¬((1 ≤ op ∧ op ≤ 8) ∨ (rel = true ∧ op = 9) ∨ op = 99) := by
  by_cases h : op ≤ 9
  · interval_cases op <;> cases rel <;> simp [instrOfOpcode]
  · by_cases h99 : op = 99
    · simp [h99, instrOfOpcode]
    · have hno : ¬((1 ≤ op ∧ op ≤ 8) ∨ (rel = true ∧ op = 9) ∨ op = 99) := by omega
      unfold instrOfOpcode
      split <;> simp_all

/-- The opcode map has every instruction of the profile, under its own opcode. -/
theorem exists_instrOfOpcode {rel : Bool} {i : Instr} (h : i.opcodeWf rel = true) :
    ∃ mk, instrOfOpcode rel i.opcode = some mk ∧ i = mk i.modes.1 i.modes.2.1 i.modes.2.2 := by
  cases i with
  | arb => exact ⟨.arb, by simpa [instrOfOpcode, Instr.opcode, Instr.opcodeWf] using h, rfl⟩
  | _ => exact ⟨_, rfl, rfl⟩

theorem Instr.wf_iff {rel : Bool} {i : Instr} :
    i.wf rel = true ↔ i.opcodeWf rel = true ∧ i.modes.1.wf rel = true ∧ i.modes.2.1.wf rel = true ∧
      i.modes.2.2.wf rel = true := by
  simp [Instr.wf, and_assoc]

/-- Settles O2: the digits of the word that R101 gives do not run into one another, and the two tables have what they stand
for. -/
theorem encodeThenDecodeGivesBack : Obligations.EncodeThenDecodeGivesBack := by
  intro rel i hwf
  refine ⟨?_, encode_eq i⟩
  obtain ⟨hop, h0, h1, h2⟩ := Instr.wf_iff.mp hwf
  obtain ⟨mk, hmk, hi⟩ := exists_instrOfOpcode hop
  obtain ⟨hnonneg, hmax, hwop, hw0, hw1, hw2, -⟩ := Laws.EncodeShape.shape i
  have hd (k : Nat) := digit_toNat hnonneg k
  have hdop : (encode i).toNat % 100 = i.opcode := by omega
  have hd0 : digit 2 (encode i).toNat = i.modes.1.digit := by have := hd 2; omega
  have hd1 : digit 3 (encode i).toNat = i.modes.2.1.digit := by have := hd 3; omega
  have hd2 : digit 4 (encode i).toNat = i.modes.2.2.digit := by have := hd 4; omega
  refine decode_eq_ok.mpr ⟨hnonneg, mk, i.modes.1, i.modes.2.1, i.modes.2.2, ?_, ?_, ?_, ?_, hi⟩
  · rw [hdop, hmk]
  · rw [hd0, modeOfDigit_digit h0]
  · rw [hd1, modeOfDigit_digit h1]
  · rw [hd2, modeOfDigit_digit h2]

/-- The digits that are a mode of the profile (R8, R60). -/
theorem exists_modeOfDigit_iff {rel : Bool} {d : Nat} : (∃ m, modeOfDigit rel d = some m) ↔ d ≤ if rel then 2 else 1 := by
  rw [← Option.ne_none_iff_exists', ne_eq, modeOfDigit_none, not_lt]

/-- The words that decode, by their opcode and mode digits (R96). -/
theorem exists_decode_iff {rel : Bool} {iw : Int} :
    (∃ i, decode rel iw = .ok i) ↔ 0 ≤ iw ∧ instrOfOpcode rel (iw.toNat % 100) ≠ none ∧
      ∀ k ∈ [2, 3, 4], digit k iw.toNat ≤ if rel then 2 else 1 := by
  simp only [decode_eq_ok, List.forall_mem_cons, ← exists_modeOfDigit_iff, Option.ne_none_iff_exists']
  constructor
  · rintro ⟨i, hiw, mk, a, b, c, hmk, ha, hb, hc, -⟩
    exact ⟨hiw, ⟨mk, hmk⟩, ⟨a, ha⟩, ⟨b, hb⟩, ⟨c, hc⟩, by simp⟩
  · rintro ⟨hiw, ⟨mk, hmk⟩, ⟨a, ha⟩, ⟨b, hb⟩, ⟨c, hc⟩, -⟩
    exact ⟨mk a b c, hiw, mk, a, b, c, hmk, ha, hb, hc, rfl⟩

/-- Settles O4: a word decodes where the opcode map and the mode map have its digits. -/
theorem legalInstructionWords : Obligations.LegalInstructionWords := by
  intro rel iw
  have hwords : (∃ i, decode rel iw = .ok i) ↔
      0 ≤ iw ∧ ((1 ≤ iw % 100 ∧ iw % 100 ≤ 8) ∨ (rel = true ∧ iw % 100 = 9) ∨ iw % 100 = 99) ∧
      ∀ d ∈ [iw / 100 % 10, iw / 1000 % 10, iw / 10000 % 10], d ≤ if rel then 2 else 1 := by
    rw [exists_decode_iff]
    refine and_congr_right fun hiw => and_congr ?_ ?_
    · rw [ne_eq, instrOfOpcode_eq_none_iff, not_not]
      refine or_congr ?_ (or_congr (and_congr_right fun _ => ?_) ?_) <;> omega
    · have hd (k : Nat) := digit_toNat hiw k
      have h2 := hd 2
      have h3 := hd 3
      have h4 := hd 4
      simp only [List.forall_mem_cons]
      cases rel <;> simp <;> omega
  refine ⟨hwords, fun hdec hlt => ?_⟩
  obtain ⟨hiw, hop, hmodes⟩ := hwords.mp hdec
  simp only [List.forall_mem_cons] at hmodes
  obtain ⟨h0, h1, h2, -⟩ := hmodes
  cases rel <;> simp at h0 h1 h2 ⊢ <;> omega

/-- Past a known opcode only a mode digit can be wrong. -/
theorem decode_of_known_opcode {rel : Bool} {iw : Int} (hiw : 0 ≤ iw) (hop : instrOfOpcode rel (iw.toNat % 100) ≠ none) :
    (∃ i, decode rel iw = .ok i) ∨ decode rel iw = .error .invalidMode := by
  obtain ⟨mk, hmk⟩ := Option.ne_none_iff_exists'.mp hop
  simp only [decode, not_lt.mpr hiw, if_false, hmk]
  split
  · exact .inl ⟨_, rfl⟩
  · exact .inr rfl

/-- Settles O5: the sign is tested first, then the opcode; a word with a known opcode and a digit that is no mode is no
instruction word, so it is the mode that is invalid. -/
theorem invalidWordsRejected : Obligations.InvalidWordsRejected := by
  intro rel iw
  have hword (hiw : 0 ≤ iw) : (iw % 100).toNat = iw.toNat % 100 := by omega
  refine ⟨fun hneg => by simp [decode, hneg], fun hiw hop => ?_, fun hiw hop hbad => ?_⟩
  · rw [hword hiw] at hop
    simp [decode, not_lt.mpr hiw, hop]
  · rw [hword hiw] at hop
    refine (decode_of_known_opcode hiw hop).resolve_left fun hdec => ?_
    obtain ⟨d, hd, hlarge⟩ := hbad
    obtain ⟨-, -, hmodes⟩ := (legalInstructionWords rel iw).1.mp hdec
    exact absurd (hmodes d hd) (not_le.mpr hlarge)

theorem digit_mod (n : Nat) : ∀ k ∈ [2, 3, 4], digit k (n % 100000) = digit k n := by
  intro k hk
  simp only [List.mem_cons, List.not_mem_nil, or_false] at hk
  obtain rfl | rfl | rfl := hk <;> simp only [digit] <;> omega

/-- Settles O6: the opcode and the three mode digits are among the five digits that are kept. -/
theorem highDigitsIgnored : Obligations.HighDigitsIgnored := by
  intro rel iw hiw
  have hword : (iw % 100000).toNat = iw.toNat % 100000 := by omega
  have hop : iw.toNat % 100000 % 100 = iw.toNat % 100 := by omega
  have hd := digit_mod iw.toNat
  have hneg : ¬iw % 100000 < 0 := by omega
  simp only [decode, not_lt.mpr hiw, hneg, if_false, hword, hop, hd 2 (by simp), hd 3 (by simp), hd 4 (by simp)]

/-- Settles O1: the decoder evaluates each of the twelve words. -/
theorem writtenWordsDecode : Obligations.WrittenWordsDecode := by
  unfold Obligations.WrittenWordsDecode
  decide

end Sys2Proof
end

section
/-! SUPPORT. The outcomes of a receive; Input, the jumps, AdjustRelativeBase and Halt, outcome by outcome (spec/43_io.md R135,
spec/42_control.md R130 to R132, spec/44_relative.md R140). -/

namespace Sys2Proof.Machine

open Sys2Proof.Claims

/-! ### The outcomes of a receive -/

/-- A closed consumer end is found first, a closed producer end once nothing is buffered (R68). -/
theorem tryRecv_closed {c : Channel} (h : c.rclosed = true ∨ c.q = [] ∧ c.wclosed = true) : c.tryRecv = (.closed, c) := by
  unfold Channel.tryRecv
  obtain hr | ⟨hq, hw⟩ := h
  · simp [hr]
  · simp [hq, hw]

theorem tryRecv_empty {c : Channel} (hr : c.rclosed = false) (hq : c.q = []) (hw : c.wclosed = false) :
    c.tryRecv = (.empty, c) := by
  simp [Channel.tryRecv, hr, hq, hw]

/-- Settles O13: the outcomes of a receive and of a send, each by its own lemma. -/
theorem receiveAndSendOutcomes : Obligations.ReceiveAndSendOutcomes := fun cap _ v =>
  ⟨fun hr => tryRecv_closed (.inl hr), fun _ _ hr hq => tryRecv_value hr hq, fun _ hq hw => tryRecv_closed (.inr ⟨hq, hw⟩),
    tryRecv_empty, trySend_closed cap v, trySend_full v, trySend_ok v⟩

/-- Sending values that fit into an open channel appends them in order. -/
theorem foldl_trySend {cap : Nat} (vs : List Int) (c : Channel) (hw : c.wclosed = false) (hr : c.rclosed = false)
    (hroom : c.q.length + vs.length ≤ cap) :
    vs.foldl (fun ch v => (Channel.trySend cap ch v).2) c = { c with q := c.q ++ vs } := by
  induction vs generalizing c with
  | nil => simp
  | cons v vs ih =>
    simp only [List.length_cons] at hroom
    rw [List.foldl_cons, trySend_ok v hw hr (by omega)]
    exact (ih { c with q := c.q ++ [v] } hw hr (by simp; omega)).trans (by simp)

/-- Settles O14: the sends append, and a drain of an open channel takes all of the queue. -/
theorem channelIsFirstInFirstOut : Obligations.ChannelIsFirstInFirstOut := by
  intro cap c vs hw hr hroom
  rw [foldl_trySend vs c hw hr hroom]
  exact Channel.drain_open { c with q := c.q ++ vs } hr

/-! ### Input -/

section
variable {s : State} {e : Engine} {m0 m1 m2 : Mode}

/-- A fault of the destination ends an Input before it looks at its channel (D17). -/
theorem exec_inp_of_target_error {t : Trap} (h : CanAttempt s e) (ha : writeTarget s.cfg e 1 m0 = .error t) :
    exec (.inp m0 m1 m2) s = .next (s.setEngine (faulted e t)) := by
  simp only [exec, execIn, onEngine_of_canAttempt h, ha]
  rfl

/-- Past its destination, an Input is one receive. -/
theorem exec_inp_of_target_ok {a : Int} {c : Channel} (h : CanAttempt s e) (ha : writeTarget s.cfg e 1 m0 = .ok a)
    (hc : s.channel? e.inCh = some c) : exec (.inp m0 m1 m2) s = .next (inputFrom s e a c.tryRecv) := by
  simp only [exec, execIn, onEngine_of_canAttempt h, ha, hc]

/-- A value received is stored: the destination has been checked. -/
theorem inputFrom_value {a v : Int} (c : Channel) (ha : e.mem.inBounds a = true) :
    inputFrom s e a (.value v, c) = (s.setChannel e.inCh c).setEngine (e.complete (e.mem.write a v) (e.pc + 2)) := by
  simp only [inputFrom, memWrite_of_inBounds ha]

end

/-- Settles O22: the destination is resolved first; then the outcomes of the one receive are the last three clauses. -/
theorem inputRule : Obligations.InputRule := by
  intro m0 m1 m2 s e hatt hwf
  refine ⟨⟨encode_eq _, rfl⟩, fun t ha => exec_inp_of_target_error hatt ha, fun a c ha hc => ?_⟩
  rw [exec_inp_of_target_ok hatt ha hc]
  refine ⟨fun v rest hr hq => ?_, fun hr hq hw => ?_, fun hclosed => ?_⟩
  · rw [tryRecv_value hr hq, inputFrom_value _ (writeTarget_ok ha)]
    exact ⟨e.mem.write a v, rfl, Memory.write_len .., fun b => Memory.read?_write hwf (writeTarget_ok ha)⟩
  · rw [tryRecv_empty hr hq hw]; rfl
  · rw [tryRecv_closed hclosed]; rfl

/-! ### The jumps -/

section
variable {cfg : Config} {e : Engine} {m0 m1 : Mode} {taken : Int → Bool} {va vb : Int} {t : Trap}

theorem jumpIf_first_error (h0 : readParam cfg e 1 m0 = .error t) : jumpIf cfg e m0 m1 taken = .error t := by
  simp [jumpIf, h0, bind, Except.bind]

theorem jumpIf_second_error (h0 : readParam cfg e 1 m0 = .ok va) (h1 : readParam cfg e 2 m1 = .error t) :
    jumpIf cfg e m0 m1 taken = .error t := by
  simp [jumpIf, h0, h1, bind, Except.bind]

theorem jumpIf_eq_complete (h0 : readParam cfg e 1 m0 = .ok va) (h1 : readParam cfg e 2 m1 = .ok vb) :
    jumpIf cfg e m0 m1 taken = .ok (e.complete e.mem (if taken va then vb else e.pc + 3)) := by
  simp [jumpIf, h0, h1, bind, Except.bind]

end

/-- An instruction that is encoded with opcode `op` in 3 words and runs the jump shape obeys the rule of the jumps. -/
theorem jumpRule_of_jumpIf {mk : Mode → Mode → Mode → Instr} {op : Int} {p : Int → Prop} [DecidablePred p]
    (hword : ∀ m0 m1 m2, encode (mk m0 m1 m2) = op + 100 * m0.digit + 1000 * m1.digit + 10000 * m2.digit)
    (hlen : ∀ m0 m1 m2, (mk m0 m1 m2).length = 3)
    (hexec : ∀ m0 m1 m2 s, exec (mk m0 m1 m2) s =
      s.onEngine fun e => .next (s.commit e (jumpIf s.cfg e m0 m1 fun va => decide (p va)))) :
    JumpRule mk op p := by
  intro m0 m1 m2 s e hatt
  have hrun : exec (mk m0 m1 m2) s = .next (s.commit e (jumpIf s.cfg e m0 m1 fun va => decide (p va))) := by
    rw [hexec, onEngine_of_canAttempt hatt]
  rw [hrun]
  refine ⟨⟨hword m0 m1 m2, hlen m0 m1 m2⟩, fun t h0 => ?_, fun va t h0 h1 => ?_, fun va vb h0 h1 => ?_⟩
  · rw [jumpIf_first_error h0, State.commit_error]
  · rw [jumpIf_second_error h0 h1, State.commit_error]
  · rw [jumpIf_eq_complete h0 h1, State.commit_ok]
    refine ⟨fun hp => ?_, fun hp => ?_⟩
    · rw [decide_eq_true hp]; rfl
    · rw [decide_eq_false hp]; rfl

/-- Settles O19: JumpIfTrue runs the jump shape, taken where the condition is not 0. -/
theorem jumpIfTrueRule : Obligations.JumpIfTrueRule :=
  jumpRule_of_jumpIf (fun _ _ _ => encode_eq _) (fun _ _ _ => rfl) fun _ _ _ _ => rfl

/-- Settles O20: JumpIfFalse runs the jump shape, taken where the condition is 0. -/
theorem jumpIfFalseRule : Obligations.JumpIfFalseRule :=
  jumpRule_of_jumpIf (fun _ _ _ => encode_eq _) (fun _ _ _ => rfl) fun _ _ _ _ => rfl

/-! ### AdjustRelativeBase and Halt -/

section
variable {cfg : Config} {e : Engine} {m0 : Mode} {va r : Int} {t : Trap}

theorem adjustBase_without_rel (hrel : cfg.rel = false) : adjustBase cfg e m0 = .error (Trap.of .invalidOpcode) := by
  simp [adjustBase, hrel]

theorem adjustBase_param_error (hrel : cfg.rel = true) (h0 : readParam cfg e 1 m0 = .error t) :
    adjustBase cfg e m0 = .error t := by
  simp [adjustBase, hrel, h0, bind, Except.bind]

theorem adjustBase_sum_error (hrel : cfg.rel = true) (h0 : readParam cfg e 1 m0 = .ok va)
    (hsum : arith cfg (e.rb + va) = .error t) : adjustBase cfg e m0 = .error t := by
  simp [adjustBase, hrel, h0, hsum, bind, Except.bind]

theorem adjustBase_eq_complete (hrel : cfg.rel = true) (h0 : readParam cfg e 1 m0 = .ok va)
    (hsum : arith cfg (e.rb + va) = .ok r) : adjustBase cfg e m0 = .ok ((e.setRb r).complete e.mem (e.pc + 2)) := by
  simp [adjustBase, hrel, h0, hsum, bind, Except.bind]

end

/-- Settles O24: the profile is tested first, then the parameter is resolved, then the sum is formed. -/
theorem adjustRelativeBaseRule : Obligations.AdjustRelativeBaseRule := by
  intro m0 m1 m2 s e hatt
  have hrun : exec (.arb m0 m1 m2) s = .next (s.commit e (adjustBase s.cfg e m0)) :=
    onEngine_of_canAttempt hatt _
  rw [hrun]
  refine ⟨⟨encode_eq _, rfl⟩, fun hrel => ?_,
    fun hrel => ⟨fun t h0 => ?_, fun va t h0 hsum => ?_, fun va r h0 hsum => ?_⟩⟩
  · rw [adjustBase_without_rel hrel]; rfl
  · rw [adjustBase_param_error hrel h0, State.commit_error]
  · rw [adjustBase_sum_error hrel h0 hsum, State.commit_error]
  · rw [adjustBase_eq_complete hrel h0 hsum]; rfl

/-- Settles O21: Halt resolves no parameter. -/
theorem haltRule : Obligations.HaltRule := fun _ _ _ _ _ hatt => ⟨encode_eq _, rfl, onEngine_of_canAttempt hatt _⟩

end Sys2Proof.Machine
end

section
/-! SUPPORT. The effects one instruction can have, by its opcode, and the frames of the instructions (spec/40_arithmetic.md,
spec/41_compare.md, spec/42_control.md, spec/43_io.md, spec/44_relative.md, each section "changes"). -/

namespace Sys2Proof.Machine

open Sys2Proof.Claims

section
variable {s s' : State} {e : Engine} {i : Instr} {mk : Mode → Mode → Mode → Instr} {m0 m1 m2 : Mode}

theorem storing_shape (h : mk ∈ [.add, .mul, .lt, .eq]) (m0 m1 m2 : Mode) :
    (mk m0 m1 m2).opcode ∈ [1, 2, 7, 8] ∧ (mk m0 m1 m2).modes = (m0, m1, m2) ∧ (mk m0 m1 m2).length = 4 := by
  simp only [List.mem_cons, List.not_mem_nil, or_false] at h
  obtain rfl | rfl | rfl | rfl := h <;> simp [Instr.opcode, Instr.modes, Instr.length, Instr.operandCount]

theorem jump_shape (h : mk ∈ [.jt, .jf]) (m0 m1 m2 : Mode) :
    (mk m0 m1 m2).opcode ∈ [5, 6] ∧ (mk m0 m1 m2).modes = (m0, m1, m2) ∧ (mk m0 m1 m2).length = 3 := by
  simp only [List.mem_cons, List.not_mem_nil, or_false] at h
  obtain rfl | rfl := h <;> simp [Instr.opcode, Instr.modes, Instr.length, Instr.operandCount]

/-- An instruction of format F3 raises a fault, or writes the one cell its third parameter designates. -/
theorem Effect.storing_cases (h : Effect s e i s') (hi : i.opcode ∈ [1, 2, 7, 8]) :
    (∃ t, InstrTrap e i t ∧ s' = s.setEngine (e.raise t)) ∨
    ∃ a r, writeTarget s.cfg e 3 i.modes.2.2 = .ok a ∧
      s' = s.setEngine (e.complete (e.mem.write a r) (e.pc + 4)) := by
  cases h with
  | fault ht => exact .inl ⟨_, ht, rfl⟩
  | @store mk m0 m1 m2 a r hmk ha _ _ =>
    exact .inr ⟨a, r, by rw [(storing_shape hmk m0 m1 m2).2.1]; exact ha, rfl⟩
  | @jump mk m0 m1 m2 _ hmk =>
    have hop := (jump_shape hmk m0 m1 m2).1
    simp only [List.mem_cons, List.not_mem_nil, or_false] at hi hop
    omega
  | _ => simp [Instr.opcode] at hi

/-- An Input raises a fault, stores the oldest value, or suspends on an open empty channel (R135). -/
theorem Effect.inp_cases (h : Effect s e (.inp m0 m1 m2) s') :
    (∃ t, InstrTrap e (.inp m0 m1 m2) t ∧ s' = s.setEngine (e.raise t)) ∨
    ∃ a c, writeTarget s.cfg e 1 m0 = .ok a ∧ s.channel? e.inCh = some c ∧ c.rclosed = false ∧
      ((∃ v rest, c.q = v :: rest ∧ s' =
          (s.setChannel e.inCh { c with q := rest }).setEngine (e.complete (e.mem.write a v) (e.pc + 2))) ∨
        s' = s.setEngine (e.block .blockedIn)) := by
  generalize hi : Instr.inp m0 m1 m2 = i at h ⊢
  have hop : i.opcode = 3 := hi ▸ rfl
  cases h with
  | fault ht => exact .inl ⟨_, ht, rfl⟩
  | receive ha hc hopen hq =>
    cases hi
    exact .inr ⟨_, _, ha, hc, hopen, .inl ⟨_, _, hq, rfl⟩⟩
  | blockIn ha hc hopen =>
    cases hi
    exact .inr ⟨_, _, ha, hc, hopen, .inr rfl⟩
  | @store mk n0 n1 n2 _ _ hmk => simpa [hop] using (storing_shape hmk n0 n1 n2).1
  | @jump mk n0 n1 n2 _ hmk => simpa [hop] using (jump_shape hmk n0 n1 n2).1
  | _ => cases hi

/-- Output, the jumps, AdjustRelativeBase and Halt write registers of the engine alone, but for an Output that sends. -/
theorem Effect.nonStoring_cases (h : Effect s e i s') (hi : i.opcode ∈ [4, 5, 6, 9, 99]) :
    (∃ e', s' = s.setEngine e' ∧ e'.mem = e.mem ∧ e'.inCh = e.inCh ∧ e'.outCh = e.outCh ∧
      (e'.rb = e.rb ∨ i.opcode = 9) ∧ (e'.status ≠ .faulted → e'.fr = e.fr) ∧
      (e'.status = .faulted → e'.pc = e.pc ∧ e'.rb = e.rb)) ∨
    (i.opcode = 4 ∧ ∃ ch, s' = (s.setChannel e.outCh ch).setEngine (e.complete e.mem (e.pc + 2))) := by
  cases h with
  | send => exact .inr ⟨rfl, _, rfl⟩
  | @store mk m0 m1 m2 _ _ hmk =>
    have hop := (storing_shape hmk m0 m1 m2).1
    simp only [List.mem_cons, List.not_mem_nil, or_false] at hi hop
    omega
  | receive => simp [Instr.opcode] at hi
  | blockIn => simp [Instr.opcode] at hi
  | adjust => exact .inl ⟨_, rfl, rfl, rfl, rfl, .inr rfl, by simp, by simp⟩
  | _ => exact .inl ⟨_, rfl, rfl, rfl, rfl, .inl rfl, by simp, by simp⟩

theorem nonStoring_shape (h : mk ∈ [.out, .jt, .jf, .arb, .hlt]) (m0 m1 m2 : Mode) :
    (mk m0 m1 m2).opcode ∈ [4, 5, 6, 9, 99] ∧ ((mk m0 m1 m2).opcode = 9 → mk = .arb) ∧
      ((mk m0 m1 m2).opcode = 4 → mk = .out) := by
  simp only [List.mem_cons, List.not_mem_nil, or_false] at h
  obtain rfl | rfl | rfl | rfl | rfl := h <;> simp [Instr.opcode]

end

/-- Settles O25: a fault, or one write at the address of the third parameter. -/
theorem storingInstructionsFrame : Obligations.StoringInstructionsFrame := by
  intro mk m0 m1 m2 s s' e hmk he hwf hexec
  obtain ⟨e₁, he₁, -, heff⟩ := exec_effect hexec
  obtain rfl : e = e₁ := by simpa [he] using he₁
  obtain ⟨hop, hmodes, -⟩ := storing_shape hmk m0 m1 m2
  obtain ⟨t, -, rfl⟩ | ⟨a, r, ha, rfl⟩ := heff.storing_cases hop
  · exact ⟨_, rfl, rfl, rfl, rfl, rfl, by simp, by simp, fun _ _ _ _ => rfl, fun _ => rfl⟩
  · rw [hmodes] at ha
    refine ⟨_, rfl, rfl, rfl, rfl, rfl, by simp, by simp, fun a' ha' b hb => ?_, fun hnone => absurd ha (hnone a)⟩
    obtain rfl : a = a' := by simpa [ha] using ha'
    simp [Memory.read?_write hwf (writeTarget_ok ha), hb]

/-- Settles O27: a fault or a suspension keeps all but status and record; a completion takes one value and writes one cell. -/
theorem inputFrame : Obligations.InputFrame := by
  intro m0 m1 m2 s s' e he hwf hexec
  obtain ⟨e₁, he₁, -, heff⟩ := exec_effect hexec
  obtain rfl : e = e₁ := by simpa [he] using he₁
  obtain ⟨t, -, rfl⟩ | ⟨a, c, ha, -, -, ⟨v, rest, -, rfl⟩ | rfl⟩ := heff.inp_cases
  · exact ⟨_, s.channels, rfl, rfl, rfl, rfl, rfl, by simp, by simp, fun _ _ _ _ => rfl, fun _ _ => rfl⟩
  · refine ⟨_, _, rfl, rfl, rfl, rfl, rfl, by simp, by simp, fun a' ha' b hb => ?_, fun d hd => ?_⟩
    · obtain rfl : a = a' := by simpa [ha] using ha'
      simp [Memory.read?_write hwf (writeTarget_ok ha), hb]
    · simp [List.getElem?_set_ne (Ne.symm hd)]
  · exact ⟨_, s.channels, rfl, rfl, rfl, rfl, rfl, by simp, by simp, fun _ _ _ _ => rfl, fun _ _ => rfl⟩

/-- Settles O26: no effect of these instructions writes memory, one writes `rb` and one a channel. -/
theorem nonStoringInstructionsFrame : Obligations.NonStoringInstructionsFrame := by
  intro mk m0 m1 m2 s s' e hmk he hexec
  obtain ⟨e₁, he₁, -, heff⟩ := exec_effect hexec
  obtain rfl : e = e₁ := by simpa [he] using he₁
  obtain ⟨hop, harb, hout⟩ := nonStoring_shape hmk m0 m1 m2
  obtain ⟨e', rfl, hmem, hin, hch, hrb, hfr, hfault⟩ | ⟨hopc, ch, rfl⟩ := heff.nonStoring_cases hop
  · exact ⟨e', s.channels, rfl, hmem, hin, hch, hrb.imp_right harb, hfr,
      fun hst => ⟨(hfault hst).1, (hfault hst).2, rfl⟩, fun _ => rfl, fun _ _ => rfl⟩
  · refine ⟨_, _, rfl, rfl, rfl, rfl, .inl rfl, by simp, by simp, fun hne => absurd (hout hopc) hne, fun d hd => ?_⟩
    simp [List.getElem?_set_ne (Ne.symm hd)]

end Sys2Proof.Machine
end

section
/-! SUPPORT. More values at the end of an input channel go along with the machine through every attempt that completes
(spec/45_run_loop.md, 3, Determinism). -/

namespace Sys2Proof.Machine

open Sys2Proof.Claims

/-- Values appended behind those that wait in a channel. -/
def Channel.more (ch : Channel) (vs : List Int) : Channel := { ch with q := ch.q ++ vs }

section
variable {s t : State} {c : Nat} {vs : List Int}

/-! ### The updates of the state commute with the later values -/

@[simp] theorem withMore_cfg : (withMore s c vs).cfg = s.cfg := rfl
@[simp] theorem withMore_engine? : (withMore s c vs).engine? = s.engine? := rfl

theorem withMore_channel? (d : Nat) :
    (withMore s c vs).channel? d = (s.channel? d).map fun ch => if c = d then ch.more vs else ch := by
  simp only [withMore, State.channel?, List.getElem?_modify]
  rfl

theorem withMore_setEngine (e : Engine) : (withMore s c vs).setEngine e = withMore (s.setEngine e) c vs := rfl

theorem withMore_commit (e : Engine) (r : Except Trap Engine) :
    (withMore s c vs).commit e r = withMore (s.commit e r) c vs := by
  cases r <;> rfl

/-- Replacing another channel. -/
theorem withMore_setChannel_other {d : Nat} (hd : c ≠ d) (ch : Channel) :
    (withMore s c vs).setChannel d ch = withMore (s.setChannel d ch) c vs := by
  have hlist : (s.channels.modify c (Channel.more · vs)).set d ch = (s.channels.set d ch).modify c (Channel.more · vs) := by
    apply List.ext_getElem?
    intro k
    simp only [List.getElem?_set', List.getElem?_modify]
    by_cases hk : d = k
    · subst hk; simp [hd]
    · simp [hk]
  exact congrArg (fun chs => { s with channels := chs }) hlist

/-- Replacing the channel where the later values wait. -/
theorem withMore_setChannel_same (ch : Channel) :
    (withMore s c vs).setChannel c (ch.more vs) = withMore (s.setChannel c ch) c vs := by
  have hlist : (s.channels.modify c (Channel.more · vs)).set c (ch.more vs) =
      (s.channels.set c ch).modify c (Channel.more · vs) := by
    apply List.ext_getElem?
    intro k
    simp only [List.getElem?_set', List.getElem?_modify]
    by_cases hk : c = k
    · subst hk; cases s.channels[c]? <;> simp
    · simp [hk]
  exact congrArg (fun chs => { s with channels := chs }) hlist

end

/-! ### Attempts that complete -/

section
variable {s s' : State} {e : Engine} {c : Nat} {i : Instr} (vs : List Int)

theorem onEngine_withMore {j k : Engine → Host.Outcome State Fault Refusal} (he : s.engine? = some e)
    (h : j e = mapNext (withMore · c vs) (k e)) :
    (withMore s c vs).onEngine j = mapNext (withMore · c vs) (s.onEngine k) := by
  simp only [State.onEngine, withMore_engine?, he]
  split
  · exact h
  · rfl

/-- An Output looks at another channel than the one where the values wait. -/
theorem execOut_withMore (he : s.engine? = some e) (hc : c ≠ e.outCh) (m0 : Mode) :
    execOut m0 (withMore s c vs) = mapNext (withMore · c vs) (execOut m0 s) := by
  refine onEngine_withMore vs he ?_
  rw [withMore_cfg, withMore_channel?]
  cases readParam s.cfg e 1 m0 with
  | error t => rfl
  | ok v =>
    cases s.channel? e.outCh with
    | none => rfl
    | some ch =>
      simp only [Option.map_some, hc, if_false, mapNext_next]
      obtain ⟨_ | _ | _, ch'⟩ := ch.trySend s.cfg.cap v
      · simp only [outputTo, withMore_setChannel_other hc, withMore_setEngine]
      · rfl
      · rfl

/-- Every instruction but Input does the same, whatever waits in a channel that its engine does not produce for. -/
theorem exec_withMore (he : s.engine? = some e) (hc : c ≠ e.outCh) (hi : ∀ m0 m1 m2, i ≠ .inp m0 m1 m2) :
    exec i (withMore s c vs) = mapNext (withMore · c vs) (exec i s) := by
  have hcommit (r : Config → Engine → Except Trap Engine) :
      (withMore s c vs).onEngine (fun e => .next ((withMore s c vs).commit e (r s.cfg e))) =
        mapNext (withMore · c vs) (s.onEngine fun e => .next (s.commit e (r s.cfg e))) :=
    onEngine_withMore vs he (by rw [withMore_commit]; rfl)
  cases i with
  | inp m0 m1 m2 => exact absurd rfl (hi m0 m1 m2)
  | out m0 _ _ => exact execOut_withMore vs he hc m0
  | add m0 m1 m2 => exact hcommit fun cfg e => storeResult cfg e m0 m1 m2 fun va vb => arith cfg (va + vb)
  | mul m0 m1 m2 => exact hcommit fun cfg e => storeResult cfg e m0 m1 m2 fun va vb => arith cfg (va * vb)
  | lt m0 m1 m2 => exact hcommit fun cfg e => storeResult cfg e m0 m1 m2 fun va vb => .ok (boolWord (decide (va < vb)))
  | eq m0 m1 m2 => exact hcommit fun cfg e => storeResult cfg e m0 m1 m2 fun va vb => .ok (boolWord (decide (va = vb)))
  | jt m0 m1 _ => exact hcommit fun cfg e => jumpIf cfg e m0 m1 fun va => decide (va ≠ 0)
  | jf m0 m1 _ => exact hcommit fun cfg e => jumpIf cfg e m0 m1 fun va => decide (va = 0)
  | arb m0 _ _ => exact hcommit fun cfg e => adjustBase cfg e m0
  | hlt _ _ _ => exact onEngine_withMore vs he rfl

/-- An Input that completes has taken the oldest value: later ones stay behind. -/
theorem exec_inp_withMore {e' : Engine} {m0 m1 m2 : Mode} (h : exec (.inp m0 m1 m2) s = .next s') (he : s.engine? = some e)
    (he' : s'.engine? = some e') (hst : e'.status = .ready) :
    exec (.inp m0 m1 m2) (withMore s e.inCh vs) = .next (withMore s' e.inCh vs) := by
  obtain ⟨e₁, he₁, hp, heff⟩ := exec_effect h
  obtain rfl : e = e₁ := by simpa [he] using he₁
  have hatt : CanAttempt (withMore s e.inCh vs) e := ⟨he, permitsStep_iff.mp hp⟩
  obtain ⟨t, -, rfl⟩ | ⟨a, ch, ha, hc, hopen, ⟨v, rest, hq, rfl⟩ | rfl⟩ := heff.inp_cases
  · obtain rfl := State.eq_of_engine?_setEngine he' he
    simp at hst
  · have hch : (withMore s e.inCh vs).channel? e.inCh = some (ch.more vs) := by simp [withMore_channel?, hc]
    have hrecv : (ch.more vs).tryRecv = (.value v, Channel.more { ch with q := rest } vs) :=
      tryRecv_value hopen (by simp [Channel.more, hq])
    rw [exec_inp_of_target_ok hatt ha hch, hrecv, inputFrom_value _ (writeTarget_ok ha),
      withMore_setChannel_same, withMore_setEngine]
  · obtain rfl := State.eq_of_engine?_setEngine he' he
    simp at hst

theorem attempt_withMore {e' : Engine} (h : attempt s = .next s') (he : s.engine? = some e) (hne : e.inCh ≠ e.outCh)
    (he' : s'.engine? = some e') (hst : e'.status = .ready) :
    attempt (withMore s e.inCh vs) = .next (withMore s' e.inCh vs) := by
  obtain ⟨i, hi, -⟩ := attempt_effect he h he' (by simp [hst])
  have hexec : exec i s = .next s' := by simpa [attempt_eq he, hi] using h
  have hmore : attempt (withMore s e.inCh vs) = exec i (withMore s e.inCh vs) := by
    rw [attempt_eq (s := withMore s e.inCh vs) he, withMore_cfg, hi]
  rw [hmore]
  by_cases hinp : ∃ m0 m1 m2, i = .inp m0 m1 m2
  · obtain ⟨m0, m1, m2, rfl⟩ := hinp
    exact exec_inp_withMore vs hexec he he' hst
  · have hother : ∀ m0 m1 m2, i ≠ .inp m0 m1 m2 := fun m0 m1 m2 hi => hinp ⟨m0, m1, m2, hi⟩
    rw [exec_withMore vs he hne hother, hexec, mapNext_next]

end

theorem completedRun_succ_iff {n : Nat} {s t : State} :
    completedRun (n + 1) s = some t ↔
      ∃ s' e', attempt s = .next s' ∧ s'.engine? = some e' ∧ e'.status = .ready ∧ completedRun n s' = some t := by
  simp only [completedRun]
  cases attempt s with
  | next s' =>
    cases he : s'.engine? with
    | none => simp [he]
    | some e' => by_cases hst : e'.status = .ready <;> simp [he, hst]
  | fault r => simp
  | refused r => simp

/-- Settles O36: by induction on the number of attempts, each of which goes the same way with the later values behind. -/
theorem laterInputChangesNothingDone : Obligations.LaterInputChangesNothingDone := by
  intro n
  induction n with
  | zero =>
    intro s t e vs _ _ h
    obtain rfl : s = t := by simpa [completedRun] using h
    rfl
  | succ n ih =>
    intro s t e vs he hne h
    obtain ⟨s', e', hat, he', hst, hrest⟩ := completedRun_succ_iff.mp h
    obtain ⟨e₁, e₂, -, he₁, -, he₂, hin, hout, -⟩ := attempt_frame hat
    obtain rfl : e = e₁ := by simpa [he] using he₁
    obtain rfl : e' = e₂ := by simpa [he'] using he₂
    have htail := ih s' t e' vs he' (by rwa [hin, hout]) hrest
    rw [hin] at htail
    exact completedRun_succ_iff.mpr ⟨withMore s' e.inCh vs, e', attempt_withMore vs hat he hne he' hst, he', hst, htail⟩

end Sys2Proof.Machine
end

section
/-! SUPPORT. One attempt from the fetch to its outcome: completed, suspended, halted or faulted (spec/45_run_loop.md R150, R152;
spec/60_exceptions.md R205). -/

namespace Sys2Proof.Machine

open Sys2Proof.Claims

/-! ### Fetch and decoding -/

section
variable {cfg : Config} {e : Engine} {iw : Int}

theorem fetchDecode_of_decode_ok {i : Instr} (hr : e.mem.read? e.pc = some iw) (hd : decode cfg.rel iw = .ok i) :
    fetchDecode cfg e = .ok i := by
  simp [fetchDecode, memRead_eq_ok.mpr hr, hd, bind, Except.bind]

theorem fetchDecode_of_decode_error {d : DecodeError} (hr : e.mem.read? e.pc = some iw)
    (hd : decode cfg.rel iw = .error d) : fetchDecode cfg e = .error (trapOfDecodeError d) := by
  simp [fetchDecode, memRead_eq_ok.mpr hr, hd, bind, Except.bind]

theorem fetchDecode_of_no_cell (hr : e.mem.read? e.pc = none) : fetchDecode cfg e = .error (Trap.outOfBounds e.pc) := by
  have hread : memRead e.mem e.pc = .error (Trap.outOfBounds e.pc) := memRead_eq_error.mpr ⟨hr, rfl⟩
  simp [fetchDecode, hread, bind, Except.bind]

end

section
variable {s : State} {e : Engine}

theorem step_eq_of_canAttempt (hrun : s.running = true) (hatt : CanAttempt s e) :
    step s = mapNext State.afterAttempt (attempt s) := by
  have hp : e.status.permitsStep = true := permitsStep_iff.mpr hatt.permits
  simp [step, runStep, hrun, hatt.engine, hp]

/-- A fault of the fetch or of the decoding ends the run. -/
theorem step_of_fetch_error {t : Trap} (hrun : s.running = true) (hatt : CanAttempt s e)
    (hf : fetchDecode s.cfg e = .error t) : step s = .next (s.setEngine (faulted e t)).endRun := by
  have he' : (s.setEngine (faulted e t)).engine? = some (faulted e t) := State.engine?_setEngine s e _ hatt.engine
  have hat : attempt s = .next (s.setEngine (faulted e t)) := by rw [attempt_eq hatt.engine, hf]; rfl
  rw [step_of_attempt hrun hatt hat, State.afterAttempt, he']
  rfl

end

/-- Settles O28: the step of a run is one attempt, and the attempt begins with the fetch. -/
theorem stepRunsDecodedInstruction : Obligations.StepRunsDecodedInstruction := by
  intro s e hrun hatt
  refine ⟨fun iw i hr hd => ?_, fun iw hr hd => ?_, fun iw hr hd => ?_, fun hr => ?_⟩
  · rw [step_eq_of_canAttempt hrun hatt, attempt_eq hatt.engine, fetchDecode_of_decode_ok hr hd]
  · exact step_of_fetch_error hrun hatt (fetchDecode_of_decode_error hr hd)
  · exact step_of_fetch_error hrun hatt (fetchDecode_of_decode_error hr hd)
  · exact step_of_fetch_error hrun hatt (fetchDecode_of_no_cell hr)

/-! ### A table word where the next step fetches -/

theorem Engine.aboutToRun_permits (e : Engine) (words : List Int) : (e.aboutToRun words).status.permitsStep = true := by
  simp only [Engine.aboutToRun]
  split
  · assumption
  · rfl

theorem State.withFetchWord_engine? {s : State} {e : Engine} (he : s.engine? = some e) (nbits w : Nat) :
    (s.withFetchWord nbits w).engine? =
      some (e.aboutToRun ((List.range 4).map (tableWord s.cfg.width nbits w))) := by
  simp only [State.withFetchWord, he]
  exact State.engine?_setEngine s e _ he

theorem State.withFetchWord_running {s : State} {e : Engine} (he : s.engine? = some e) (nbits w : Nat) :
    (s.withFetchWord nbits w).running = true := by
  simp only [State.withFetchWord, he]

/-- Settles O29: the first of the four words placed is the one that the fetch reads. -/
theorem loadedWordRunsNext : Obligations.LoadedWordRunsNext := by
  intro s e nbits w i he hwf hdec
  have he' := State.withFetchWord_engine? he nbits w
  have hread := (Memory.place_spec ((List.range 4).map (tableWord s.cfg.width nbits w)) e.mem (max e.pc 0) hwf
    (le_max_right _ _)).2.2 _ _ rfl
  have hatt : CanAttempt (s.withFetchWord nbits w) _ := ⟨he', permitsStep_iff.mp (Engine.aboutToRun_permits e _)⟩
  exact (stepRunsDecodedInstruction _ _ (State.withFetchWord_running he nbits w) hatt).1 _ i hread hdec

/-! ### The outcomes of an attempt -/

section
variable {s s' : State} {e e' : Engine} {i : Instr} {m0 m1 m2 : Mode}

/-- How an effect leaves the running engine (R150 steps 6 to 9): completed, suspended or halted, or faulted. -/
theorem Effect.outcome (h : Effect s e i s') (he : s.engine? = some e) :
    ∃ e', s'.engine? = some e' ∧
      ((e'.status = .ready ∧ e'.fr = e.fr ∧ (∀ j, j ≠ s.cur → s'.engines[j]? = s.engines[j]?) ∧
          (e'.pc = e.pc + i.length ∨ ∃ m0 m1 m2, (i = .jt m0 m1 m2 ∨ i = .jf m0 m1 m2) ∧
            readParam s.cfg e 2 m1 = .ok e'.pc)) ∨
        ((e'.status = .blockedIn ∨ e'.status = .blockedOut ∨ e'.status = .halted) ∧
          s' = s.setEngine { e with status := e'.status }) ∨
        ∃ t, InstrTrap e i t ∧ s' = s.setEngine (faulted e t)) := by
  cases h with
  | @fault _ t ht => exact ⟨_, State.engine?_setEngine s e _ he, .inr (.inr ⟨t, ht, rfl⟩)⟩
  | halt => exact ⟨_, State.engine?_setEngine s e _ he, .inr (.inl ⟨.inr (.inr rfl), rfl⟩)⟩
  | blockIn => exact ⟨_, State.engine?_setEngine s e _ he, .inr (.inl ⟨.inl rfl, rfl⟩)⟩
  | blockOut => exact ⟨_, State.engine?_setEngine s e _ he, .inr (.inl ⟨.inr (.inl rfl), rfl⟩)⟩
  | @store mk m0 m1 m2 _ _ hmk =>
    refine ⟨_, State.engine?_setEngine s e _ he, .inl ⟨rfl, rfl, State.setEngine_other s _, .inl ?_⟩⟩
    rw [(storing_shape hmk m0 m1 m2).2.2]; rfl
  | @jump mk m0 m1 m2 pc hmk hpc =>
    refine ⟨_, State.engine?_setEngine s e _ he, .inl ⟨rfl, rfl, State.setEngine_other s _, ?_⟩⟩
    refine hpc.imp (fun h => ?_) fun h => ⟨m0, m1, m2, ?_, h⟩
    · rw [(jump_shape hmk m0 m1 m2).2.2]; exact h
    · simp only [List.mem_cons, List.not_mem_nil, or_false] at hmk
      exact hmk.imp (fun h => by rw [h]) fun h => by rw [h]
  | adjust => exact ⟨_, State.engine?_setEngine s e _ he, .inl ⟨rfl, rfl, State.setEngine_other s _, .inl rfl⟩⟩
  | @receive _ _ _ _ _ rest c =>
    exact ⟨_, State.engine?_setEngine (s.setChannel _ _) e _ he,
      .inl ⟨rfl, rfl, State.setEngine_other (s.setChannel _ _) _, .inl rfl⟩⟩
  | send =>
    exact ⟨_, State.engine?_setEngine (s.setChannel _ _) e _ he,
      .inl ⟨rfl, rfl, State.setEngine_other (s.setChannel _ _) _, .inl rfl⟩⟩

end

/-- Settles O30: a fault of the fetch, or one of the outcomes of an effect. -/
theorem attemptHasFourOutcomes : Obligations.AttemptHasFourOutcomes := by
  intro s s' e hatt hat
  obtain ⟨e₁, he, hcase⟩ := attempt_cases hat
  obtain rfl : e = e₁ := by simpa [hatt.engine] using he
  obtain ⟨t, -, rfl⟩ | ⟨i, hi, -, heff⟩ := hcase
  · exact ⟨_, State.engine?_setEngine s e _ he, .inr (.inr ⟨t, rfl⟩)⟩
  · obtain ⟨e', he', ⟨hst, hfr, hother, hpc⟩ | hstop | ⟨t, -, hfault⟩⟩ := heff.outcome he
    · exact ⟨e', he', .inl ⟨hst, hfr, hother, i, hi, hpc⟩⟩
    · exact ⟨e', he', .inr (.inl hstop)⟩
    · exact ⟨e', he', .inr (.inr ⟨t, hfault⟩)⟩

section
variable {s s' : State} {e e' : Engine} {i : Instr} {m0 m1 m2 : Mode}

theorem Effect.of_faulted (h : Effect s e i s') (he : s.engine? = some e) (he' : s'.engine? = some e')
    (hst : e'.status = .faulted) : ∃ t, InstrTrap e i t ∧ s' = s.setEngine (faulted e t) := by
  obtain ⟨e₁, he₁, ⟨hready, -⟩ | ⟨hstop, -⟩ | hfault⟩ := h.outcome he
  · obtain rfl : e' = e₁ := by simpa [he'] using he₁
    simp [hst] at hready
  · obtain rfl : e' = e₁ := by simpa [he'] using he₁
    simp [hst] at hstop
  · exact hfault

end

/-- Settles O34: the fetch and the instruction raise their own faults, and of these `OutOfBounds` alone has an address. -/
theorem faultsArePrecise : Obligations.FaultsArePrecise := by
  intro s s' e e' hatt hat he' hst
  obtain ⟨e₁, he, hcase⟩ := attempt_cases hat
  obtain rfl : e = e₁ := by simpa [hatt.engine] using he
  obtain ⟨t, ht, rfl⟩ | ⟨i, hi, -, heff⟩ := hcase
  · refine ⟨t, rfl, ?_⟩
    obtain ⟨hnone, rfl⟩ | ⟨hsome, rfl | rfl⟩ := fetchDecode_error ht
    · refine ⟨by simp [Trap.outOfBounds], fun a ha => ?_, fun _ => rfl⟩
      obtain rfl : e.pc = a := by simpa [Trap.outOfBounds] using ha
      exact Memory.read?_eq_none_iff.mp hnone
    · exact ⟨by simp [Trap.of], by simp [Trap.of], fun hnone => absurd hnone hsome⟩
    · exact ⟨by simp [Trap.of], by simp [Trap.of], fun hnone => absurd hnone hsome⟩
  · obtain ⟨t, ht, rfl⟩ := heff.of_faulted he he' hst
    obtain ⟨iw, hiw, -⟩ := fetchDecode_ok hi
    exact ⟨t, rfl, ht.addr_iff, fun a ha => ht.addr_outside ha, fun hnone => by simp [hiw] at hnone⟩

/-- Settles O37: a Halt was fetched, so memory is not empty. -/
theorem haltedEngineHasResult : Obligations.HaltedEngineHasResult := by
  intro s s' e e' hatt hat he' hst
  have he := hatt.engine
  obtain ⟨i, hi, heff⟩ := attempt_effect he hat he' (by simp [hst])
  obtain ⟨iw, hiw, -⟩ := fetchDecode_ok hi
  obtain ⟨hpc, hlen⟩ := Memory.read?_bounds hiw
  obtain ⟨v, hv⟩ : ∃ v, e.mem.read? 0 = some v := Memory.read?_isSome_iff.mpr ⟨le_rfl, by omega⟩
  have hmem : e'.mem = e.mem := by
    obtain ⟨e₁, he₁, ⟨hready, -⟩ | ⟨-, rfl⟩ | ⟨t, -, rfl⟩⟩ := heff.outcome he
    · obtain rfl : e' = e₁ := by simpa [he'] using he₁
      simp [hst] at hready
    · rw [State.eq_of_engine?_setEngine he' he]
    · rw [State.eq_of_engine?_setEngine he' he]; rfl
  exact ⟨hmem, v, hv, by simp [Engine.report, hst, hmem, hv]⟩

/-! ### Resuming -/

section
variable {s s' : State} {e e' : Engine} {i : Instr} {m0 m1 m2 : Mode}

/-- An Input that suspends has resolved its destination (D17). -/
theorem Effect.target_of_blockedIn (h : Effect s e (.inp m0 m1 m2) s') (he : s.engine? = some e)
    (he' : s'.engine? = some e') (hst : e'.status = .blockedIn) : ∃ a, writeTarget s.cfg e 1 m0 = .ok a := by
  obtain ⟨t, -, rfl⟩ | ⟨a, -, ha, -⟩ := h.inp_cases
  · obtain rfl := State.eq_of_engine?_setEngine he' he
    simp at hst
  · exact ⟨a, ha⟩

/-- An Output that suspends has read its parameter. -/
theorem Effect.param_of_blockedOut (h : Effect s e (.out m0 m1 m2) s') (he : s.engine? = some e)
    (he' : s'.engine? = some e') (hst : e'.status = .blockedOut) : ∃ v, readParam s.cfg e 1 m0 = .ok v := by
  generalize hi : Instr.out m0 m1 m2 = i at h
  cases h with
  | blockOut hv => cases hi; exact ⟨_, hv⟩
  | _ =>
    obtain rfl := State.eq_of_engine?_setEngine he' he
    simp at hst

/-- The next attempt of an engine that has suspended, once its channel `d` is `c`: the same instruction. -/
theorem attempt_after_block {st : Status} {d : Nat} {c c₀ : Channel} (he : s.engine? = some e)
    (hi : fetchDecode s.cfg e = .ok i) (hd : s.channel? d = some c₀) :
    attempt ((s.setEngine (e.block st)).setChannel d c) = exec i ((s.setEngine (e.block st)).setChannel d c) ∧
      ((s.setEngine (e.block st)).setChannel d c).engine? = some (e.block st) ∧
      ((s.setEngine (e.block st)).setChannel d c).channel? d = some c := by
  have he' : (s.setEngine (e.block st)).engine? = some (e.block st) := State.engine?_setEngine s e _ he
  have hfetch : fetchDecode ((s.setEngine (e.block st)).setChannel d c).cfg (e.block st) = .ok i := hi
  refine ⟨by rw [attempt_eq (s := (s.setEngine (e.block st)).setChannel d c) he', hfetch], he', ?_⟩
  rw [State.channel?_setChannel (s.setEngine (e.block st)) d d c₀ c hd, if_pos rfl]

end

/-- Settles O33: a suspended engine fetches the same instruction again, and this time its channel has what it needs. -/
theorem blockedInstructionCompletesWhenSatisfied : Obligations.BlockedInstructionCompletesWhenSatisfied := by
  intro s t e f hatt hwf hat hf
  have he := hatt.engine
  refine ⟨fun hst c v rest hq hr => ?_, fun hst c hroom hw hr => ?_⟩
  · obtain ⟨i, hi, heff⟩ := attempt_effect he hat hf (by simp [hst])
    obtain ⟨rfl, m0, m1, m2, c₀, rfl, hc₀, -⟩ := heff.of_blockedIn he hf hst
    obtain ⟨a, ha⟩ := heff.target_of_blockedIn he hf hst
    obtain ⟨hnext, he', hc⟩ := attempt_after_block (st := .blockedIn) (c := c) he hi hc₀
    have hin : (e.block .blockedIn).mem.inBounds a = true := writeTarget_ok ha
    refine ⟨m0, m1, m2, a, e.mem.write a v, hi, ha, rfl, fun b => Memory.read?_write hwf hin, ?_⟩
    rw [hnext, exec_inp_of_target_ok ⟨he', .inr (.inl rfl)⟩ ha hc, tryRecv_value hr hq, inputFrom_value _ hin]
    rfl
  · obtain ⟨i, hi, heff⟩ := attempt_effect he hat hf (by simp [hst])
    obtain ⟨rfl, m0, m1, m2, c₀, rfl, hc₀, -⟩ := heff.of_blockedOut he hf hst
    obtain ⟨v, hv⟩ := heff.param_of_blockedOut he hf hst
    obtain ⟨hnext, he', hc⟩ := attempt_after_block (st := .blockedOut) (c := c) he hi hc₀
    refine ⟨m0, m1, m2, v, hi, hv, ?_⟩
    rw [hnext, exec_out_of_param_ok ⟨he', .inr (.inr rfl)⟩ hv hc, State.setChannel_cfg, State.setEngine_cfg,
      trySend_ok v hw hr hroom]
    rfl

/-! ### Engines that have ended -/

section
variable {s : State} {e : Engine}

theorem onEngine_of_ended (k : Engine → Host.Outcome State Fault Refusal) (he : s.engine? = some e)
    (hst : e.status = .halted ∨ e.status = .faulted) : s.onEngine k = .fault .stepNotPermitted := by
  have hp : e.status.permitsStep = false := permitsStep_eq_false_iff.mpr hst
  simp [State.onEngine, he, hp]

/-- A run of an engine that has ended returns its report at once (R158). -/
theorem step_of_ended {r : Report} (hrun : s.running = true) (hph : s.phase ≠ .await) (he : s.engine? = some e)
    (hst : e.status = .halted ∨ e.status = .faulted) (hr : e.report = some r) :
    step s = .next { s with running := false, reply := some (.report r) } := by
  have hp : e.status.permitsStep = false := permitsStep_eq_false_iff.mpr hst
  simp [step, runStep, hrun, he, hp, State.endRun, hph, hr]

end

/-- Settles O39: no attempt is made, and the report is a function of the engine. -/
theorem runOnEndedEngineReportsAgain : Obligations.RunOnEndedEngineReportsAgain := by
  intro s e hrun hph he
  refine ⟨fun v hst hv => ?_, fun hst => ?_⟩
  · exact step_of_ended hrun hph he (.inl hst) (by simp [Engine.report, hst, hv])
  · exact step_of_ended hrun hph he (.inr hst) (by simp [Engine.report, hst])

/-- Settles O41: every meaning tests the status before anything else. -/
theorem noInstructionOnEndedEngine : Obligations.NoInstructionOnEndedEngine := by
  intro i s e he hst
  cases i <;> exact onEngine_of_ended _ he hst

end Sys2Proof.Machine
end

section
/-! SUPPORT. The checked primitives of memory, the canonical form, operands by mode, and the word stored for a result
(spec/20_memory.md R55, R56, R61 to R63; spec/40_arithmetic.md R119). -/

namespace Sys2Proof.Machine

open Sys2Proof.Claims

/-! ### Memory -/

theorem memRead_of_none {m : Memory} {a : Int} (h : m.read? a = none) : memRead m a = .error (Trap.outOfBounds a) :=
  memRead_eq_error.mpr ⟨h, rfl⟩

/-- Settles O8: a write that passes the check changes one cell of the canonical list, and `WriteTarget` makes that check. -/
theorem memoryReadsBackWrites : Obligations.MemoryReadsBackWrites := by
  refine ⟨fun m a v hout => ?_, fun m a v hwf h0 hlen => ?_, fun cfg e i md t v ht => ?_⟩
  · have hin : m.inBounds a = false := by rwa [Bool.eq_false_iff, ne_eq, Memory.inBounds_iff]
    exact ⟨memRead_of_none (Memory.read?_eq_none_iff.mpr hout), by simp [memWrite, hin, Trap.outOfBounds]⟩
  · have hin : m.inBounds a = true := Memory.inBounds_iff.mpr ⟨h0, hlen⟩
    refine ⟨m.write a v, memWrite_of_inBounds hin, Memory.wf_write hwf hin, rfl, ?_, fun b hb => ?_⟩
    · rw [memRead_eq_ok, Memory.read?_write hwf hin, if_pos rfl]
    · simp only [memRead, Memory.read?_write hwf hin, if_neg hb]
  · exact ⟨_, memWrite_of_inBounds (writeTarget_ok ht)⟩

theorem cellsWf_cons_iff {len lo k : Nat} {v : Int} {rest : List (Nat × Int)} :
    cellsWf len lo ((k, v) :: rest) = true ↔ lo ≤ k ∧ k < len ∧ v ≠ 0 ∧ cellsWf len (k + 1) rest = true := by
  simp [cellsWf, and_assoc]

theorem lookupCell_cons_self (k : Nat) (v : Int) (rest : List (Nat × Int)) : lookupCell ((k, v) :: rest) k = v := by
  simp [lookupCell]

theorem lookupCell_cons_of_ne {k a : Nat} (h : k ≠ a) (v : Int) (rest : List (Nat × Int)) :
    lookupCell ((k, v) :: rest) a = lookupCell rest a := by
  simp [lookupCell, h]

/-- The first listed cell is the first that does not hold 0. -/
theorem le_of_lookupCell_ne_zero {len lo a : Nat} {l : List (Nat × Int)} (h : cellsWf len lo l = true)
    (ha : lookupCell l a ≠ 0) : lo ≤ a := by
  by_contra hlt
  exact ha (lookupCell_below h (by omega))

/-- A canonical cell list is determined by what it gives every address. -/
theorem cells_eq_of_lookupCell_eq {len len' lo lo' : Nat} {l l' : List (Nat × Int)} (h : cellsWf len lo l = true)
    (h' : cellsWf len' lo' l' = true) (heq : ∀ a, lookupCell l a = lookupCell l' a) : l = l' := by
  induction l generalizing lo lo' l' with
  | nil =>
    cases l' with
    | nil => rfl
    | cons c' rest' =>
      obtain ⟨k', v'⟩ := c'
      obtain ⟨-, -, hv', -⟩ := cellsWf_cons_iff.mp h'
      exact absurd (lookupCell_cons_self k' v' rest' ▸ (heq k').symm) hv'
  | cons c rest ih =>
    obtain ⟨k, v⟩ := c
    obtain ⟨-, hk, hv, hrest⟩ := cellsWf_cons_iff.mp h
    have hfirst := heq k
    rw [lookupCell_cons_self] at hfirst
    cases l' with
    | nil => exact absurd hfirst hv
    | cons c' rest' =>
      obtain ⟨k', v'⟩ := c'
      obtain ⟨-, hk', hv', hrest'⟩ := cellsWf_cons_iff.mp h'
      have hle : k' ≤ k := le_of_lookupCell_ne_zero (cellsWf_cons_iff.mpr ⟨le_rfl, hk', hv', hrest'⟩) (hfirst ▸ hv)
      have hge : k ≤ k' := by
        refine le_of_lookupCell_ne_zero (cellsWf_cons_iff.mpr ⟨le_rfl, hk, hv, hrest⟩) ?_
        rwa [heq k', lookupCell_cons_self]
      obtain rfl : k = k' := le_antisymm hge hle
      obtain rfl : v = v' := by rwa [lookupCell_cons_self] at hfirst
      have htail : rest = rest' := by
        refine ih hrest hrest' fun a => ?_
        by_cases ha : k = a
        · subst ha
          rw [lookupCell_below hrest (Nat.lt_succ_self _), lookupCell_below hrest' (Nat.lt_succ_self _)]
        · have hnext := heq a
          rwa [lookupCell_cons_of_ne ha, lookupCell_cons_of_ne ha] at hnext
      rw [htail]

/-- From the length on nothing is listed. -/
theorem lookupCell_beyond {len : Nat} {l : List (Nat × Int)} {lo a : Nat} (h : cellsWf len lo l = true) (ha : len ≤ a) :
    lookupCell l a = 0 := by
  induction l generalizing lo with
  | nil => rfl
  | cons c rest ih =>
    obtain ⟨k, v⟩ := c
    obtain ⟨-, hk, -, hrest⟩ := cellsWf_cons_iff.mp h
    rw [lookupCell_cons_of_ne (by omega)]
    exact ih hrest

theorem Memory.read?_of_lt {m : Memory} {a : Nat} (h : a < m.len) : m.read? a = some (lookupCell m.cells a) := by
  simp [Memory.read?, Memory.inBounds, h]

/-- Settles O9: equal reads are equal lookups, and these determine a canonical list. -/
theorem canonicalMemoriesEqual : Obligations.CanonicalMemoriesEqual := by
  intro m m' hwf hwf' hlen heq
  have hcells : m.cells = m'.cells := by
    refine cells_eq_of_lookupCell_eq hwf hwf' fun a => ?_
    by_cases ha : a < m.len
    · have hread := heq a
      rw [Memory.read?_of_lt ha, Memory.read?_of_lt (hlen ▸ ha)] at hread
      exact Option.some.inj hread
    · rw [lookupCell_beyond hwf (by omega), lookupCell_beyond hwf' (by omega)]
  cases m
  cases m'
  simp_all

/-! ### Operands -/

section
variable {cfg : Config} {e : Engine} {i : Nat} {m : Mode} {p : Int}

theorem readParam_of_no_operand (h : e.mem.read? (e.pc + i) = none) :
    readParam cfg e i m = .error (Trap.outOfBounds (e.pc + i)) := by
  simp [readParam, operand, memRead_of_none h, bind, Except.bind]

theorem readParam_immediate (h : e.mem.read? (e.pc + i) = some p) : readParam cfg e i .immediate = .ok p := by
  simp [readParam, operand, memRead_eq_ok.mpr h, bind, Except.bind]

theorem readParam_position (h : e.mem.read? (e.pc + i) = some p) : readParam cfg e i .position = memRead e.mem p := by
  simp [readParam, operand, memRead_eq_ok.mpr h, bind, Except.bind]

theorem readParam_relative (h : e.mem.read? (e.pc + i) = some p) (hrel : cfg.rel = true) :
    readParam cfg e i .relative = memRead e.mem (e.rb + p) := by
  simp [readParam, operand, memRead_eq_ok.mpr h, hrel, bind, Except.bind]

theorem writeTarget_of_no_operand (h : e.mem.read? (e.pc + i) = none) :
    writeTarget cfg e i m = .error (Trap.outOfBounds (e.pc + i)) := by
  simp [writeTarget, operand, memRead_of_none h, bind, Except.bind]

theorem writeTarget_of_no_address {t : Trap} (h : e.mem.read? (e.pc + i) = some p) (ha : targetAddr cfg e m p = .error t) :
    writeTarget cfg e i m = .error t := by
  simp [writeTarget, operand, memRead_eq_ok.mpr h, ha, bind, Except.bind]

theorem writeTarget_of_address {a : Int} (h : e.mem.read? (e.pc + i) = some p) (ha : targetAddr cfg e m p = .ok a) :
    writeTarget cfg e i m = if e.mem.inBounds a then .ok a else .error (Trap.outOfBounds a) := by
  simp [writeTarget, operand, memRead_eq_ok.mpr h, ha, bind, Except.bind]

end

/-- Settles O10: the operand is read first, then at most one cell. -/
theorem sourceParameterByMode : Obligations.SourceParameterByMode := by
  intro cfg e i
  refine ⟨fun m hnone => readParam_of_no_operand hnone,
    fun p hp => ⟨readParam_immediate hp, ?_, ?_, fun hrel => ⟨?_, ?_⟩⟩⟩
  · intro v hv
    rw [readParam_position hp, memRead_eq_ok.mpr hv]
  · intro hnone
    rw [readParam_position hp, memRead_of_none hnone]
    rfl
  · intro v hv
    rw [readParam_relative hp hrel, memRead_eq_ok.mpr hv]
  · intro hnone
    rw [readParam_relative hp hrel, memRead_of_none hnone]
    rfl

/-- Settles O11: the operand is read first, then the mode gives an address, which is checked. -/
theorem destinationByMode : Obligations.DestinationByMode := by
  intro cfg e i
  refine ⟨fun m hnone => writeTarget_of_no_operand hnone, fun p hp => ⟨fun himm => ?_, fun m a hma => ?_⟩⟩
  · exact writeTarget_of_no_address hp (by simp [targetAddr, himm, Trap.of])
  · have haddr : targetAddr cfg e m p = .ok a := by
      obtain ⟨rfl, rfl⟩ | ⟨rfl, himm, rfl⟩ | ⟨rfl, hrel, rfl⟩ := hma
      · rfl
      · simp [targetAddr, himm]
      · simp [targetAddr, hrel]
    rw [writeTarget_of_address hp haddr]
    refine ⟨fun hin => if_pos (Memory.inBounds_iff.mpr hin), fun hout => ?_⟩
    exact if_neg fun hin => hout (Memory.inBounds_iff.mp hin)

/-! ### Results -/

theorem arith_of_fits {cfg : Config} {v : Int} (h : fits cfg.width v = true) : arith cfg v = .ok v := by
  simp [arith, h]

/-- A value wrapped to any number of bits, even one that R7 does not allow, lies in the range. -/
theorem fits_wrapTo_bits {n : Nat} (hn : 1 ≤ n) (v : Int) : fits (.bits n) (wrapTo (.bits n) v) = true := by
  obtain ⟨k, rfl⟩ : ∃ k, n = k + 1 := ⟨n - 1, by omega⟩
  have hdouble : (2 : Int) ^ (k + 1) = 2 * 2 ^ k := by rw [pow_succ]; ring
  have hpos : (0 : Int) < 2 ^ (k + 1) := by positivity
  have hlow := Int.emod_nonneg (v + 2 ^ k) hpos.ne'
  have hhigh := Int.emod_lt_of_pos (v + 2 ^ k) hpos
  rw [fits_bits, wrapTo, Nat.add_sub_cancel]
  omega

/-- The wrapped value differs from the exact one by a multiple of `2^W`. -/
theorem dvd_sub_wrapTo (n : Nat) (v : Int) : (2 ^ n : Int) ∣ v - wrapTo (.bits n) v := by
  have h : v - wrapTo (.bits n) v = (v + 2 ^ (n - 1)) - (v + 2 ^ (n - 1)) % 2 ^ n := by simp only [wrapTo]; ring
  rw [h]
  exact Int.dvd_self_sub_emod

/-- Words that are congruent modulo `2^W` are equal: the range of a word holds `2^W` integers. -/
theorem eq_of_fits_of_dvd_sub {n : Nat} {r r' : Int} (hn : 1 ≤ n) (hr : fits (.bits n) r = true)
    (hr' : fits (.bits n) r' = true) (hdvd : (2 ^ n : Int) ∣ r' - r) : r' = r := by
  obtain ⟨k, rfl⟩ : ∃ k, n = k + 1 := ⟨n - 1, by omega⟩
  rw [fits_bits, Nat.add_sub_cancel] at hr hr'
  have hdouble : (2 : Int) ^ (k + 1) = 2 * 2 ^ k := by rw [pow_succ]; ring
  have hlt : |r' - r| < 2 ^ (k + 1) := by rw [abs_lt]; omega
  have hzero := Int.eq_zero_of_abs_lt_dvd hdvd hlt
  omega

/-- Settles O12: `fits` is the range, and where it fails the wrapped value is the one word congruent to the result. -/
theorem arithFitsFaultsOrWraps : Obligations.ArithFitsFaultsOrWraps := by
  intro cfg v
  refine ⟨fun hw => ?_, fun n hw hn => ?_⟩
  · have hfit : fits cfg.width v = true := by simp [hw, fits]
    exact ⟨hfit, arith_of_fits hfit⟩
  · have hiff : fits cfg.width v = true ↔ -(2 ^ (n - 1)) ≤ v ∧ v ≤ 2 ^ (n - 1) - 1 := by rw [hw, fits_bits]
    refine ⟨hiff, fun hin => arith_of_fits (hiff.mpr hin), fun hout => ?_⟩
    have hnot : fits cfg.width v = false := by
      rw [Bool.eq_false_iff, ne_eq, hiff]
      omega
    refine ⟨fun hovf => by simp [arith, hnot, hovf], fun hovf => ⟨wrapTo (.bits n) v, ?_, ?_⟩⟩
    · rw [arith, hnot, hovf, hw]
      rfl
    · have hwrap := fits_wrapTo_bits hn v
      obtain ⟨hlow, hhigh⟩ := fits_bits.mp hwrap
      refine ⟨hlow, hhigh, dvd_sub_wrapTo n v, fun r' hlow' hhigh' hdvd => ?_⟩
      refine eq_of_fits_of_dvd_sub hn hwrap (fits_bits.mpr ⟨hlow', hhigh'⟩) ?_
      have hdiff := Int.dvd_sub (dvd_sub_wrapTo n v) hdvd
      rwa [sub_sub_sub_cancel_left] at hdiff

end Sys2Proof.Machine
end

section
/-! SUPPORT. What no step changes: the parameters (spec/10_state.md R38), and, but for a `Close` and a new network, the closed
flags of the channels (spec/20_memory.md R72, R73). -/

namespace Sys2Proof.Machine

open Sys2Proof.Claims

/-! ### The parameters -/

theorem attempt_cfg {s s' : State} (h : attempt s = .next s') : s'.cfg = s.cfg := by
  obtain ⟨_, _, _, -, rfl, -⟩ := attempt_frame h
  rfl

theorem ComposerMove.cfg {s s' : State} (h : ComposerMove s s') : s'.cfg = s.cfg := by
  cases h <;> rfl

theorem HostMove.cfg {s s' : State} {op : HostOp} (h : HostMove s op s') : s'.cfg = s.cfg := by
  cases h with
  | attempt _ _ _ hat => exact attempt_cfg (s := s.invoke _) hat
  | yield hcomp => exact (composerStep_cases hcomp).cfg
  | _ => rfl

/-- Settles O44: no way a step can be made writes the parameters. -/
theorem parametersNeverChange : Obligations.ParametersNeverChange := by
  intro s s' hstep
  cases step_cases hstep with
  | attempt _ _ _ hat => rw [State.afterAttempt_cfg, attempt_cfg hat]
  | ended => rfl
  | host _ _ hmove => exact hmove.cfg
  | composer _ _ hmove => exact hmove.cfg

/-! ### The closed flags -/

/-- The two closed flags of channel `c`; none where the network has no such channel. -/
def State.flags? (s : State) (c : Nat) : Option (Bool × Bool) := s.channels[c]?.map fun ch => (ch.wclosed, ch.rclosed)

section
variable {s s' : State} {c : Nat} {ch : Channel}

theorem State.flags?_of_channels_eq (h : s'.channels = s.channels) (d : Nat) : s'.flags? d = s.flags? d := by
  simp [State.flags?, h]

/-- Replacing a channel by one with the same flags keeps every flag. -/
theorem State.flags?_setChannel {ch' : Channel} (hc : s.channel? c = some ch)
    (hflags : ch'.wclosed = ch.wclosed ∧ ch'.rclosed = ch.rclosed) (d : Nat) :
    (s.setChannel c ch').flags? d = s.flags? d := by
  have hget : (s.setChannel c ch').channels[d]? = if d = c then some ch' else s.channels[d]? :=
    State.channel?_setChannel s c d ch ch' hc
  rw [State.flags?, State.flags?, hget]
  split_ifs with hd
  · have hd' : s.channels[d]? = some ch := hd ▸ hc
    simp [hd', hflags]
  · rfl

theorem attempt_flags? (h : attempt s = .next s') (hc : s.channels[c]? = some ch) : s'.flags? c = s.flags? c := by
  obtain ⟨e, _, _, he, -⟩ := attempt_frame h
  obtain ⟨ch', hc', hw, hr, -⟩ := attempt_channel he h hc
  simp [State.flags?, hc, hc', hw, hr]

theorem ComposerMove.flags? (h : ComposerMove s s') (d : Nat) : s'.flags? d = s.flags? d := by
  cases h with
  | @push _ _ v ch _ _ _ _ hc _ =>
    exact State.flags?_setChannel (ch' := { ch with q := ch.q ++ [v] }) hc ⟨rfl, rfl⟩ d
  | extract _ hc => exact State.flags?_setChannel hc (Channel.drain_flags _) d
  | _ => rfl

/-- An operation of the external driver keeps the flags of a channel, or it is the construction of a network or a `Close` of that
channel. -/
theorem HostMove.flags? {op : HostOp} (h : HostMove s op s') (hc : s.channels[c]? = some ch) :
    s'.flags? c = s.flags? c ∨ (∃ net, op = .launch net) ∨
      ∃ e, op = .close c e ∧ s'.channels[c]? = some (ch.close e) := by
  cases h with
  | launch => exact .inr (.inl ⟨_, rfl⟩)
  | attempt _ _ _ hat => exact .inl (attempt_flags? (s := s.invoke _) hat hc)
  | push _ hc' => exact .inl (State.flags?_setChannel hc' (Channel.trySend_flags _ _ _) c)
  | pop _ _ hc' => exact .inl (State.flags?_setChannel hc' (Channel.tryRecv_flags _) c)
  | drain _ _ hc' => exact .inl (State.flags?_setChannel hc' (Channel.drain_flags _) c)
  | yield hcomp => exact .inl ((composerStep_cases hcomp).flags? c)
  | @close d e ch' hd =>
    have hget := State.channel?_setChannel s d c ch' (ch'.close e) hd
    by_cases hdc : c = d
    · subst hdc
      obtain rfl : ch = ch' := Option.some.inj (hc.symm.trans hd)
      exact .inr (.inr ⟨e, rfl, hget.trans (if_pos rfl)⟩)
    · have hkeep : (s.setChannel d (ch'.close e)).channels[c]? = s.channels[c]? := hget.trans (if_neg hdc)
      exact .inl (congrArg (Option.map _) hkeep)
  | _ => exact .inl rfl

theorem exists_of_flags?_eq (h : s'.flags? c = s.flags? c) (hc : s.channels[c]? = some ch) :
    ∃ ch', s'.channels[c]? = some ch' ∧ ch'.wclosed = ch.wclosed ∧ ch'.rclosed = ch.rclosed := by
  simpa [State.flags?, hc] using h

end

/-- Settles O43: attempts, runs and the composer keep every flag, and so do the operations of the external driver but two. -/
theorem onlyTheHostClosesEndpoints : Obligations.OnlyTheHostClosesEndpoints := by
  intro s s' c ch hstep hc
  cases step_cases hstep with
  | @attempt s1 _ _ _ _ hat =>
    have hkeep := (State.flags?_of_channels_eq s1.afterAttempt_channels c).trans (attempt_flags? hat hc)
    exact .inl (exists_of_flags?_eq hkeep hc)
  | ended => exact .inl ⟨ch, hc, rfl, rfl⟩
  | composer _ _ hmove => exact .inl (exists_of_flags?_eq (hmove.flags? c) hc)
  | @host op _ _ hr hops hmove =>
    have hnext {p : HostOp → Prop} (hp : p op) : nextHostOp s p := ⟨hr, op, by simp [hops], hp⟩
    obtain hkeep | hlaunch | ⟨e, rfl, hclose⟩ := hmove.flags? hc
    · exact .inl (exists_of_flags?_eq hkeep hc)
    · exact .inr (.inl (hnext hlaunch))
    · cases e with
      | producer => exact .inr (.inr (.inl ⟨hnext rfl, hclose⟩))
      | consumer => exact .inr (.inr (.inr ⟨hnext rfl, hclose⟩))

end Sys2Proof.Machine
end

section
/-! SUPPORT. The invariant of the machine through each update of the state: one lemma per update, so that a step keeps it
because every update it is made of does. -/

namespace Sys2Proof.Machine

open Sys2Proof.Claims

/-! ### The running engine -/

section
variable {cfg : Config} {e : Engine}

theorem Engine.Inv.setRb {r : Int} (h : e.Inv cfg) (hrel : cfg.rel = true) (hr : fits cfg.width r = true) :
    (e.setRb r).Inv cfg :=
  { h with rbFits := hr, rbBase := fun hno => absurd hno (by simp [hrel]) }

/-- The next `pc` of an instruction whose operand cells exist is a word (R25). -/
theorem Engine.Inv.pc_add_fits {k d : Int} (h : e.Inv cfg) (hin : 0 ≤ e.pc + k ∧ e.pc + k < e.mem.len)
    (hd : k ≤ d ∧ d ≤ k + 4) : fits cfg.width (e.pc + d) = true :=
  fits_addr h.memLen (by omega) (by omega)

/-- Every effect leaves the running engine within the invariant (R22 to R30). -/
theorem Effect.engine_inv {s s' : State} {e' : Engine} {i : Instr} (h : Effect s e i s') (hw : widthOk s.cfg.width = true)
    (he : s.engine? = some e) (he' : s'.engine? = some e') (hp : e.status ≠ .faulted) (hinv : e.Inv s.cfg)
    (hch : ∀ c ∈ s.channels, c.Inv s.cfg) : e'.Inv s.cfg := by
  cases h with
  | fault ht =>
    obtain rfl := State.eq_of_engine?_setEngine he' he
    exact hinv.raise ht.addr_iff
  | store _ ha hr hin =>
    obtain rfl := State.eq_of_engine?_setEngine he' he
    exact hinv.complete hp (Memory.wf_write hinv.memWf (writeTarget_ok ha)) rfl (hinv.write_cells (hr hw))
      (hinv.pc_add_fits hin (by omega))
  | jump _ hpc hin =>
    obtain rfl := State.eq_of_engine?_setEngine he' he
    refine hinv.complete hp hinv.memWf rfl hinv.cells ?_
    obtain rfl | hread := hpc
    · exact hinv.pc_add_fits hin (by omega)
    · obtain ⟨a, ha⟩ := readParam_ok hread
      exact hinv.read_fits hw ha
  | halt =>
    obtain rfl := State.eq_of_engine?_setEngine he' he
    exact hinv.block (st := .halted) hp (by simp)
  | adjust hrel hr hin =>
    obtain rfl := State.eq_of_engine?_setEngine he' he
    exact (hinv.setRb hrel (hr hw)).complete hp hinv.memWf rfl hinv.cells (hinv.pc_add_fits hin (by omega))
  | @receive _ _ _ a v rest c ha hc _ hq hin =>
    obtain rfl := State.eq_of_engine?_setEngine (s := s.setChannel _ _) he' he
    have hv : fits s.cfg.width v = true := (hch c (List.mem_of_getElem? hc)).items v (by simp [hq])
    exact hinv.complete hp (Memory.wf_write hinv.memWf (writeTarget_ok ha)) rfl (hinv.write_cells hv)
      (hinv.pc_add_fits hin (by omega))
  | blockIn =>
    obtain rfl := State.eq_of_engine?_setEngine he' he
    exact hinv.block hp (by simp)
  | send _ _ _ _ _ hin =>
    obtain rfl := State.eq_of_engine?_setEngine (s := s.setChannel _ _) he' he
    exact hinv.complete hp hinv.memWf rfl hinv.cells (hinv.pc_add_fits hin (by omega))
  | blockOut =>
    obtain rfl := State.eq_of_engine?_setEngine he' he
    exact hinv.block hp (by simp)

end

section
variable {s s' : State} {e : Engine} {i : Instr}

theorem Effect.channels_length (h : Effect s e i s') : s'.channels.length = s.channels.length := by
  cases h <;> simp

/-- Every effect leaves the channels bounded, and words in them. -/
theorem Effect.channels_inv (h : Effect s e i s') (hw : widthOk s.cfg.width = true) (hinv : e.Inv s.cfg)
    (hch : ∀ c ∈ s.channels, c.Inv s.cfg) : ∀ c ∈ s'.channels, c.Inv s.cfg := by
  intro c' hc'
  obtain ⟨d, hd'⟩ := List.getElem?_of_mem hc'
  have hlt : d < s.channels.length := h.channels_length ▸ (List.getElem?_eq_some_iff.mp hd').1
  have hd := List.getElem?_eq_getElem hlt
  have hold := hch _ (List.getElem_mem hlt)
  obtain hsame | ⟨v, rest, -, hq, htake⟩ | ⟨v, m0, m1, m2, -, -, hv, hroom, happ⟩ := h.channel d _ hd
  · obtain rfl := Option.some.inj (hd'.symm.trans hsame)
    exact hold
  · obtain rfl := Option.some.inj (hd'.symm.trans htake)
    have hb := hold.bounded
    have hitems := hold.items
    rw [hq] at hb hitems
    exact ⟨(Nat.le_succ _).trans hb, fun w hw => hitems w (List.mem_cons_of_mem _ hw)⟩
  · obtain rfl := Option.some.inj (hd'.symm.trans happ)
    obtain ⟨a, ha⟩ := readParam_ok hv
    refine ⟨by simpa using hroom, fun w hmem => ?_⟩
    obtain hmem | rfl : w ∈ _ ∨ w = v := by simpa using hmem
    · exact hold.items w hmem
    · exact hinv.read_fits hw ha

/-- Replacing an engine by one that agrees with it in `f` keeps the list of these. -/
theorem map_set_of_eq {α β : Type} (f : α → β) {l : List α} {k : Nat} {a a' : α} (ha : l[k]? = some a) (hf : f a' = f a) :
    (l.set k a').map f = l.map f := by
  obtain ⟨hk, rfl⟩ := List.getElem?_eq_some_iff.mp ha
  apply List.ext_getElem?
  intro j
  by_cases hj : k = j
  · subst hj; simp [hf, hk]
  · simp [List.getElem?_set_ne hj]

/-- An engine that may attempt an instruction is not marked as halted, so the composer's registers go with what replaces it. -/
theorem State.PhaseInv.setEngine (h : s.PhaseInv) (he : s.engine? = some e) (hp : e.status.permitsStep = true)
    (hrun : s.phase = .await → s.running = true) (e' : Engine) (chs : List Channel) :
    ({ s.setEngine e' with channels := chs } : State).PhaseInv := by
  refine { h with haltedEngine := ?_, phaseCount := ?_, runPhase := ?_, awaitEngine := ?_ }
  · intro h1 h2 h3 k hk
    obtain ⟨f, hf, hst⟩ := h.haltedEngine h1 h2 h3 k hk
    have hne : k ≠ s.cur := by
      rintro rfl
      obtain rfl := Option.some.inj (he.symm.trans hf)
      simp [hst, Status.permitsStep] at hp
    exact ⟨f, (State.setEngine_other s e' k hne).trans hf, hst⟩
  · simpa using h.phaseCount
  · simpa using h.runPhase
  · exact fun hph => ⟨e', State.engine?_setEngine s e e' he, .inl (hrun hph)⟩

/-- The running engine and the channels are replaced, within the invariant and with the same endpoints. -/
theorem State.Inv.setEngine (h : s.Inv) (he : s.engine? = some e) {e' : Engine} {chs : List Channel} (hin : e'.inCh = e.inCh)
    (hout : e'.outCh = e.outCh) (hinv : e'.Inv s.cfg) (hlen : chs.length = s.channels.length)
    (hch : ∀ c ∈ chs, c.Inv s.cfg) (hph : ({ s.setEngine e' with channels := chs } : State).PhaseInv) :
    ({ s.setEngine e' with channels := chs } : State).Inv := by
  refine { h with someEngine := ?_, engines := ?_, channels := hch, channelCount := ?_, inWired := ?_, outWired := ?_,
                  haltedCount := ?_, phaseInv := hph }
  · simpa using h.someEngine
  · intro f hf
    obtain hf | rfl := List.mem_or_eq_of_mem_set hf
    · exact h.engines f hf
    · exact hinv
  · simpa [hlen] using h.channelCount
  · simpa [map_set_of_eq (·.inCh) he hin] using h.inWired
  · simpa [map_set_of_eq (·.outCh) he hout] using h.outWired
  · simpa using h.haltedCount

/-- An attempt keeps the invariant. -/
theorem State.Inv.attempt (h : s.Inv) (hat : attempt s = .next s') (he : s.engine? = some e)
    (hp : e.status.permitsStep = true) (hrun : s.phase = .await → s.running = true) : s'.Inv := by
  have hinv := h.engines e (State.mem_of_engine? he)
  obtain ⟨e₁, he₁, hcase⟩ := attempt_cases hat
  obtain rfl : e = e₁ := Option.some.inj (he.symm.trans he₁)
  have hph := h.phaseInv.setEngine he hp hrun
  obtain ⟨t, ht, rfl⟩ | ⟨i, -, -, heff⟩ := hcase
  · refine h.setEngine he rfl rfl (hinv.raise ?_) rfl h.channels (hph _ _)
    obtain ⟨-, rfl⟩ | ⟨-, rfl | rfl⟩ := fetchDecode_error ht <;> simp [Trap.outOfBounds, Trap.of]
  · obtain ⟨e', chs, rfl, he', hin, hout, -⟩ := heff.frame he
    have hlive : e.status ≠ .faulted := fun hst => by simp [hst, Status.permitsStep] at hp
    exact h.setEngine he hin hout (heff.engine_inv h.widthOk he he' hlive hinv h.channels) heff.channels_length
      (heff.channels_inv h.widthOk hinv h.channels) (hph _ _)

end

/-! ### Registers of the run, the host and the composer -/

section
variable {s : State} {c : Nat} {ch : Channel}

theorem State.Inv.withHostOps (h : s.Inv) (ops : List HostOp) : ({ s with hostOps := ops } : State).Inv :=
  { h with phaseInv := { h.phaseInv with } }

theorem State.Inv.answer (h : s.Inv) (r : Reply) : (s.answer r).Inv :=
  { h with phaseInv := { h.phaseInv with } }

theorem State.Inv.setChannel (h : s.Inv) (hch : ch.Inv s.cfg) : (s.setChannel c ch).Inv := by
  refine { h with channels := ?_, channelCount := ?_, phaseInv := { h.phaseInv with } }
  · intro d hd
    obtain hd | rfl := List.mem_or_eq_of_mem_set hd
    · exact h.channels d hd
    · exact hch
  · simpa using h.channelCount

theorem State.Inv.channel (h : s.Inv) (hc : s.channel? c = some ch) : ch.Inv s.cfg :=
  h.channels ch (List.mem_of_getElem? hc)

/-- A run returns with a status other than `Ready` (R153). -/
theorem State.Inv.endRun {e : Engine} (h : s.Inv) (he : s.engine? = some e) (hst : e.status ≠ .ready) : s.endRun.Inv :=
  { h with
    phaseInv :=
      { h.phaseInv with
        runPhase := fun hr => by simp at hr
        runStarted := fun hr => by simp at hr
        awaitEngine := fun _ => ⟨e, he, .inr hst⟩ } }

theorem State.Inv.afterAttempt (h : s.Inv) {e : Engine} (he : s.engine? = some e) : s.afterAttempt.Inv := by
  obtain ⟨heq, -⟩ | ⟨heq, hst⟩ := s.afterAttempt_cases
  · rwa [heq]
  · rw [heq]
    exact h.endRun he (by simpa [he] using hst)

/-- Where the external driver may invoke an engine, no composer awaits a report and no preload is at work. -/
theorem State.Inv.invoke (h : s.Inv) (hph : s.phase.allowsRun = true) {i : Nat} (hi : i < s.engines.length) (run : Bool) :
    ({ s.invoke i with running := run } : State).Inv :=
  { h with
    phaseInv :=
      { h.phaseInv with
        runPhase := fun _ => ⟨.inr hph, hi⟩
        runStarted := fun _ => .inr rfl
        preloadFirst := fun j hj => by simp [show s.phase = .preload j from hj, Phase.allowsRun] at hph
        awaitEngine := fun ha => by simp [show s.phase = .await from ha, Phase.allowsRun] at hph } }

theorem State.Inv.load (h : s.Inv) (hrun : s.running = false) (hph : s.phase.loopOver = true) {i : Nat} {e : Engine}
    {image : List Int} (he : s.engines[i]? = some e) (hok : imageOk s.cfg image = true) :
    ({ s with engines := s.engines.set i (Engine.load image e.inCh e.outCh) } : State).Inv := by
  refine { h with someEngine := ?_, engines := ?_, channelCount := ?_, inWired := ?_, outWired := ?_, haltedCount := ?_,
                  phaseInv := ?_ }
  · simpa using h.someEngine
  · intro f hf
    obtain hf | rfl := List.mem_or_eq_of_mem_set hf
    · exact h.engines f hf
    · exact Engine.Inv.load h.widthOk hok
  · simpa using h.channelCount
  · simpa only [List.length_set] using
      (map_set_of_eq (a' := Engine.load image e.inCh e.outCh) (·.inCh) he rfl).trans h.inWired
  · simpa only [List.length_set] using
      (map_set_of_eq (a' := Engine.load image e.inCh e.outCh) (·.outCh) he rfl).trans h.outWired
  · simpa using h.haltedCount
  · refine { h.phaseInv with haltedEngine := ?_, phaseCount := ?_, runPhase := ?_, awaitEngine := ?_ }
    · intro hext hdone hfail k hk
      have hidle : s.phase = .idle := by simpa [loopOver_iff, hext, hdone, hfail] using hph
      simpa using h.phaseInv.idleHalted hidle true (List.mem_of_getElem? hk)
    · simpa using h.phaseInv.phaseCount
    · simp [hrun]
    · intro ha
      simp [show s.phase = .await from ha, Phase.loopOver] at hph

/-! ### A new network -/

theorem configOk_iff {cfg : Config} :
    configOk cfg = true ↔ widthOk cfg.width = true ∧ 1 ≤ cfg.cap ∧ fits cfg.width cfg.seed = true := by
  simp [configOk, and_assoc]

theorem launchOk_iff {cfg : Config} {net : Net} :
    launchOk cfg net = true ↔ configOk cfg = true ∧ 1 ≤ net.images.length ∧ (∀ image ∈ net.images, imageOk cfg image = true) ∧
      (net.phases.length = if net.driver = .external then 0 else net.images.length) ∧
      ∀ v ∈ net.phases, fits cfg.width v = true := by
  simp [launchOk, and_assoc]

theorem State.launched_phaseInv (s : State) {net : Net} (hok : launchOk s.cfg net = true) : (s.launched net).PhaseInv := by
  obtain ⟨-, -, -, hcount, -⟩ := launchOk_iff.mp hok
  have hhalted : ∀ h ∈ (s.launched net).halted, h = false := fun h hh => List.eq_of_mem_replicate hh
  constructor
  case haltedEngine => exact fun _ _ _ k hk => absurd (hhalted _ (List.mem_of_getElem? hk)) (by simp)
  case idleHalted => exact fun _ => hhalted
  case phaseCount =>
    intro hbusy
    have hd : net.driver ≠ .external := fun hd => hbusy (by simp [hd])
    simpa [hd, buildEngines_length] using hcount
  all_goals by_cases hd : net.driver = .external <;> simp [hd]

/-- The endpoints of a new network are those of the topology (R171, R176). -/
theorem State.launched_map_ends {f : Engine → Nat} {g : Nat → Nat} {net : Net}
    (hf : ∀ image i, f (Engine.load image i (outIndex net.topo net.images.length i)) = g i) :
    (s.launched net).engines.map f = (List.range (s.launched net).engines.length).map g := by
  rw [State.launched_engines_length]
  apply List.ext_getElem?
  intro k
  rw [List.getElem?_map, State.launched_engines_getElem?, List.getElem?_map]
  by_cases hk : k < net.images.length <;> simp [hk, hf]

theorem State.launched_inv (s : State) {net : Net} (hok : launchOk s.cfg net = true) : (s.launched net).Inv := by
  obtain ⟨hcfg, hsome, himages, -, hphases⟩ := launchOk_iff.mp hok
  obtain ⟨hwidth, -, -⟩ := configOk_iff.mp hcfg
  have hlen := State.launched_engines_length s net
  refine { config := hcfg, someEngine := hlen ▸ hsome, engines := ?_, channels := ?_, channelCount := ?_, inWired := ?_,
           outWired := ?_, haltedCount := ?_, phasesFit := hphases, resultFits := by simp,
           phaseInv := s.launched_phaseInv hok }
  · intro e he
    obtain ⟨i, hi⟩ := List.getElem?_of_mem he
    rw [State.launched_engines_getElem?, Option.map_eq_some_iff] at hi
    obtain ⟨image, himage, rfl⟩ := hi
    exact Engine.Inv.load hwidth (himages image (List.mem_of_getElem? himage))
  · intro c hc
    obtain rfl : c = Channel.fresh := List.eq_of_mem_replicate hc
    exact ⟨Nat.zero_le _, by simp [Channel.fresh]⟩
  · simp [buildEngines_length]
  · have hin := State.launched_map_ends (s := s) (net := net) (f := (·.inCh)) (g := id) fun _ _ => rfl
    rwa [List.map_id] at hin
  · have hout := State.launched_map_ends (s := s) (net := net) (f := (·.outCh))
      (g := outIndex net.topo net.images.length) fun _ _ => rfl
    simpa only [hlen, State.launched_topo] using hout
  · simp [buildEngines_length]

/-! ### The composer -/

/-- While it is at work the composer goes on to a phase in which it is at work, or to the extraction. -/
theorem State.Inv.goTo (h : s.Inv) (hrun : s.running = false) (hwork : ComposerAtWork s) {i : Nat} {p : Phase}
    (hp : (∃ j, p = .preload j ∧ s.hostStarted = false) ∨ p = .visit ∨ p = .threads ∨ p = .extract) : (s.goTo i p).Inv := by
  obtain ⟨hidle, hext, hdone, hfail⟩ : s.phase ≠ .idle ∧ s.phase ≠ .extract ∧ s.phase ≠ .done ∧ s.phase ≠ .failed := by
    obtain ⟨j, hph⟩ | hph | hph | hph := hwork <;> simp [hph]
  obtain ⟨hpidle, hpawait, hpdone, hpfail⟩ : p ≠ .idle ∧ p ≠ .await ∧ p ≠ .done ∧ p ≠ .failed := by
    obtain ⟨j, rfl, -⟩ | rfl | rfl | rfl := hp <;> simp
  have hph := h.phaseInv
  exact { h with
    phaseInv :=
      { hph with
        idleDriver := iff_of_false hpidle fun hd => hidle (hph.idleDriver.mpr hd)
        idleHalted := fun hi => absurd hi hpidle
        haltedEngine := fun _ _ _ => hph.haltedEngine hext hdone hfail
        phaseCount := fun _ => hph.phaseCount hidle
        runPhase := fun hr => absurd hr (by simp [hrun])
        runStarted := fun hr => absurd hr (by simp [hrun])
        preloadFirst := by
          rintro j rfl
          simpa using hp
        awaitEngine := fun ha => absurd ha hpawait
        resultDone := iff_of_false (mt hph.resultDone.mp hdone) hpdone
        faultFailed := iff_of_false (mt hph.faultFailed.mp hfail) hpfail } }

theorem State.Inv.failWith (h : s.Inv) (hrun : s.running = false)
    (hbusy : s.phase ≠ .idle ∧ s.phase ≠ .done ∧ s.phase ≠ .failed) (f : NetFault) : (s.failWith f).Inv := by
  obtain ⟨hidle, hdone, -⟩ := hbusy
  have hph := h.phaseInv
  exact { h with
    phaseInv :=
      { hph with
        idleDriver := iff_of_false (by simp) fun hd => hidle (hph.idleDriver.mpr hd)
        idleHalted := fun hi => absurd hi (by simp)
        haltedEngine := fun _ _ hfail => absurd rfl hfail
        phaseCount := fun _ => hph.phaseCount hidle
        runPhase := fun hr => absurd hr (by simp [hrun])
        runStarted := fun hr => absurd hr (by simp [hrun])
        preloadFirst := by simp
        awaitEngine := fun ha => absurd ha (by simp)
        resultDone := iff_of_false (mt hph.resultDone.mp hdone) (by simp)
        faultFailed := by simp } }

/-- Marks at engines that have halted. -/
theorem State.Inv.withHalted (h : s.Inv) (hph : s.phase ≠ .idle) {hs : List Bool} (hlen : hs.length = s.engines.length)
    (hhalted : ∀ i : Nat, hs[i]? = some true → ∃ e : Engine, s.engines[i]? = some e ∧ e.status = .halted) :
    ({ s with halted := hs } : State).Inv :=
  { h with
    haltedCount := hlen
    phaseInv := { h.phaseInv with idleHalted := fun hi => absurd hi hph, haltedEngine := fun _ _ _ => hhalted } }

theorem phaseAfterPreload_eq {d : Driver} (hd : d ≠ .external) :
    phaseAfterPreload d = if d = .cooperative then .visit else .threads := by
  cases d <;> simp_all [phaseAfterPreload]

theorem State.Inv.lt_of_mark (h : s.Inv) {b : Bool} {i : Nat} (hb : s.halted[i]? = some b) : i < s.engines.length :=
  h.haltedCount ▸ (List.getElem?_eq_some_iff.mp hb).1

/-- The run of an engine that is not marked begins, and its report is awaited. -/
theorem State.Inv.run (h : s.Inv) (hvisit : s.phase = .visit) (hmark : s.halted[s.cur]? = some false) :
    ({ s with running := true, phase := .await } : State).Inv := by
  have hph := h.phaseInv
  have hcur := h.lt_of_mark hmark
  exact { h with
    phaseInv :=
      { hph with
        idleDriver := iff_of_false (by simp) fun hd => by simp [hph.idleDriver.mpr hd] at hvisit
        idleHalted := fun hi => absurd hi (by simp)
        haltedEngine := fun _ _ _ => hph.haltedEngine (by simp [hvisit]) (by simp [hvisit]) (by simp [hvisit])
        phaseCount := fun _ => hph.phaseCount (by simp [hvisit])
        runPhase := fun _ => ⟨.inl rfl, hcur⟩
        runStarted := fun _ => .inl rfl
        preloadFirst := by simp
        awaitEngine := fun _ => ⟨_, List.getElem?_eq_getElem hcur, .inl rfl⟩
        resultDone := iff_of_false (mt hph.resultDone.mp (by simp [hvisit])) (by simp)
        faultFailed := iff_of_false (mt hph.faultFailed.mp (by simp [hvisit])) (by simp) } }

/-- The result is a value that was in the terminal channel. -/
theorem State.Inv.extract (h : s.Inv) (hrun : s.running = false) (hext : s.phase = .extract) (hc : s.channel? c = some ch)
    {v : Int} (hv : v ∈ ch.drain.1) :
    ({ s.setChannel c ch.drain.2 with result := some v, phase := .done } : State).Inv := by
  have hold := h.channel hc
  obtain ⟨hdrained, hmem⟩ := hold.popUpTo ch.q.length ch
  have hset := h.setChannel (c := c) hdrained
  have hph := h.phaseInv
  exact { hset with
    resultFits := fun w hw => Option.some.inj hw ▸ hold.items v (hmem v hv)
    phaseInv :=
      { hset.phaseInv with
        idleDriver := iff_of_false (by simp) fun hd => by simp [hph.idleDriver.mpr hd] at hext
        idleHalted := fun hi => absurd hi (by simp)
        haltedEngine := fun _ hdone _ => absurd rfl hdone
        phaseCount := fun _ => hph.phaseCount (by simp [hext])
        runPhase := fun hr => absurd hr (by simp [hrun])
        runStarted := fun hr => absurd hr (by simp [hrun])
        preloadFirst := by simp
        awaitEngine := fun ha => absurd ha (by simp)
        resultDone := by simp
        faultFailed := iff_of_false (mt hph.faultFailed.mp (by simp [hext])) (by simp) } }

/-- An action of the composer keeps the invariant. -/
theorem ComposerMove.inv {s s' : State} (h : ComposerMove s s') (hinv : s.Inv) (hrun : s.running = false) : s'.Inv := by
  have hph := hinv.phaseInv
  cases h with
  | @push i c v ch p hpre hv hp hc hroom =>
    have hold := hinv.channel hc
    have hfit : fits s.cfg.width v = true := by
      obtain hv | rfl := hv
      · exact hinv.phasesFit v hv
      · obtain ⟨-, -, hseed⟩ := configOk_iff.mp hinv.config
        exact hseed
    have hch : Channel.Inv s.cfg { ch with q := ch.q ++ [v] } := by
      refine ⟨by simpa using hroom, fun w hw => ?_⟩
      obtain hw | rfl : w ∈ ch.q ∨ w = v := by simpa using hw
      · exact hold.items w hw
      · exact hfit
    refine (hinv.setChannel hch).goTo hrun (.inl ⟨i, hpre⟩) ?_
    obtain rfl | rfl := hp
    · exact .inl ⟨i + 1, rfl, hph.preloadFirst i hpre⟩
    · have hd : s.driver ≠ .external := fun hd => by simp [hph.idleDriver.mpr hd] at hpre
      rw [phaseAfterPreload_eq hd]
      split <;> simp
  | fail hbusy => exact hinv.failWith hrun hbusy _
  | go hfrom hto => exact hinv.goTo hrun (.inr hfrom) (.inr (hto.imp_right .inr))
  | run hvisit hmark => exact hinv.run hvisit hmark
  | mark hawait he hst =>
    have hmarked : ({ s with halted := s.halted.set s.cur true } : State).Inv := by
      refine hinv.withHalted (by simp [hawait]) (by simpa using hinv.haltedCount) fun i hi => ?_
      by_cases hcur : s.cur = i
      · subst hcur
        exact ⟨_, he, hst⟩
      · rw [List.getElem?_set_ne hcur] at hi
        exact hph.haltedEngine (by simp [hawait]) (by simp [hawait]) (by simp [hawait]) i hi
    exact hmarked.goTo hrun (.inr (.inr (.inl hawait))) (.inr (.inl rfl))
  | markAll hthreads hall =>
    have hmarked : ({ s with halted := s.engines.map fun _ => true } : State).Inv := by
      refine hinv.withHalted (by simp [hthreads]) (by simp) fun i hi => ?_
      rw [List.getElem?_map, Option.map_eq_some_iff] at hi
      obtain ⟨e, he, -⟩ := hi
      exact ⟨e, he, hall e (List.mem_of_getElem? he)⟩
    exact hmarked.goTo hrun (.inr (.inr (.inr hthreads))) (.inr (.inr (.inr rfl)))
  | extract hext hc hv => exact hinv.extract hrun hext hc hv
  | rest => exact hinv

end

/-- An operation of the external driver keeps the invariant. -/
theorem HostMove.inv {s s' : State} {op : HostOp} (h : HostMove s op s') (hinv : s.Inv) (hrun : s.running = false) :
    s'.Inv := by
  cases h with
  | launch hok => exact State.launched_inv _ hok
  | load hph he hok => exact (hinv.load hrun hph he hok).answer _
  | run hph he => exact hinv.invoke hph (List.getElem?_eq_some_iff.mp he).1 true
  | @attempt i _ e hph he hp hat =>
    have hinvoked : (s.invoke i).Inv := by
      have h := hinv.invoke hph (List.getElem?_eq_some_iff.mp he).1 false
      rwa [← hrun] at h
    exact hinvoked.attempt hat he hp fun ha => by simp [show s.phase = .await from ha, Phase.allowsRun] at hph
  | @ended i e hph he =>
    have h := hinv.invoke hph (List.getElem?_eq_some_iff.mp he).1 false
    rwa [← hrun] at h
  | push _ hc hv => exact (hinv.setChannel ((hinv.channel hc).trySend hv)).answer _
  | pop _ _ hc => exact (hinv.setChannel (hinv.channel hc).tryRecv).answer _
  | @drain c ch _ _ hc => exact (hinv.setChannel ((hinv.channel hc).popUpTo _ ch).1).answer _
  | @close c e ch hc =>
    have hold := hinv.channel hc
    have hclosed : (ch.close e).Inv s.cfg := by cases e <;> exact ⟨hold.bounded, hold.items⟩
    exact (hinv.setChannel hclosed).answer _
  | yield hcomp => exact (composerStep_cases hcomp).inv hinv hrun

/-- Settles O46: attempts, the end of a run, the operations of the external driver and the actions of the composer each keep the
invariant. -/
theorem stepKeepsInvariant : Obligations.StepKeepsInvariant := by
  intro s s' hinv hstep
  cases step_cases hstep with
  | @attempt s1 e hrun he hp hat =>
    have hnext := hinv.attempt hat he hp fun _ => hrun
    obtain ⟨_, e', _, -, -, he', -⟩ := attempt_frame hat
    exact hnext.afterAttempt he'
  | ended _ he hp => exact hinv.endRun he fun hst => by simp [hst, Status.permitsStep] at hp
  | host hrun _ hmove => exact hmove.inv (hinv.withHostOps _) hrun
  | composer hrun _ hmove => exact hmove.inv hinv hrun

end Sys2Proof.Machine
end

section
/-! SUPPORT. From the invariant the machine steps on, but for the operations of the external driver that are not allowed; and the
state after reset (spec/10_state.md, 9; spec/45_run_loop.md R150 to R153). -/

namespace Sys2Proof.Machine

open Sys2Proof.Claims

/-- Settles O48: `State.reset` is written out with these values. -/
theorem resetValues : Obligations.ResetValues :=
  ⟨⟨_, rfl, rfl, rfl, rfl, rfl, rfl, rfl⟩, rfl, rfl, rfl, rfl, rfl, rfl⟩

/-- Settles O45: the state after reset is a network at creation that has been told nothing. -/
theorem resetMeetsInvariant : Obligations.ResetMeetsInvariant := by
  obtain ⟨-, -, -, -, -, -, hreset⟩ := resetValues
  have h : (State.reset.launched { topo := .chain, driver := .external, images := [[]], phases := [] }).Inv :=
    State.launched_inv _ (by decide)
  unfold Obligations.ResetMeetsInvariant
  rw [← hreset]
  exact { h with phaseInv := { h.phaseInv with } }

section
variable {s : State} {e : Engine} {i : Nat}

/-! ### Attempts and the composer -/

/-- An attempt of an engine of the network answers a next state: its endpoints are attached. -/
theorem State.Inv.attempt_next (h : s.Inv) (he : s.engine? = some e) (hp : e.status.permitsStep = true) :
    ∃ s', Machine.attempt s = .next s' := by
  rw [attempt_eq he]
  cases fetchDecode s.cfg e with
  | error t => exact ⟨_, rfl⟩
  | ok i =>
    obtain ⟨hin, hout⟩ := h.attached he
    exact exec_next i he hp hin hout

theorem preloadPush_next {c : Nat} (hc : ∃ ch, s.channel? c = some ch) (v : Int) (p : Phase) :
    ∃ s', preloadPush s c v p = .next s' := by
  obtain ⟨ch, hc⟩ := hc
  simp only [preloadPush, hc]
  obtain ⟨_ | _ | _, ch'⟩ := ch.trySend s.cfg.cap v <;> exact ⟨_, rfl⟩

theorem State.Inv.preloadStep_next (h : s.Inv) (i : Nat) : ∃ s', preloadStep s i = .next s' := by
  unfold preloadStep
  split
  · rename_i e v he _
    exact preloadPush_next (h.attached he).1 v _
  · obtain ⟨e, h0⟩ : ∃ e, s.engines[0]? = some e := ⟨_, List.getElem?_eq_getElem h.someEngine⟩
    simp only [h0]
    exact preloadPush_next (h.attached h0).1 _ _

/-- A report that the composer awaits is there once the run has returned (R153). -/
theorem awaitStep_next (hst : e.status ≠ .ready) : ∃ s', awaitStep s e = .next s' := by
  unfold awaitStep
  split
  · exact ⟨_, rfl⟩
  · split <;> exact ⟨_, rfl⟩
  · split <;> exact ⟨_, rfl⟩
  · exact ⟨_, rfl⟩
  · exact absurd ‹_› hst

/-- The terminal channel of a network is one of its channels. -/
theorem State.Inv.terminal (h : s.Inv) : ∃ ch, s.channel? (terminalIndex s.topo s.engines.length) = some ch := by
  have hlt : terminalIndex s.topo s.engines.length < s.channels.length := by
    have hsome := h.someEngine
    rw [h.channelCount]
    cases s.topo <;> simp only [terminalIndex, Machine.channelCount] <;> omega
  exact ⟨_, List.getElem?_eq_getElem hlt⟩

theorem extractStep_next (hc : ∃ ch, s.channel? (terminalIndex s.topo s.engines.length) = some ch) :
    ∃ s', extractStep s = .next s' := by
  obtain ⟨ch, hc⟩ := hc
  simp only [extractStep, hc]
  split <;> exact ⟨_, rfl⟩

theorem State.Inv.composerStep_next (h : s.Inv) (hrun : s.running = false) : ∃ s', composerStep s = .next s' := by
  unfold composerStep
  split
  · exact h.preloadStep_next _
  · exact ⟨_, rfl⟩
  · rename_i hph
    obtain ⟨e, he, hreport⟩ := h.phaseInv.awaitEngine hph
    simp only [he]
    exact awaitStep_next (hreport.resolve_left (by simp [hrun]))
  · exact ⟨_, rfl⟩
  · exact extractStep_next h.terminal
  · exact ⟨_, rfl⟩
  · exact ⟨_, rfl⟩
  · exact ⟨_, rfl⟩

/-! ### The external driver -/

theorem loopOver_iff_LoopOver : s.phase.loopOver = true ↔ LoopOver s := loopOver_iff

theorem State.hostMayPush_iff {c : Nat} :
    s.hostMayPush c = true ↔ (LoopOver s ∧ ∀ e ∈ s.engines, e.outCh ≠ c) ∨
      (s.phase = .idle ∧ s.hostStarted = false ∧ ∃ e ∈ s.engines, e.inCh = c) := by
  rw [State.hostMayPush, Bool.or_eq_true, Bool.and_eq_true, State.hostPreloads_iff, State.hostProduces_iff,
    loopOver_iff_LoopOver]

theorem State.hostConsumes_iff_HostConsumes {c : Nat} :
    (s.phase.loopOver && s.hostConsumes c) = true ↔ HostConsumes s c := by
  rw [Bool.and_eq_true, State.hostConsumes_iff, loopOver_iff_LoopOver, HostConsumes, and_assoc]

theorem allowsRun_iff_LoopOver : s.phase.allowsRun = true ↔ LoopOver s ∨ s.phase = .threads := by
  rw [allowsRun_iff, loopOver_iff_LoopOver]

/-! What each operation does where it is allowed. -/

section
variable {c : Nat} {ch : Channel} {v : Int} {image : List Int}

theorem loadOp_eq (hover : LoopOver s) (he : s.engines[i]? = some e) (hok : imageOk s.cfg image = true) :
    loadOp s i image =
      .next (({ s with engines := s.engines.set i (Engine.load image e.inCh e.outCh) } : State).answer .done) := by
  simp only [loadOp, loopOver_iff_LoopOver.mpr hover, he, hok, if_true]

theorem runOp_eq (hph : LoopOver s ∨ s.phase = .threads) (he : s.engines[i]? = some e) :
    runOp s i = .next { s.invoke i with running := true } := by
  simp only [runOp, allowsRun_iff_LoopOver.mpr hph, he, if_true]

theorem attemptOp_eq (hph : LoopOver s ∨ s.phase = .threads) (he : s.engines[i]? = some e) :
    attemptOp s i = if e.status.permitsStep then attempt (s.invoke i) else .next (s.invoke i) := by
  simp only [attemptOp, allowsRun_iff_LoopOver.mpr hph, he, if_true]

theorem pushOp_eq (hown : s.hostMayPush c = true) (hc : s.channels[c]? = some ch) (hv : fits s.cfg.width v = true) :
    pushOp s c v =
      .next ((s.setChannel c (ch.trySend s.cfg.cap v).2).answer (.sent (ch.trySend s.cfg.cap v).1)) := by
  simp only [pushOp, State.channel?, hc, hown, hv, if_true]

theorem popOp_eq (hown : HostConsumes s c) (hc : s.channels[c]? = some ch) :
    popOp s c = .next ((s.setChannel c ch.tryRecv.2).answer (.received ch.tryRecv.1)) := by
  simp only [popOp, State.channel?, hc, State.hostConsumes_iff_HostConsumes.mpr hown, if_true]

theorem drainOp_eq (hown : HostConsumes s c) (hc : s.channels[c]? = some ch) :
    drainOp s c = .next ((s.setChannel c ch.drain.2).answer (.drained ch.drain.1)) := by
  simp only [drainOp, State.channel?, hc, State.hostConsumes_iff_HostConsumes.mpr hown, if_true]

theorem closeOp_eq (hc : s.channels[c]? = some ch) (x : ChannelEnd) :
    closeOp s c x = .next ((s.setChannel c (ch.close x)).answer .done) := by
  simp only [closeOp, State.channel?, hc]

end

/-- An engine that the external driver invokes where it may attempts, or has ended. -/
theorem State.Inv.attemptOp_next (h : s.Inv) (hph : LoopOver s ∨ s.phase = .threads) (he : s.engines[i]? = some e) :
    ∃ s', attemptOp s i = .next s' := by
  rw [attemptOp_eq hph he]
  split
  · have hinvoked := h.invoke (allowsRun_iff_LoopOver.mpr hph) (List.getElem?_eq_some_iff.mp he).1 s.running
    exact hinvoked.attempt_next he ‹_›
  · exact ⟨_, rfl⟩

/-- Where an operation of the external driver is allowed it answers a next state. -/
theorem State.Inv.hostStep_next (h : s.Inv) (hrun : s.running = false) {op : HostOp} (hok : Allowed s op) :
    ∃ s', hostStep op s = .next s' := by
  cases op with
  | launch net => exact ⟨_, if_pos hok⟩
  | load i image =>
    obtain ⟨hover, hi, himage⟩ := hok
    exact ⟨_, loadOp_eq hover (List.getElem?_eq_getElem hi) himage⟩
  | run i =>
    obtain ⟨hph, hi⟩ := hok
    exact ⟨_, runOp_eq hph (List.getElem?_eq_getElem hi)⟩
  | attempt i =>
    obtain ⟨hph, hi⟩ := hok
    exact h.attemptOp_next hph (List.getElem?_eq_getElem hi)
  | push c v =>
    obtain ⟨hc, hv, hown⟩ := hok
    exact ⟨_, pushOp_eq (State.hostMayPush_iff.mpr hown) (List.getElem?_eq_getElem hc) hv⟩
  | pop c =>
    obtain ⟨hc, hown⟩ := hok
    exact ⟨_, popOp_eq hown (List.getElem?_eq_getElem hc)⟩
  | drain c =>
    obtain ⟨hc, hown⟩ := hok
    exact ⟨_, drainOp_eq hown (List.getElem?_eq_getElem hc)⟩
  | close c x => exact ⟨_, closeOp_eq (List.getElem?_eq_getElem hok) x⟩
  | yield => exact h.composerStep_next hrun

/-- What an operation did, it was allowed to do. -/
theorem HostMove.allowed {s' : State} {op : HostOp} (h : HostMove s op s') : Allowed s op := by
  have hlt {α : Type} {l : List α} {k : Nat} {a : α} (ha : l[k]? = some a) : k < l.length :=
    (List.getElem?_eq_some_iff.mp ha).1
  cases h with
  | launch hok => exact hok
  | load hph he hok => exact ⟨loopOver_iff_LoopOver.mp hph, hlt he, hok⟩
  | run hph he => exact ⟨allowsRun_iff_LoopOver.mp hph, hlt he⟩
  | attempt hph he => exact ⟨allowsRun_iff_LoopOver.mp hph, hlt he⟩
  | ended hph he => exact ⟨allowsRun_iff_LoopOver.mp hph, hlt he⟩
  | push hown hc hv => exact ⟨hlt hc, hv, State.hostMayPush_iff.mp hown⟩
  | pop hph hown hc => exact ⟨hlt hc, State.hostConsumes_iff_HostConsumes.mp (by simp [hph, hown])⟩
  | drain hph hown hc => exact ⟨hlt hc, State.hostConsumes_iff_HostConsumes.mp (by simp [hph, hown])⟩
  | close hc => exact hlt hc
  | yield => trivial

/-- An operation of the external driver does not stop the machine with a fault: it executes nothing on an engine that has
ended. -/
theorem State.Inv.hostStep_ne_fault (h : s.Inv) (hrun : s.running = false) (op : HostOp) (r : Fault) :
    hostStep op s ≠ .fault r := by
  cases op with
  | attempt i =>
    by_cases hph : s.phase.allowsRun = true
    · cases he : s.engines[i]? with
      | none => simp [hostStep, attemptOp, hph, he]
      | some e =>
        obtain ⟨s', hs'⟩ := h.attemptOp_next (allowsRun_iff_LoopOver.mp hph) he
        simp [hostStep, hs']
    · simp [hostStep, attemptOp, hph]
  | yield =>
    obtain ⟨s', hs'⟩ := h.composerStep_next hrun
    simp [hostStep, hs']
  | _ =>
    simp only [hostStep, launchOp, loadOp, runOp, pushOp, popOp, drainOp, closeOp]
    repeat' split
    all_goals simp

theorem State.Inv.hostStep_refused (h : s.Inv) (hrun : s.running = false) {op : HostOp} (hno : ¬Allowed s op) :
    ∃ r, hostStep op s = .refused r := by
  cases hs : hostStep op s with
  | next s' => exact absurd (hostStep_cases hs).allowed hno
  | fault r => exact absurd hs (h.hostStep_ne_fault hrun op r)
  | refused r => exact ⟨r, rfl⟩

/-! ### The step -/

theorem State.Inv.runStep_next (h : s.Inv) (hrun : s.running = true) : ∃ s', runStep s = .next s' := by
  have hcur := (h.phaseInv.runPhase hrun).2
  have he : s.engine? = some s.engines[s.cur] := List.getElem?_eq_getElem hcur
  simp only [runStep, he]
  split
  · obtain ⟨s', hs'⟩ := h.attempt_next he ‹_›
    exact ⟨s'.afterAttempt, by rw [hs', mapNext_next]⟩
  · exact ⟨_, rfl⟩

theorem step_of_hostOp {op : HostOp} {rest : List HostOp} (hrun : s.running = false) (hops : s.hostOps = op :: rest) :
    step s = hostStep op { s with hostOps := rest } := by
  simp [step, hrun, hops]

theorem step_of_composer (hrun : s.running = false) (hops : s.hostOps = []) : step s = composerStep s := by
  simp [step, hrun, hops]

/-- Taking an operation off the list does not change which are allowed. -/
theorem allowed_withHostOps (ops : List HostOp) (op : HostOp) : Allowed { s with hostOps := ops } op ↔ Allowed s op := by
  cases op <;> exact Iff.rfl

end

/-- Settles O47: a run has an engine to attempt, the composer has what its phase asks for, and an operation of the external driver
answers by whether it is allowed. -/
theorem invariantStatesStepOn : Obligations.InvariantStatesStepOn := by
  intro s hinv
  refine ⟨fun hno => ?_, fun ⟨hrun, op, hhead, hno⟩ => ?_⟩
  · by_cases hrun : s.running = true
    · obtain ⟨s', hs'⟩ := hinv.runStep_next hrun
      exact ⟨s', by simp [step, hrun, hs']⟩
    · rw [Bool.not_eq_true] at hrun
      cases hops : s.hostOps with
      | nil => rw [step_of_composer hrun hops]; exact hinv.composerStep_next hrun
      | cons op rest =>
        have hok : Allowed s op := by
          by_contra hbad
          exact hno ⟨hrun, op, by simp [hops], hbad⟩
        rw [step_of_hostOp hrun hops]
        exact (hinv.withHostOps rest).hostStep_next hrun ((allowed_withHostOps rest op).mpr hok)
  · obtain ⟨rest, hops⟩ : ∃ rest, s.hostOps = op :: rest := List.head?_eq_some_iff.mp hhead
    rw [step_of_hostOp hrun hops]
    exact (hinv.withHostOps rest).hostStep_refused hrun ((allowed_withHostOps rest op).not.mpr hno)

end Sys2Proof.Machine
end

section
/-! SUPPORT. The operations of the external driver, allowed and refused (spec/20_memory.md R70 to R73; spec/46_network.md R188;
spec/70_reset_and_hazards.md R230, R231). -/

namespace Sys2Proof.Machine

open Sys2Proof.Claims

/-- Settles O49: the engine is loaded in place. -/
theorem loadResetsOneEngine : Obligations.LoadResetsOneEngine := by
  intro s i image e rest hrun hops hover he hok
  refine ⟨Engine.load image e.inCh e.outCh, ?_, rfl, rfl, rfl, rfl, rfl, rfl, Memory.wf_ofImage image, rfl,
    Memory.read?_ofImage image⟩
  rw [step_of_hostOp hrun hops]
  exact loadOp_eq (s := { s with hostOps := rest }) hover he hok

/-- A drain takes nothing from a channel whose consumer end is closed (R71). -/
theorem Channel.drain_closed (c : Channel) (h : c.rclosed = true) : c.drain = ([], c) := by
  unfold Channel.drain
  cases c.q.length with
  | zero => rfl
  | succ n => simp only [Channel.popUpTo, tryRecv_closed (.inl h)]

section
variable {s : State} {c : Nat} {ch : Channel}

/-- Putting back the channel that is there changes nothing. -/
theorem State.setChannel_self (hc : s.channels[c]? = some ch) : s.setChannel c ch = s := by
  obtain ⟨hlt, rfl⟩ := List.getElem?_eq_some_iff.mp hc
  simp [State.setChannel]

/-- An engine of a new network, and the image it was loaded with. -/
theorem State.launched_engine (s : State) {net : Net} {i : Nat} {image : List Int} (h : net.images[i]? = some image) :
    (s.launched net).engines[i]? = some (Engine.load image i (outIndex net.topo net.images.length i)) := by
  rw [State.launched_engines_getElem?, h, Option.map_some]

end

/-- Settles O60: each operation where it is allowed, by its equation; a push, a pop and a drain then by the outcome of the send or
the receive. -/
theorem allowedHostActsTakeEffect : Obligations.AllowedHostActsTakeEffect := by
  intro s op rest hrun hops hok
  rw [step_of_hostOp hrun hops]
  refine ⟨?_, ?_, ?_, ?_, ?_, ?_, ?_, ?_⟩
  · rintro net rfl
    refine ⟨State.launched { s with hostOps := rest } net, if_pos hok, rfl, rfl, rfl, rfl, rfl, rfl, rfl, rfl, rfl, rfl, rfl,
      rfl, fun h hh => List.eq_of_mem_replicate hh, List.length_replicate, State.launched_engines_length _ net,
      fun c hc => List.eq_of_mem_replicate hc, fun i image himage => ?_⟩
    exact ⟨_, State.launched_engine _ himage, rfl, rfl, rfl, rfl, rfl, Memory.read?_ofImage image⟩
  · rintro i rfl
    obtain ⟨hph, hi⟩ := hok
    exact runOp_eq (s := { s with hostOps := rest }) hph (List.getElem?_eq_getElem hi)
  · rintro i e rfl he
    obtain ⟨hph, -⟩ := hok
    have hop := attemptOp_eq (s := { s with hostOps := rest }) hph he
    exact ⟨fun hst => hop.trans (if_pos (permitsStep_iff.mpr hst)),
      fun hst => hop.trans (if_neg (by simp [permitsStep_eq_false_iff.mpr hst]))⟩
  · rintro c v ch rfl hc
    obtain ⟨-, hv, hown⟩ := hok
    have hop := pushOp_eq (s := { s with hostOps := rest }) (State.hostMayPush_iff.mpr hown) hc hv
    refine ⟨fun hw hr hroom => hop.trans ?_, fun hw hr hfull => hop.trans ?_, fun hclosed => hop.trans ?_⟩
    · simp only [trySend_ok v hw hr hroom]; rfl
    · simp only [trySend_full v hw hr hfull, State.setChannel_self (s := { s with hostOps := rest }) hc]; rfl
    · simp only [trySend_closed _ v hclosed, State.setChannel_self (s := { s with hostOps := rest }) hc]; rfl
  · rintro c ch rfl hc
    obtain ⟨-, hown⟩ := hok
    have hop := popOp_eq (s := { s with hostOps := rest }) hown hc
    refine ⟨fun v q hr hq => hop.trans ?_, fun hr hq hw => hop.trans ?_, fun hclosed => hop.trans ?_⟩
    · simp only [tryRecv_value hr hq]; rfl
    · simp only [tryRecv_empty hr hq hw, State.setChannel_self (s := { s with hostOps := rest }) hc]; rfl
    · simp only [tryRecv_closed hclosed, State.setChannel_self (s := { s with hostOps := rest }) hc]; rfl
  · rintro c ch rfl hc
    obtain ⟨-, hown⟩ := hok
    have hop := drainOp_eq (s := { s with hostOps := rest }) hown hc
    refine ⟨fun hr => hop.trans ?_, fun hr => hop.trans ?_⟩
    · rw [Channel.drain_open ch hr]; rfl
    · rw [Channel.drain_closed ch hr, State.setChannel_self (s := { s with hostOps := rest }) hc]; rfl
  · intro c ch hc
    have hop := closeOp_eq (s := { s with hostOps := rest }) hc
    exact ⟨fun h => h ▸ hop .producer, fun h => h ▸ hop .consumer⟩
  · rintro rfl
    rfl

/-! ### What is refused -/

section
variable {s s' : State} {op : HostOp} {rest : List HostOp}

/-- An operation that has a next state was allowed. -/
theorem allowed_of_step (hrun : s.running = false) (hops : s.hostOps = op :: rest) (h : step s = .next s') :
    Allowed s op := by
  rw [step_of_hostOp hrun hops] at h
  exact (allowed_withHostOps rest op).mp (hostStep_cases h).allowed

theorem not_loopOver_of_atWork (h : ComposerAtWork s) : ¬LoopOver s := by
  obtain ⟨i, hph⟩ | hph | hph | hph := h <;> simp [LoopOver, hph]

end

/-- Settles O57: what the external driver does must be allowed, which most of it is not while a composer is at work; and no
action of the composer writes an engine. -/
theorem onlyTheComposerDrivesANetwork : Obligations.OnlyTheComposerDrivesANetwork := by
  refine ⟨fun s op rest hrun hops hwork => ?_, fun s s' hcomp => ?_⟩
  · have hover := not_loopOver_of_atWork hwork
    have hidle : s.phase ≠ .idle := fun hph => hover (.inl hph)
    have hstep := step_of_hostOp hrun hops
    refine ⟨?_, ?_, ?_, ?_, ?_, ?_, ?_, ?_⟩
    · rintro c v rfl s' hs'
      obtain ⟨-, -, ⟨h, -⟩ | ⟨h, -⟩⟩ := allowed_of_step hrun hops hs'
      · exact hover h
      · exact hidle h
    · rintro c rfl s' hs'
      obtain ⟨-, h, -⟩ := allowed_of_step hrun hops hs'
      exact hover h
    · rintro c rfl s' hs'
      obtain ⟨-, h, -⟩ := allowed_of_step hrun hops hs'
      exact hover h
    · rintro i image rfl s' hs'
      obtain ⟨h, -⟩ := allowed_of_step hrun hops hs'
      exact hover h
    · rintro i (rfl | rfl) hthreads s' hs' <;> obtain ⟨h | h, -⟩ := allowed_of_step hrun hops hs'
      · exact hover h
      · exact hthreads h
      · exact hover h
      · exact hthreads h
    · rintro net rfl hok
      exact hstep.trans (if_pos hok)
    · rintro c ch rfl hc
      exact hstep.trans (closeOp_eq (s := { s with hostOps := rest }) hc .producer)
    · rintro c ch rfl hc
      exact hstep.trans (closeOp_eq (s := { s with hostOps := rest }) hc .consumer)
  · have hmove := composerStep_cases hcomp
    refine ⟨hmove.engines, fun hph => ?_⟩
    cases hmove with
    | push hpre => simp [hpre] at hph
    | extract hext => simp [hext] at hph
    | _ => rfl

section
variable {s : State} {c : Nat} {ch : Channel} {e : Engine}

/-- A live engine that consumes from a channel bars the host from it (R71). -/
theorem not_hostConsumes_of_engine (he : e ∈ s.engines) (hin : e.inCh = c) (hst : e.status ≠ .halted) :
    s.hostConsumes c = false := by
  rw [Bool.eq_false_iff, ne_eq, State.hostConsumes_iff]
  rintro (hfree | ⟨-, hall⟩)
  · exact hfree e he hin
  · exact hst (hall e he)

end

/-- Settles O58: at an end that an engine holds the test of the operation fails. -/
theorem hostUsesOnlyItsOwnEnds : Obligations.HostUsesOnlyItsOwnEnds := by
  intro s c ch e rest hrun hc he
  refine ⟨fun v hops hout hpre => ?_, fun hops hin hst => ?_, fun hops hin hst => ?_⟩
  all_goals rw [step_of_hostOp hrun hops]
  · have hmay : State.hostMayPush { s with hostOps := rest } c = false := by
      rw [Bool.eq_false_iff, ne_eq, State.hostMayPush_iff]
      rintro (⟨-, hfree⟩ | ⟨hidle, hfirst, f, hf, hin⟩)
      · exact hfree e he hout
      · obtain hstarted | hnone := hpre hidle
        · exact absurd hfirst (by simp [hstarted])
        · exact hnone f hf hin
    simp [hostStep, pushOp, State.channel?, hc, hmay]
  · have hconsumes := not_hostConsumes_of_engine (s := { s with hostOps := rest }) he hin hst
    simp [hostStep, popOp, State.channel?, hc, hconsumes]
  · have hconsumes := not_hostConsumes_of_engine (s := { s with hostOps := rest }) he hin hst
    simp [hostStep, drainOp, State.channel?, hc, hconsumes]

end Sys2Proof.Machine
end

section
/-! SUPPORT. The actions of the composer, point by point of its procedure (spec/46_network.md R173 to R183). -/

namespace Sys2Proof.Machine

open Sys2Proof.Claims

section
variable {s : State} {e : Engine}

theorem step_of_composerActs (h : ComposerActs s) : step s = composerStep s := step_of_composer h.notRunning h.noHostOp

/-! ### Visits -/

theorem composerStep_visit (hph : s.phase = .visit) : composerStep s = .next (visitStep s) := by
  simp only [composerStep, hph]

theorem State.goTo_same_phase {p : Phase} (hph : s.phase = p) (i : Nat) : s.goTo i p = { s with cur := i } := by
  subst hph
  rfl

/-- An engine that is not marked as halted is run (R173, R178). -/
theorem visitStep_of_unmarked (h : s.halted[s.cur]? = some false) :
    visitStep s = { s with running := true, phase := .await } := by
  simp only [visitStep, h]

/-- An engine that is marked as halted is skipped (R182). -/
theorem visitStep_of_marked (hph : s.phase = .visit) (h : s.halted[s.cur]? = some true) :
    visitStep s = { s with cur := s.cur + 1 } := by
  simp only [visitStep, h, State.goTo_same_phase hph]

/-- Past the last engine the pass is over. -/
theorem visitStep_of_end (h : s.cur = s.halted.length) : visitStep s = endOfPass s := by
  have hnone : s.halted[s.cur]? = none := List.getElem?_eq_none h.ge
  simp only [visitStep, hnone]

theorem endOfPass_chain (htopo : s.topo = .chain) : endOfPass s = s.goTo s.cur .extract := by
  simp only [endOfPass, htopo]

theorem endOfPass_ring_halted (htopo : s.topo = .ring) (h : ∀ b ∈ s.halted, b = true) :
    endOfPass s = s.goTo s.cur .extract := by
  have hall : s.halted.all id = true := List.all_eq_true.mpr h
  simp only [endOfPass, htopo, hall, if_true]

theorem endOfPass_ring_again (htopo : s.topo = .ring) (hph : s.phase = .visit) (h : ∃ b ∈ s.halted, b = false) :
    endOfPass s = { s with cur := 0 } := by
  obtain ⟨b, hb, rfl⟩ := h
  have hall : s.halted.all id = false := List.all_eq_false.mpr ⟨false, hb, by simp⟩
  simp only [endOfPass, htopo, hall, Bool.false_eq_true, if_false, State.goTo_same_phase hph]

/-! ### Reports -/

theorem composerStep_await (hph : s.phase = .await) (he : s.engine? = some e) : composerStep s = awaitStep s e := by
  simp only [composerStep, hph, he]

theorem awaitStep_of_halted (hst : e.status = .halted) :
    awaitStep s e = .next (({ s with halted := s.halted.set s.cur true } : State).goTo (s.cur + 1) .visit) := by
  simp only [awaitStep, hst]

theorem awaitStep_of_faulted (hst : e.status = .faulted) :
    awaitStep s e = .next (s.failWith (.engineFault s.cur e.fr)) := by
  simp only [awaitStep, hst]

theorem awaitStep_of_blocked_chain (htopo : s.topo = .chain) (hst : e.status = .blockedIn ∨ e.status = .blockedOut) :
    awaitStep s e = .next (s.failWith (.chainWouldBlock s.cur e.status)) := by
  obtain hst | hst := hst <;> simp only [awaitStep, hst, htopo]

theorem awaitStep_of_blocked_ring (htopo : s.topo = .ring) (hst : e.status = .blockedIn ∨ e.status = .blockedOut) :
    awaitStep s e = .next (s.goTo (s.cur + 1) .visit) := by
  obtain hst | hst := hst <;> simp only [awaitStep, hst, htopo]

end

/-- Settles O53: each point of the chain's procedure by its equation. -/
theorem chainComposerRule : Obligations.ChainComposerRule := by
  intro s hacts htopo
  rw [step_of_composerActs hacts]
  refine ⟨fun hph hmark => ?_, fun hph hend => ?_, fun e hph he => ?_⟩
  · rw [composerStep_visit hph, visitStep_of_unmarked hmark]
  · rw [composerStep_visit hph, visitStep_of_end hend, endOfPass_chain htopo]
    rfl
  · rw [composerStep_await hph he]
    exact ⟨awaitStep_of_halted, awaitStep_of_blocked_chain htopo, awaitStep_of_faulted⟩

/-- Settles O54: each point of the ring's procedure by its equation. -/
theorem ringComposerRule : Obligations.RingComposerRule := by
  intro s hacts htopo
  rw [step_of_composerActs hacts]
  refine ⟨fun hph hmark => ?_, fun hph hmark => ?_, fun hph hend => ?_, fun e hph he => ?_⟩
  · rw [composerStep_visit hph, visitStep_of_marked hph hmark]
  · rw [composerStep_visit hph, visitStep_of_unmarked hmark]
  · rw [composerStep_visit hph, visitStep_of_end hend]
    refine ⟨fun hall => ?_, fun hlive => ?_⟩
    · rw [endOfPass_ring_halted htopo hall]; rfl
    · rw [endOfPass_ring_again htopo hph hlive]
  · rw [composerStep_await hph he]
    exact ⟨awaitStep_of_halted, awaitStep_of_blocked_ring htopo, awaitStep_of_faulted⟩

/-! ### Concurrent engines -/

theorem firstFault_eq_none {k : Nat} {l : List Engine} (h : ∀ e ∈ l, e.status ≠ .faulted) : firstFault k l = none := by
  induction l generalizing k with
  | nil => rfl
  | cons f l ih =>
    rw [firstFault, if_neg (h f List.mem_cons_self), ih fun e he => h e (List.mem_cons_of_mem _ he)]

/-- The faulted engine of lowest index is the one that is found. -/
theorem firstFault_eq_some {k i : Nat} {l : List Engine} {e : Engine} (he : l[i]? = some e) (hst : e.status = .faulted)
    (hfirst : ∀ (j : Nat) (f : Engine), j < i → l[j]? = some f → f.status ≠ .faulted) :
    firstFault k l = some (.engineFault (k + i) e.fr) := by
  induction l generalizing k i with
  | nil => simp at he
  | cons f l ih =>
    cases i with
    | zero =>
      obtain rfl : f = e := by simpa using he
      rw [firstFault, if_pos hst, Nat.add_zero]
    | succ i =>
      have hf : f.status ≠ .faulted := hfirst 0 f (Nat.succ_pos i) rfl
      rw [firstFault, if_neg hf, ih he fun j f hj hf => hfirst (j + 1) f (by omega) hf, Nat.add_assoc, Nat.add_comm 1]

section
variable {s : State} {e : Engine}

theorem composerStep_threads (hph : s.phase = .threads) : composerStep s = .next (threadsStep s) := by
  simp only [composerStep, hph]

theorem threadsStep_of_fault {f : NetFault} (h : firstFault 0 s.engines = some f) :
    threadsStep s = s.failWith f := by
  simp only [threadsStep, h]

theorem threadsStep_of_all_halted (h : ∀ e ∈ s.engines, e.status = .halted) :
    threadsStep s = { s with phase := .extract, halted := List.replicate s.engines.length true } := by
  have hnone : firstFault 0 s.engines = none := firstFault_eq_none fun e he => by simp [h e he]
  have hall : s.engines.all (fun e => decide (e.status = .halted)) = true := by simpa using h
  simp only [threadsStep, hnone, hall, if_true, List.map_const']
  rfl

theorem threadsStep_of_waiting (hok : ∀ e ∈ s.engines, e.status ≠ .faulted) (hlive : ∃ e ∈ s.engines, e.status ≠ .halted) :
    threadsStep s = s := by
  have hall : s.engines.all (fun e => decide (e.status = .halted)) = false := by simpa using hlive
  simp only [threadsStep, firstFault_eq_none hok, hall, Bool.false_eq_true, if_false]

end

/-- Settles O55: what the composer finds, under either driver. -/
theorem engineFaultEndsNetwork : Obligations.EngineFaultEndsNetwork := by
  intro s hacts
  rw [step_of_composerActs hacts]
  refine ⟨fun e hph he hst => ?_, fun i e hph he hst hfirst => ?_, fun hph hall => ?_, fun hph hok hlive => ?_, fun hph => ?_⟩
  · rw [composerStep_await hph he, awaitStep_of_faulted hst]
    rfl
  · have hfault := firstFault_eq_some (k := 0) he hst hfirst
    rw [Nat.zero_add] at hfault
    rw [composerStep_threads hph, threadsStep_of_fault hfault]
    rfl
  · rw [composerStep_threads hph, threadsStep_of_all_halted hall]
  · rw [composerStep_threads hph, threadsStep_of_waiting hok hlive]
  · obtain hph | hph := hph <;> simp only [composerStep, hph]

/-! ### Extraction -/

theorem terminalIndex_eq (topo : Topology) (n : Nat) : terminalIndex topo n = if topo = .chain then n else 0 := by
  cases topo <;> rfl

/-- Settles O56: an open channel is drained whole. -/
theorem resultIsLastDrainedValue : Obligations.ResultIsLastDrainedValue := by
  intro s c ch hacts hph hcidx hc hopen
  have hterm : terminalIndex s.topo s.engines.length = c := by rw [terminalIndex_eq, hcidx]
  have hchan : s.channel? c = some ch := hc
  have hstep : step s = extractStep s := by
    rw [step_of_composerActs hacts]
    simp only [composerStep, hph]
  refine ⟨fun vs v hq => ?_, fun hq => ?_⟩
  · simp only [hstep, extractStep, hterm, hchan, Channel.drain_open ch hopen, hq,
      List.getLast?_concat]
    rfl
  · simp only [hstep, extractStep, hterm, hchan, Channel.drain_open ch hopen, hq, List.getLast?_nil]
    rfl

end Sys2Proof.Machine
end

section
/-! SUPPORT. Several steps in a row: the preload of a network (spec/46_network.md R172, R177; D28), and a pass of a ring none of
whose engines can go on (D26). -/

namespace Sys2Proof.Machine

open Sys2Proof.Claims

/-! ### Steps in a row -/

section
variable {s t u : State} {m n : Nat}

theorem steps_one (h : step s = .next t) : steps 1 s = some t := by
  simp only [steps, h]

theorem steps_succ (h : step s = .next t) : steps (n + 1) s = steps n t := by
  simp only [steps, h]

theorem steps_trans (h : steps m s = some t) (h' : steps n t = some u) : steps (m + n) s = some u := by
  induction m generalizing s with
  | zero =>
    obtain rfl : s = t := by simpa [steps] using h
    rwa [Nat.zero_add]
  | succ m ih =>
    cases hs : step s with
    | next s' =>
      rw [Nat.succ_add, Nat.succ_eq_add_one, steps_succ hs]
      exact ih (by rwa [steps_succ hs] at h)
    | fault r => simp [steps, hs] at h
    | refused r => simp [steps, hs] at h

end

/-! ### The preload -/

/-- Channels in the first of which wait the first `i` phases, one in each. -/
def preloadChannels (phases : List Int) (count i : Nat) : List Channel :=
  (List.range count).map fun k => { Channel.fresh with q := (phases.take i)[k]?.toList }

theorem preloadChannels_getElem? {phases : List Int} {count i k : Nat} (hk : k < count) :
    (preloadChannels phases count i)[k]? = some { Channel.fresh with q := (phases.take i)[k]?.toList } := by
  simp [preloadChannels, hk]

theorem preloadChannels_zero (phases : List Int) (count : Nat) :
    preloadChannels phases count 0 = List.replicate count Channel.fresh := by
  simp only [preloadChannels, List.take_zero, List.getElem?_nil, Option.toList_none, List.map_const', List.length_range]
  rfl

/-- One more phase is one more channel with a phase in it. -/
theorem preloadChannels_succ {phases : List Int} {count i : Nat} {v : Int} (hv : phases[i]? = some v) :
    (preloadChannels phases count i).set i { Channel.fresh with q := [v] } = preloadChannels phases count (i + 1) := by
  apply List.ext_getElem?
  intro k
  by_cases hk : k < count
  · by_cases hik : i = k
    · subst hik
      rw [List.getElem?_set_self (by simpa [preloadChannels] using hk), preloadChannels_getElem? hk]
      simp [hv]
    · have htake : (phases.take (i + 1))[k]? = (phases.take i)[k]? := by
        have hiff : k < i + 1 ↔ k < i := by omega
        simp only [List.getElem?_take, hiff]
      rw [List.getElem?_set_ne hik, preloadChannels_getElem? hk, preloadChannels_getElem? hk, htake]
  · simp [preloadChannels, hk]

/-- The network after the first `i` pushes of its preload. -/
def State.preloaded (s : State) (net : Net) (i : Nat) : State :=
  { s.launched net with
    channels := preloadChannels net.phases (channelCount net.topo net.images.length) i
    phase := .preload i }

section
variable {s : State} {net : Net} {i : Nat}

theorem State.preloaded_zero (hd : net.driver ≠ .external) : s.preloaded net 0 = s.launched net := by
  simp only [State.preloaded, State.launched, preloadChannels_zero, hd, if_false]

theorem State.preloaded_channel? {k : Nat} (hk : k < channelCount net.topo net.images.length) :
    (s.preloaded net i).channel? k = some { Channel.fresh with q := (net.phases.take i)[k]?.toList } :=
  preloadChannels_getElem? hk

theorem lt_channelCount {topo : Topology} {n k : Nat} (hk : k < n) : k < channelCount topo n := by
  cases topo <;> simp only [channelCount] <;> omega

/-- A preload push into an open channel with room. -/
theorem preloadPush_ok {c : Nat} {ch : Channel} {v : Int} {p : Phase} (hc : s.channel? c = some ch)
    (hw : ch.wclosed = false) (hr : ch.rclosed = false) (hroom : ch.q.length < s.cfg.cap) :
    preloadPush s c v p = .next ((s.setChannel c { ch with q := ch.q ++ [v] }).goTo 0 p) := by
  simp only [preloadPush, hc, trySend_ok v hw hr hroom]

theorem preloadPush_full {c : Nat} {ch : Channel} {v : Int} {p : Phase} (hc : s.channel? c = some ch)
    (hw : ch.wclosed = false) (hr : ch.rclosed = false) (hfull : s.cfg.cap ≤ ch.q.length) :
    preloadPush s c v p = .next (s.failWith (.preloadRefused c)) := by
  simp only [preloadPush, hc, trySend_full v hw hr hfull]

theorem step_preloaded (hops : s.hostOps = []) : step (s.preloaded net i) = preloadStep (s.preloaded net i) i :=
  step_of_composer (s := s.preloaded net i) rfl hops

/-- The push of phase `i`. -/
theorem step_preloaded_phase {v : Int} (hops : s.hostOps = []) (hcap : 1 ≤ s.cfg.cap) (hi : i < net.images.length)
    (hv : net.phases[i]? = some v) : step (s.preloaded net i) = .next (s.preloaded net (i + 1)) := by
  have himage : net.images[i]? = some net.images[i] := List.getElem?_eq_getElem hi
  have he : (s.preloaded net i).engines[i]? = some (Engine.load net.images[i] i (outIndex net.topo net.images.length i)) :=
    State.launched_engine s himage
  have hphase : (s.preloaded net i).phases[i]? = some v := hv
  have hc := State.preloaded_channel? (s := s) (net := net) (i := i) (lt_channelCount (topo := net.topo) hi)
  have hempty : (net.phases.take i)[i]?.toList = [] := by simp
  rw [hempty] at hc
  rw [step_preloaded hops]
  simp only [preloadStep, he, hphase, Engine.load_inCh]
  rw [preloadPush_ok hc rfl rfl hcap]
  exact congrArg (fun chs => Host.Outcome.next { s.launched net with channels := chs, phase := .preload (i + 1) })
    (preloadChannels_succ hv)

/-- What a composer that is launched can count on: an engine, a phase for each, and room for one word in a channel. -/
theorem launchOk_composer (hok : launchOk s.cfg net = true) (hd : net.driver ≠ .external) :
    1 ≤ net.images.length ∧ net.phases.length = net.images.length ∧ 1 ≤ s.cfg.cap := by
  obtain ⟨hcfg, hsome, -, hcount, -⟩ := launchOk_iff.mp hok
  obtain ⟨-, hcap, -⟩ := configOk_iff.mp hcfg
  exact ⟨hsome, by rwa [if_neg hd] at hcount, hcap⟩

/-- The pushes of the phases, one step each. -/
theorem steps_preload (hok : launchOk s.cfg net = true) (hd : net.driver ≠ .external) (hops : s.hostOps = [])
    (hi : i ≤ net.images.length) : steps i (s.launched net) = some (s.preloaded net i) := by
  obtain ⟨-, hcount, hcap⟩ := launchOk_composer hok hd
  induction i with
  | zero => rw [State.preloaded_zero hd]; rfl
  | succ i ih =>
    have hv : net.phases[i]? = some net.phases[i] := List.getElem?_eq_getElem (by omega)
    exact steps_trans (ih (by omega)) (steps_one (step_preloaded_phase hops hcap (by omega) hv))

/-- The push of the seed comes after the last phase. -/
theorem step_preloaded_seed (hops : s.hostOps = []) (hn : 1 ≤ net.images.length) :
    step (s.preloaded net net.images.length) =
      preloadPush (s.preloaded net net.images.length) 0 s.cfg.seed (phaseAfterPreload net.driver) := by
  obtain ⟨image, himage⟩ : ∃ image, net.images[0]? = some image := ⟨_, List.getElem?_eq_getElem hn⟩
  have h0 : (s.preloaded net net.images.length).engines[0]? =
      some (Engine.load image 0 (outIndex net.topo net.images.length 0)) := State.launched_engine s himage
  have hnone : (s.preloaded net net.images.length).engines[net.images.length]? = none :=
    List.getElem?_eq_none (State.launched_engines_length s net).le
  rw [step_preloaded hops]
  simp only [preloadStep, hnone, h0]
  rfl

/-- Before the seed is pushed every channel holds its phase, if an engine consumes from it. -/
theorem State.preloaded_all_channel? (hcount : net.phases.length = net.images.length) {k : Nat}
    (hk : k < channelCount net.topo net.images.length) :
    (s.preloaded net net.images.length).channels[k]? = some { Channel.fresh with q := net.phases[k]?.toList } := by
  have htake : net.phases.take net.images.length = net.phases := List.take_of_length_le hcount.le
  rw [← htake]
  exact State.preloaded_channel? hk

end

/-- Settles O51: the pushes of the phases, then that of the seed into channel 0, which holds one value. -/
theorem preloadFillsInputChannels : Obligations.PreloadFillsInputChannels := by
  intro s net hok hd hops hcap
  obtain ⟨hn, hcount, -⟩ := launchOk_composer hok hd
  obtain ⟨v, hv⟩ : ∃ v, net.phases[0]? = some v := ⟨_, List.getElem?_eq_getElem (hcount.symm ▸ hn)⟩
  have hchan {k : Nat} := State.preloaded_all_channel? (s := s) (net := net) hcount (k := k)
  have hc0 := hchan (lt_channelCount hn)
  rw [hv] at hc0
  have hseed := (step_preloaded_seed (s := s) hops hn).trans (preloadPush_ok hc0 rfl rfl hcap)
  refine ⟨_, steps_trans (steps_preload hok hd hops le_rfl) (steps_one hseed), rfl, rfl, rfl, rfl, phaseAfterPreload_eq hd,
    fun i w hw => ?_, fun htopo => ?_⟩
  · have hi : i < net.images.length := hcount ▸ (List.getElem?_eq_some_iff.mp hw).1
    by_cases h0 : i = 0
    · subst h0
      obtain rfl : v = w := Option.some.inj (hv.symm.trans hw)
      exact (List.getElem?_set_self (List.getElem?_eq_some_iff.mp hc0).1).trans (by simp [Channel.fresh])
    · refine (List.getElem?_set_ne (Ne.symm h0)).trans ((hchan (lt_channelCount hi)).trans ?_)
      simp [hw, h0, Channel.fresh]
  · have hlast : net.images.length < channelCount net.topo net.images.length := by rw [htopo]; exact Nat.lt_succ_self _
    refine (List.getElem?_set_ne (by omega)).trans ((hchan hlast).trans ?_)
    simp [List.getElem?_eq_none hcount.le, Channel.fresh]

/-- Settles O52: the phase of engine 0 has filled channel 0 when the seed is pushed. -/
theorem preloadRefusedWithoutRoom : Obligations.PreloadRefusedWithoutRoom := by
  intro s net hok hd hops hcap
  obtain ⟨hn, hcount, -⟩ := launchOk_composer hok hd
  obtain ⟨v, hv⟩ : ∃ v, net.phases[0]? = some v := ⟨_, List.getElem?_eq_getElem (hcount.symm ▸ hn)⟩
  have hc0 := State.preloaded_all_channel? (s := s) hcount (lt_channelCount (topo := net.topo) hn)
  rw [hv] at hc0
  have hseed := (step_preloaded_seed (s := s) hops hn).trans (preloadPush_full hc0 rfl rfl hcap.le)
  exact ⟨_, steps_trans (steps_preload hok hd hops le_rfl) (steps_one hseed), rfl, rfl, rfl, rfl⟩

/-! ### A ring that hangs -/

section
variable {s : State} {e : Engine}

theorem State.setEngine_self (he : s.engine? = some e) : s.setEngine e = s := by
  obtain ⟨hlt, rfl⟩ := List.getElem?_eq_some_iff.mp he
  simp [State.setEngine]

/-- An attempt that blocks again blocks again too under other registers of the composer: it looks at its engine and the channels
alone. -/
theorem attempt_blocks_alike {t : State} (he : s.engine? = some e) (hst : e.status = .blockedIn ∨ e.status = .blockedOut)
    (hat : attempt s = .next s) (hcfg : s.cfg = t.cfg) (hte : t.engine? = some e) (hch : s.channels = t.channels) :
    attempt t = .next t := by
  have hagree : s.Agree e.inCh e.outCh t :=
    ⟨hcfg, he.trans hte.symm, by simp only [State.channel?, hch], by simp only [State.channel?, hch]⟩
  obtain ⟨t', ht', hafter⟩ := (attempt_alike hagree he).clauses.1 s hat
  obtain ⟨hin, hout⟩ := blockingChangesOnlyStatus t t' e e ⟨hte, .inr hst⟩ ht' (hafter.engine ▸ he)
  have hsame : t' = t.setEngine e := by
    obtain hst | hst := hst
    · exact (hin hst).1.trans (by rw [← hst])
    · exact (hout hst).1.trans (by rw [← hst])
  rw [ht', hsame, State.setEngine_self hte]

/-- A run of an engine that blocks again returns (R152). -/
theorem step_of_blocked (hrun : s.running = true) (he : s.engine? = some e)
    (hst : e.status = .blockedIn ∨ e.status = .blockedOut) (hat : attempt s = .next s) : step s = .next s.endRun := by
  have hready : s.engine?.map (·.status) ≠ some .ready := by obtain hst | hst := hst <;> simp [he, hst]
  rw [step_of_attempt hrun ⟨he, .inr hst⟩ hat, State.afterAttempt, if_neg hready]

/-- The visit of an engine that blocks again takes three steps: `run` is invoked, its one attempt blocks, and the report lets the
composer go on (R178, R179). -/
theorem steps_visit_blocked (hacts : ComposerActs s) (htopo : s.topo = .ring) (hph : s.phase = .visit)
    (hmark : s.halted[s.cur]? = some false) (he : s.engine? = some e) (hst : e.status = .blockedIn ∨ e.status = .blockedOut)
    (hat : attempt s = .next s) : steps 3 s = some { s with cur := s.cur + 1 } := by
  obtain ⟨-, hvisit, -, -⟩ := ringComposerRule s hacts htopo
  have hblock : step { s with running := true, phase := .await } = .next { s with running := false, phase := .await } := by
    have hagain := attempt_blocks_alike (t := { s with running := true, phase := .await }) he hst hat rfl he rfl
    exact step_of_blocked rfl he hst hagain
  obtain ⟨-, -, -, hreport⟩ :=
    ringComposerRule { s with running := false, phase := .await } ⟨rfl, hacts.noHostOp⟩ htopo
  obtain ⟨-, hgo, -⟩ := hreport e rfl he
  rw [steps_succ (hvisit hph hmark), steps_succ hblock, steps_one (hgo hst)]
  simp only [← hph, ← hacts.notRunning]

end

/-- A pass of the ring gets from engine 0 past every engine: one that is marked is skipped, any other blocks again. -/
theorem steps_pass {s : State} (hacts : ComposerActs s) (htopo : s.topo = .ring) (hph : s.phase = .visit) (hcur : s.cur = 0)
    (hblocked : ∀ i : Nat, s.halted[i]? = some false → ∃ e, s.engines[i]? = some e ∧
      (e.status = .blockedIn ∨ e.status = .blockedOut) ∧ attempt { s with cur := i } = .next { s with cur := i })
    {k : Nat} (hk : k ≤ s.halted.length) : ∃ n, steps n s = some { s with cur := k } := by
  induction k with
  | zero => exact ⟨0, by rw [steps, ← hcur]⟩
  | succ k ih =>
    obtain ⟨n, hn⟩ := ih (by omega)
    have hmark : s.halted[k]? = some s.halted[k] := List.getElem?_eq_getElem (by omega)
    have hacts' : ComposerActs { s with cur := k } := ⟨hacts.notRunning, hacts.noHostOp⟩
    cases hb : s.halted[k] with
    | true =>
      rw [hb] at hmark
      obtain ⟨hskip, -⟩ := ringComposerRule { s with cur := k } hacts' htopo
      exact ⟨n + 1, steps_trans hn (steps_one (hskip hph hmark))⟩
    | false =>
      rw [hb] at hmark
      obtain ⟨e, he, hst, hat⟩ := hblocked k hmark
      exact ⟨n + 3, steps_trans hn (steps_visit_blocked hacts' htopo hph hmark he hst hat)⟩

/-- Settles O59: past the last engine the composer goes round to engine 0, since one is not marked. -/
theorem ringWithoutProgressHangs : Obligations.RingWithoutProgressHangs := by
  intro s hacts htopo hph hcur _ hlive hblocked
  obtain ⟨n, hn⟩ := steps_pass hacts htopo hph hcur hblocked le_rfl
  obtain ⟨i, hi⟩ := hlive
  have hagain : step { s with cur := s.halted.length } = .next s := by
    obtain ⟨-, -, hend, -⟩ :=
      ringComposerRule { s with cur := s.halted.length } ⟨hacts.notRunning, hacts.noHostOp⟩ htopo
    obtain ⟨-, hround⟩ := hend hph rfl
    rw [hround ⟨false, List.mem_of_getElem? hi, rfl⟩, ← hcur]
  exact ⟨n + 1, Nat.succ_pos n, steps_trans hn (steps_one hagain)⟩

end Sys2Proof.Machine
end
